-- ==== Sys2Proof/Word.lean ====
section
/-! DEFINITION. The words of the block: bytes, accumulator words, history coordinates, binary64 patterns,
and the two small records the spec indexes by sensor (i = 0, 1) and by packet byte (0..6). -/
namespace Sys2Proof

/-- A byte (00_scope R11). -/
abbrev Byte := BitVec 8

/-- A field of the accumulated motion buffer: `ACC_W` = 32 bits, two's complement (00_scope R9, D22). -/
abbrev Acc := BitVec 32

/-- A coordinate of the trajectory history: `HIST_W` = 32 bits, two's complement (00_scope R9, D23). -/
abbrev Coord := BitVec 32

/-- A binary64 bit pattern (00_scope R10). -/
abbrev F64 := BitVec 64

/-- One value per sensor: `s0` belongs to sensor 0 and `s1` to sensor 1 (10_state R29). -/
structure Duo (α : Type) where
  s0 : α
  s1 : α
deriving DecidableEq, Repr

/-- Seven bytes, `b0` first: the assembly buffer `RB[0..6]` (10_state R25) and the packet
`RSP_DATA[0..6]` (10_state R27). -/
structure Bytes7 where
  b0 : Byte
  b1 : Byte
  b2 : Byte
  b3 : Byte
  b4 : Byte
  b5 : Byte
  b6 : Byte
deriving DecidableEq, Repr

/-- The seven bytes in packet order. -/
def Bytes7.toList (d : Bytes7) : List Byte := [d.b0, d.b1, d.b2, d.b3, d.b4, d.b5, d.b6]

/-- Seven zero bytes. -/
def Bytes7.zero : Bytes7 := ⟨0, 0, 0, 0, 0, 0, 0⟩

end Sys2Proof
end

