-- ==== Sys2Proof/Config.lean ====
section
/-! DEFINITION. What an implementation fixes (the parameters of 00_scope R9) and the free values.
Every `opaque` constant here has no body: no proof can see its value. -/
namespace Sys2Proof

/-- One known pair of values of `FCOS` and `FSIN`: at `arg` they are `cosV` and `sinV` (log 4). -/
structure TrigEntry where
  arg : F64
  cosV : F64
  sinV : F64
deriving DecidableEq, Repr

/-- The OPEN parameters of 00_scope R9, as plain data that no step changes (log 1).
`ACC_W` = `HIST_W` = 32, `FRAME_N` = 361 and `N_SENSORS` = 2 are fixed by the spec and stand in the types. -/
structure Params where
  /-- `RESET_PAYLOAD` (D12) -/
  resetPayload : Byte
  /-- `NAV_CTRL2_PAYLOAD` (D12) -/
  navCtrl2Payload : Byte
  /-- `T_SETTLE`, at least 1 (D5) -/
  tSettle : Nat
  /-- `PIX_POLL_LIMIT`: `none` is `INF`, the default, `some n` with n at least 1 is finite (D14) -/
  pixPollLimit : Option Nat
  /-- `HIST_N`, at least 1 (D24) -/
  histN : Nat
  /-- `CS_LEVEL` (D4) -/
  csLevel : Bool
  /-- `BTN_REL_INIT` (D33) -/
  btnRelInit : Bool
  /-- Known values of `FCOS` and `FSIN`; outside the table they are the free functions below (D26, log 4) -/
  trig : List TrigEntry
deriving DecidableEq, Repr

/-- The ranges of 00_scope R9. -/
def Params.wf (p : Params) : Bool :=
  decide (1 ≤ p.tSettle) && decide (1 ≤ p.histN) && (p.pixPollLimit.all fun n => decide (1 ≤ n))

/-- `RESET_PAYLOAD` of this machine, OPEN. -/
opaque Config.resetPayload : Byte
/-- `NAV_CTRL2_PAYLOAD` of this machine, OPEN. -/
opaque Config.navCtrl2Payload : Byte
/-- `T_SETTLE - 1` of this machine, OPEN. -/
opaque Config.settleBeyondOne : Nat
/-- `PIX_POLL_LIMIT` of this machine: the default `INF` (00_scope R9, D14). A block built with a finite
limit is a state whose `params` hold it (log 1). -/
def Config.pixPollLimit : Option Nat := none
/-- `HIST_N - 1` of this machine, OPEN. -/
opaque Config.histBeyondOne : Nat
/-- `CS_LEVEL` of this machine, OPEN. -/
opaque Config.csLevel : Bool
/-- `BTN_REL_INIT` of this machine, OPEN. -/
opaque Config.btnRelInit : Bool
/-- `CYCLES_PER_STEP - 1` of this machine, OPEN; timing only (40_shift_engine R71, log 19). -/
opaque Config.cyclesBeyondOne : Nat

/-- `FCOS`, OPEN: a total function of binary64 patterns (D26). -/
opaque Config.fcos : F64 → F64
/-- `FSIN`, OPEN (D26). -/
opaque Config.fsin : F64 → F64

/-- The bit MISO0 carries at free draw n (40_shift_engine R77, D6, log 2). -/
opaque Config.miso0 : Nat → Bool
/-- The bit MISO1 carries at free draw n (40_shift_engine R77, D6, log 2). -/
opaque Config.miso1 : Nat → Bool
/-- The byte AUX_IN shows at free draw n (41_dispatcher R91, D13, log 3). -/
opaque Config.auxIn : Nat → Byte

/-- The parameters of this machine: the default poll limit, every other one free within its range. -/
def Config.params : Params where
  resetPayload := Config.resetPayload
  navCtrl2Payload := Config.navCtrl2Payload
  tSettle := Config.settleBeyondOne + 1
  pixPollLimit := Config.pixPollLimit
  histN := Config.histBeyondOne + 1
  csLevel := Config.csLevel
  btnRelInit := Config.btnRelInit
  trig := []

/-- `CYCLES_PER_STEP`. -/
def Config.cyclesPerStep : Nat := Config.cyclesBeyondOne + 1

end Sys2Proof
end

