-- ==== Sys2Proof/Syntax.lean ====
section
/-! DEFINITION. The operations of the block as syntax: one constructor of `Instr` per row of
spec/opcode_table.json, the operation word of the OA port, and the turns of the agents. -/
namespace Sys2Proof

/-- The output mode `MODE` (10_state R30): 0 is `PER_SENSOR`, 1 is `FREE_BALL` (D32). -/
inductive Mode where
  | perSensor
  | freeBall
deriving DecidableEq, Repr

/-- The operations of the block. Command rows are routines of the CD, run one step at a time
(41_dispatcher R82); OA rows are atomic (20_memory R45); SEND and READ go one micro-phase at a time
(40_shift_engine R71). -/
inductive Instr where
  /-- `CMD_CHIP_RESET`, R85 -/
  | cmdChipReset
  /-- `CMD_NAV_CTRL2`, R86 -/
  | cmdNavCtrl2
  /-- `CMD_PIXEL_GRAB`, R87 -/
  | cmdPixelGrab
  /-- `CMD_MOTION`, R91 -/
  | cmdMotion
  /-- `CMD_REG_READ` with its command byte c, R92 -/
  | cmdRegRead (c : Byte)
  /-- `DECODE_MOTION` with the seven bytes of a MOT packet, R104 -/
  | decodeMotion (b0 b1 b2 b3 b4 b5 b6 : Byte)
  /-- `STORE_PIXEL_PAIR`, R106 -/
  | storePixelPair (p0 p1 : Byte)
  /-- `TICK`, R112 -/
  | tick
  /-- `SET_MODE`, R108 -/
  | setMode (m : Mode)
  /-- `SET_CAL`, R111 -/
  | setCal (c0 c1 circ : F64)
  /-- `SESSION_RESET`, R109 -/
  | sessionReset
  /-- `SET_BTN`, R110 -/
  | setBtn (b : Bool)
  /-- `RESERVED_OA_7`, R124 -/
  | reservedOa7
  /-- `RESERVED_OA_8_F`, R124; `low` is the low three bits of the code (log 21) -/
  | reservedOa8F (low : BitVec 3)
  /-- `SEND`, R73 -/
  | send (v : Byte)
  /-- `READ`, R76 -/
  | read
  /-- `EMIT`, R83 -/
  | emit (bs : List Byte)
  /-- `HOST_WRITE`, R94 -/
  | hostWrite (bytes : List Byte)
  /-- `HOST_READ`, R95 -/
  | hostRead (maxLen : Nat)
  /-- `HOST_STATUS`, R96 -/
  | hostStatus
deriving DecidableEq, Repr

/-- One word of the OA operation port: `OP` and `OPND` (30_encoding R64). -/
structure OaWord where
  op : BitVec 4
  opnd : BitVec 192
deriving DecidableEq, Repr

/-- What an encoded port is given: a byte sequence on the transport's command side, or one OA
operation word (30_encoding, introduction). -/
inductive PortWord where
  | command (bytes : List Byte)
  | oa (w : OaWord)
deriving DecidableEq, Repr

/-- One turn: which agent moves and what it does (60_exceptions R127, 42_transport R103; log 5). -/
inductive Turn where
  /-- the CD/SE agent takes its next step -/
  | cd
  /-- the host issues one OA operation word -/
  | oa (w : OaWord)
  /-- the host performs `HOST_WRITE` -/
  | hostWrite (bytes : List Byte)
  /-- the host performs `HOST_READ` -/
  | hostRead (maxLen : Nat)
  /-- the host performs `HOST_STATUS` -/
  | hostStatus
  /-- the display reader takes a snapshot (20_memory R46) -/
  | snapshot
  /-- power-on reset is asserted (70_reset_and_hazards R136) -/
  | powerOn
  /-- the host waits until `CMD_FULL` = 0, then performs `HOST_WRITE` (95, Part 3; log 16) -/
  | awaitWrite (bytes : List Byte)
  /-- the host waits until `RSP_VALID` = 1, then performs `HOST_READ` (30_encoding R69 `HR`; log 16) -/
  | awaitRead (maxLen : Nat)
  /-- the host issues `DECODE_MOTION` with the seven bytes it read last (30_encoding R70; log 16) -/
  | oaDecodeReply
  /-- the host issues `STORE_PIXEL_PAIR` with the two bytes it read last (30_encoding R70; log 16) -/
  | oaStoreReply
  /-- the host begins `query(c)` (42_transport R98; log 26) -/
  | queryStart (c : Byte)
  /-- the host waits for the query's next packet, then reads it with `maxLen` = n (R98; log 26) -/
  | queryRead (n : Nat)
  /-- the host gives up the query: its own outer timeout (42_transport R101; log 26) -/
  | queryTimeout
  /-- the host issues `DECODE_MOTION` with the seven bytes its query returned (R102; log 26) -/
  | oaDecodeQuery
  /-- the host issues `STORE_PIXEL_PAIR` with pair k of the bytes its query returned (R102; log 26) -/
  | oaStoreQuery (k : Nat)
deriving DecidableEq, Repr

end Sys2Proof
end

