-- ==== Sys2Proof/WellFormed.lean ====
section
/-! DEFINITION. Which terms of `Instr` the spec gives: the operand limits of the opcode table. -/
namespace Sys2Proof

/-- The four command bytes with a row of their own (30_encoding R56, orders 1 to 4). -/
def namedCommandByte (c : Byte) : Bool :=
  c == 0xBA#8 || c == 0xA2#8 || c == 0x0B#8 || c == 0x02#8

/-- A packet is 2 or 7 bytes (30_encoding R54, 41_dispatcher R83). -/
def packetLength (n : Nat) : Bool := n == 2 || n == 7

/-- `CMD_REG_READ` has none of the four named bytes (R92), `EMIT` has 2 or 7 bytes (R83);
the other operations take every value of their operands. `HOST_WRITE` takes any byte sequence: a
length other than 1 is answered with `fail` (R94). -/
def Instr.wf : Instr → Bool
  | .cmdChipReset => true
  | .cmdNavCtrl2 => true
  | .cmdPixelGrab => true
  | .cmdMotion => true
  | .cmdRegRead c => !namedCommandByte c
  | .decodeMotion _ _ _ _ _ _ _ => true
  | .storePixelPair _ _ => true
  | .tick => true
  | .setMode _ => true
  | .setCal _ _ _ => true
  | .sessionReset => true
  | .setBtn _ => true
  | .reservedOa7 => true
  | .reservedOa8F _ => true
  | .send _ => true
  | .read => true
  | .emit bs => packetLength bs.length
  | .hostWrite _ => true
  | .hostRead _ => true
  | .hostStatus => true

end Sys2Proof
end

