-- ==== Sys2Proof/Decode.lean ====
section
/-! DEFINITION. The decoders of the two encoded ports (30_encoding R56, R65), the encoder, and the
reading of a word of spec/opcode_table.json. -/
namespace Sys2Proof

/-- Why a port word is no instruction. -/
inductive DecodeError where
  /-- "a command is exactly one byte" (30_encoding R54): the host's write fails (42_transport R94) -/
  | notOneByte (length : Nat)
deriving DecidableEq, Repr

/-- The command byte, by exact match, first match wins (30_encoding R56, R57). -/
def decodeCommand (c : Byte) : Instr :=
  if c = 0xBA#8 then .cmdChipReset
  else if c = 0xA2#8 then .cmdNavCtrl2
  else if c = 0x0B#8 then .cmdPixelGrab
  else if c = 0x02#8 then .cmdMotion
  else .cmdRegRead c

/-- Byte k of the operand field: `OPND[8k+7:8k]` (30_encoding R65). -/
def opndByte (opnd : BitVec 192) (k : Nat) : Byte := opnd.extractLsb' (8 * k) 8

/-- Binary64 operand k of `SET_CAL`: `OPND[64k+63:64k]` (30_encoding R65). -/
def opndF64 (opnd : BitVec 192) (k : Nat) : F64 := opnd.extractLsb' (64 * k) 64

/-- `m` = 0 is `PER_SENSOR`, 1 is `FREE_BALL` (30_encoding R65). -/
def modeOfBit (m : Bool) : Mode := if m then .freeBall else .perSensor

/-- The bit of a mode. -/
def bitOfMode : Mode → Bool
  | .perSensor => false
  | .freeBall => true

/-- The OA operation word: every code has a row; operand bits not listed are ignored
(30_encoding R65, R66). -/
def decodeOa (w : OaWord) : Instr :=
  match w.op.toNat with
  | 0x0 => .decodeMotion (opndByte w.opnd 0) (opndByte w.opnd 1) (opndByte w.opnd 2)
      (opndByte w.opnd 3) (opndByte w.opnd 4) (opndByte w.opnd 5) (opndByte w.opnd 6)
  | 0x1 => .storePixelPair (opndByte w.opnd 0) (opndByte w.opnd 1)
  | 0x2 => .tick
  | 0x3 => .setMode (modeOfBit (w.opnd.getLsbD 0))
  | 0x4 => .setCal (opndF64 w.opnd 0) (opndF64 w.opnd 1) (opndF64 w.opnd 2)
  | 0x5 => .sessionReset
  | 0x6 => .setBtn (w.opnd.getLsbD 0)
  | 0x7 => .reservedOa7
  | _ => .reservedOa8F (w.op.extractLsb' 0 3)

/-- The decoder of both ports, total; only a command that is not one byte long is rejected. -/
def decode : PortWord → Except DecodeError Instr
  | .command [c] => .ok (decodeCommand c)
  | .command bs => .error (.notOneByte bs.length)
  | .oa w => .ok (decodeOa w)

/-- The command format `CMDB`: the write flag above the 7-bit register address (30_encoding R55). -/
def commandByte (write : Bool) (addr : BitVec 7) : Byte := BitVec.ofBool write ++ addr

/-- The word of an encoded operation; the internal and host-port rows have none. Operand bits the
table does not list are 0 (log 12). -/
def encode : Instr → Option PortWord
  | .cmdChipReset => some (.command [commandByte true 0x3A#7])
  | .cmdNavCtrl2 => some (.command [commandByte true 0x22#7])
  | .cmdPixelGrab => some (.command [commandByte false 0x0B#7])
  | .cmdMotion => some (.command [commandByte false 0x02#7])
  | .cmdRegRead c => some (.command [c])
  | .decodeMotion b0 b1 b2 b3 b4 b5 b6 =>
      some (.oa ⟨0x0#4, 0#136 ++ (b6 ++ (b5 ++ (b4 ++ (b3 ++ (b2 ++ (b1 ++ b0))))))⟩)
  | .storePixelPair p0 p1 => some (.oa ⟨0x1#4, 0#176 ++ (p1 ++ p0)⟩)
  | .tick => some (.oa ⟨0x2#4, 0#192⟩)
  | .setMode m => some (.oa ⟨0x3#4, 0#191 ++ BitVec.ofBool (bitOfMode m)⟩)
  | .setCal c0 c1 circ => some (.oa ⟨0x4#4, circ ++ (c1 ++ c0)⟩)
  | .sessionReset => some (.oa ⟨0x5#4, 0#192⟩)
  | .setBtn b => some (.oa ⟨0x6#4, 0#191 ++ BitVec.ofBool b⟩)
  | .reservedOa7 => some (.oa ⟨0x7#4, 0#192⟩)
  | .reservedOa8F low => some (.oa ⟨1#1 ++ low, 0#192⟩)
  | .send _ => none
  | .read => none
  | .emit _ => none
  | .hostWrite _ => none
  | .hostRead _ => none
  | .hostStatus => none

/-- The OA operation word as one number, `OP` in bits 3:0 and `OPND` above it (log 12). -/
def oaWordOfNat (w : Nat) : OaWord := ⟨BitVec.ofNat 4 w, BitVec.ofNat 192 (w / 16)⟩

/-- Which port a word of the opcode table belongs to. Words of more than 8 bits are OA operation
words. A word of 8 bits or fewer names no port: the four named command bytes are commands, another
word below 16 is an OA operation code with operands of zeros, any other is a command byte
(log 13; the machine itself never uses this). -/
def tableWordIsOa (nbits w : Nat) : Bool :=
  decide (8 < nbits) || (decide (w < 16) && !namedCommandByte (BitVec.ofNat 8 w))

/-- The instruction the decoder reads from a word of the opcode table. -/
def decodeTableWord (nbits w : Nat) : Option Instr :=
  match decode (if tableWordIsOa nbits w then .oa (oaWordOfNat w)
      else .command [BitVec.ofNat 8 w]) with
  | .ok i => some i
  | .error _ => none

end Sys2Proof
end

