-- ==== Sys2Proof/Machine/State.lean ====
section
/-! DEFINITION. Everything the spec gives the block as state (10_state), as plain data, grouped by
unit; the model's own fields stand apart in `Env`; the power-on state (70_reset_and_hazards R136). -/
namespace Sys2Proof.Machine

/-- The micro-phase the Shift Engine performs NEXT (`SE_PH`, 10_state R24; log 8). -/
inductive SePhase where
  | idle | txL | txA | txH | settle | rxL | rxH | rxP
deriving DecidableEq, Repr

/-- `CD_ST` (10_state R25). -/
inductive CdStatus where
  | idle | busy
deriving DecidableEq, Repr

/-- `STEP`: the labelled line the routine performs next (41_dispatcher R85 to R92). `P2` is no step
of its own (R87: "part of the step that completes P7 or P1"), so it is no value of `STEP` (log 9). -/
inductive Label where
  | w0 | w1
  | n0 | n1
  | p0 | p1 | p3 | p4 | p5 | p7
  | m0 | m1 | m2 | m3 | m4 | m5 | m6 | m7 | m8 | m9
  | g0 | g1 | g2
deriving DecidableEq, Repr

/-- Bus output lines (10_state R23) and Shift Engine registers (R24). -/
structure ShiftEngine where
  /-- `SCLK` -/
  sclk : Bool
  /-- `MOSI` -/
  mosi : Bool
  /-- `CHSEL` -/
  chsel : Bool
  /-- `SE_PH` -/
  phase : SePhase
  /-- `TX_SR` -/
  txSr : Byte
  /-- `BITCNT` -/
  bitCnt : Fin 8
  /-- `SET_CNT` -/
  setCnt : Nat
  /-- `RX0` -/
  rx0 : Byte
  /-- `RX1` -/
  rx1 : Byte
deriving DecidableEq, Repr

/-- Command Dispatcher registers (10_state R25). -/
structure Dispatcher where
  /-- `CD_ST` -/
  status : CdStatus
  /-- `CMD` -/
  cmd : Byte
  /-- `STEP` -/
  label : Label
  /-- `PIX_K` -/
  pixK : Nat
  /-- `POLL_CNT` -/
  pollCnt : Nat
  /-- `RB[0..6]` -/
  rb : Bytes7
  /-- `PTO` -/
  pto : Bool
deriving DecidableEq, Repr

/-- The two mailboxes of the transport (10_state R27). -/
structure Transport where
  /-- `CMD_FULL` -/
  cmdFull : Bool
  /-- `CMD_BYTE` -/
  cmdByte : Byte
  /-- `RSP_VALID` -/
  rspValid : Bool
  /-- `RSP_LEN` -/
  rspLen : Nat
  /-- `RSP_DATA[0..6]` -/
  rspData : Bytes7
deriving DecidableEq, Repr

/-- All OA state: the accumulated motion buffer (10_state R29), the control registers (R30), the
odometry (R31), the history (R32) and the pixel frames (R33). -/
structure Odometry where
  /-- `absX[i]` -/
  absX : Duo Acc
  /-- `absY[i]` -/
  absY : Duo Acc
  /-- `lastDx[i]` -/
  lastDx : Duo Acc
  /-- `lastDy[i]` -/
  lastDy : Duo Acc
  /-- `quality[i]` -/
  quality : Duo Acc
  /-- `BTN_REL` -/
  btnRel : Bool
  /-- `MODE` -/
  mode : Mode
  /-- `CAL0` -/
  cal0 : F64
  /-- `CAL1` -/
  cal1 : F64
  /-- `CIRC` -/
  circ : F64
  /-- `OA_ERR` -/
  oaErr : BitVec 8
  /-- `HEADING` -/
  heading : F64
  /-- `POS_X` -/
  posX : F64
  /-- `POS_Y` -/
  posY : F64
  /-- `HIST`, newest entry first; its length is `HIST_N` -/
  hist : List (Coord × Coord)
  /-- `FRAME0`: the elements that hold a byte; an unlisted index reads as the no-value mark -/
  frame0 : List Host.Cell
  /-- `FRAME1` -/
  frame1 : List Host.Cell
  /-- `PIX_IDX` -/
  pixIdx : Fin 361
deriving DecidableEq, Repr

/-- The derived output of 44_odometry R118. -/
inductive Output where
  /-- `((absX[0], absY[0]), (absX[1], absY[1]))` -/
  | perSensor (first second : Acc × Acc)
  /-- `(HEADING, POS_X, POS_Y, HIST)` -/
  | freeBall (heading posX posY : F64) (hist : List (Coord × Coord))
deriving DecidableEq, Repr

/-- What the snapshot port returns: a copy of all OA state and the derived output (20_memory R46). -/
structure Snapshot where
  oa : Odometry
  output : Output
deriving DecidableEq, Repr

/-- What a host operation returns (42_transport R94 to R96). -/
inductive HostReply where
  /-- no host operation has returned yet -/
  | none
  /-- `ok` -/
  | ok
  /-- `fail`, the transport fault (60_exceptions R121) -/
  | fail
  /-- the bytes read; `[]` when no packet was ready -/
  | bytes (bs : List Byte)
  /-- the value of `TSTAT` -/
  | status (v : BitVec 8)
deriving DecidableEq, Repr

/-- Where the host's `query` stands (42_transport R98; log 26). -/
inductive Query where
  /-- no query has begun yet -/
  | none
  /-- `left` packets are still to be read; `got` is the concatenation of those read so far -/
  | running (left : Nat) (got : List Byte)
  /-- the query has returned the concatenation of its packets -/
  | returned (bytes : List Byte)
  /-- the query ended in a transport fault: a `HOST_WRITE` or a `HOST_READ` failed (60_exceptions R121) -/
  | transportFault
  /-- the host gave the query up: "a distinct timeout error" (42_transport R101) -/
  | timedOut
  /-- what `query` requires did not hold: a packet of an earlier query was still unread -/
  | notBegun
deriving DecidableEq, Repr

/-- The MODEL's own fields: what the agents outside the block will do and have seen
(logs 2, 3, 5, 15, 26). No register of the block is here. -/
structure Env where
  /-- the turns still to be taken, in order; with none left the CD/SE agent moves -/
  agenda : List Turn
  /-- the levels of (MISO0, MISO1) at the next samples; with none left they are free draws -/
  sensorBits : List (Bool × Bool)
  /-- the bytes of AUX_IN at the next samples; with none left they are free draws -/
  auxBytes : List Byte
  /-- the number of samples taken, which picks the free draw -/
  draws : Nat
  /-- what the last host operation returned -/
  reply : HostReply
  /-- what the snapshot port returned last -/
  view : Option Snapshot
  /-- where the host's query stands -/
  query : Query
deriving DecidableEq, Repr

/-- The state of the block, its parameters and its surroundings. -/
structure State where
  se : ShiftEngine
  cd : Dispatcher
  tp : Transport
  oa : Odometry
  /-- the parameters of 00_scope R9; no step changes them (log 1) -/
  params : Params
  env : Env
deriving DecidableEq, Repr

/-- What stops the block: nothing. "No error is fatal to the block" (60_exceptions R126) and it has
no traps (R128), so no constructor is given and no step can answer a fault. -/
inductive Fault where
deriving DecidableEq, Repr

/-- What the model refuses. -/
inductive Refusal where
  /-- Raised by `exec`'s arm of an instruction that has no meaning yet; safe. No arm raises it. -/
  | notModelled (mnemonic : String)
deriving DecidableEq, Repr

/-- Nothing pending from outside. -/
def Env.start : Env where
  agenda := []
  sensorBits := []
  auxBytes := []
  draws := 0
  reply := .none
  view := none
  query := .none

/-- The power-on state of a block with parameters p (70_reset_and_hazards R136). The elements 10_state
calls "unspecified, unobservable" get the values of log 10. -/
def State.powerOn (p : Params) : State where
  se := { sclk := true, mosi := false, chsel := p.csLevel, phase := .idle,
          txSr := 0, bitCnt := 0, setCnt := 0, rx0 := 0, rx1 := 0 }
  cd := { status := .idle, cmd := 0, label := .g0, pixK := 0, pollCnt := 0,
          rb := Bytes7.zero, pto := false }
  tp := { cmdFull := false, cmdByte := 0, rspValid := false, rspLen := 2, rspData := Bytes7.zero }
  oa := { absX := ⟨0, 0⟩, absY := ⟨0, 0⟩, lastDx := ⟨0, 0⟩, lastDy := ⟨0, 0⟩, quality := ⟨0, 0⟩,
          btnRel := p.btnRelInit, mode := .perSensor, cal0 := 0, cal1 := 0, circ := 0, oaErr := 0,
          heading := 0, posX := 0, posY := 0, hist := List.replicate p.histN (0, 0),
          frame0 := [], frame1 := [], pixIdx := 0 }
  params := p
  env := Env.start

/-- The state right after reset, of the machine whose parameters are `Config.params`. -/
def State.reset : State := State.powerOn Config.params

end Sys2Proof.Machine
end

