-- ==== Sys2Proof/Machine/Flags.lean ====
section
/-! DEFINITION. Every status bit of the block: `TSTAT` (10_state R28), the bits of `OA_ERR`
(60_exceptions R120) and the pixel-valid bit (30_encoding R61). -/
namespace Sys2Proof.Machine

/-- The four OA errors (60_exceptions R119). -/
inductive OaErrorCode where
  | illegalOp | badCal | nonfinite | range
deriving DecidableEq, Repr

/-- The code of an OA error, "which is its bit number in `OA_ERR`" (60_exceptions R120). -/
def oaErrorBit : OaErrorCode → Nat
  | .illegalOp => 0
  | .badCal => 1
  | .nonfinite => 2
  | .range => 3

/-- `OA_ERR[code] <- 1`, the other bits kept (60_exceptions R123). -/
def setOaError (v : BitVec 8) (code : OaErrorCode) : BitVec 8 := v ||| BitVec.twoPow 8 (oaErrorBit code)

/-- `OA_ERR[code]`. -/
def oaErrorIsSet (v : BitVec 8) (code : OaErrorCode) : Bool := v.getLsbD (oaErrorBit code)

/-- `CD_BUSY`: 1 iff `CD_ST = BUSY` (10_state R28). -/
def cdBusy (s : State) : Bool := decide (s.cd.status = .busy)

/-- The status register: bit 0 `CMD_FULL`, bit 1 `RSP_VALID`, bit 2 `CD_BUSY`, bit 3 `PTO`,
bits 7:4 read as 0 (10_state R28). -/
def tstat (s : State) : BitVec 8 :=
  0#4 ++ (BitVec.ofBool s.cd.pto ++ (BitVec.ofBool (cdBusy s) ++
    (BitVec.ofBool s.tp.rspValid ++ BitVec.ofBool s.tp.cmdFull)))

/-- The pixel-valid bit of a raw byte, bit 7 (30_encoding R61, 10_state R35). -/
def pixelValid (b : Byte) : Bool := b.getLsbD 7

/-- "clear both valid bits" (41_dispatcher R87). -/
def clearValid (b : Byte) : Byte := b &&& 0x7F#8

end Sys2Proof.Machine
end

