-- ==== Sys2Proof/Machine/Operands.lean ====
section
/-! DEFINITION. How operands are read: signed and unsigned bytes, the wrapping sum of `ACC_W` bits
(00_scope R12), the sensor register roles and the bytes that address them (20_memory R37, R38), and
the values the outside drives (40_shift_engine R77, 41_dispatcher R91, 00_scope R9). -/
namespace Sys2Proof.Machine

/-- `s8(b)`, range -128..127 (00_scope R12). -/
def s8 (b : Byte) : Int := b.toInt

/-- `u8(b)`, range 0..255 (00_scope R12). -/
def u8 (b : Byte) : Int := Int.ofNat b.toNat

/-- An integer held in `ACC_W` bits, modulo 2^32 (00_scope R12 `wrap_W`, D22). -/
def wrapAcc (z : Int) : Acc := BitVec.ofInt 32 z

/-- `wrap_ACC_W(a + z)` (43_decoder R104). -/
def accAdd (a : Acc) (z : Int) : Acc := wrapAcc (a.toInt + z)

/-- `PRODUCT_ID` (20_memory R37). -/
def regProductId : BitVec 7 := 0x00#7
/-- `REV_ID` (20_memory R37). -/
def regRevId : BitVec 7 := 0x01#7
/-- `MOTION_STATUS` (20_memory R37). -/
def regMotionStatus : BitVec 7 := 0x02#7
/-- `DELTA_X` (20_memory R37). -/
def regDeltaX : BitVec 7 := 0x03#7
/-- `DELTA_Y` (20_memory R37). -/
def regDeltaY : BitVec 7 := 0x04#7
/-- `SURFACE_QUALITY` (20_memory R37). -/
def regSurfaceQuality : BitVec 7 := 0x05#7
/-- `PIXEL_GRAB` (20_memory R37). -/
def regPixelGrab : BitVec 7 := 0x0B#7
/-- `NAV_CTRL2` (20_memory R37). -/
def regNavCtrl2 : BitVec 7 := 0x22#7
/-- `CHIP_RESET` (20_memory R37). -/
def regChipReset : BitVec 7 := 0x3A#7

/-- The first bus byte of a write, `0x80 | a` (20_memory R38, 30_encoding R58). -/
def writeAddress (a : BitVec 7) : Byte := commandByte true a

/-- The address byte of a read, bit 7 clear (20_memory R38, 30_encoding R59). -/
def readAddress (a : BitVec 7) : Byte := commandByte false a

/-- The levels of MISO0 and MISO1 at the next sample: any bits (40_shift_engine R77, log 2). -/
def misoNow (e : Env) : Bool × Bool :=
  match e.sensorBits with
  | [] => (Config.miso0 e.draws, Config.miso1 e.draws)
  | b :: _ => b

/-- The surroundings after one sample of the MISO lines. -/
def misoTaken (e : Env) : Env := { e with sensorBits := e.sensorBits.tail, draws := e.draws + 1 }

/-- The byte AUX_IN shows at the next sample: any byte (41_dispatcher R91 line M8, log 3). -/
def auxNow (e : Env) : Byte :=
  match e.auxBytes with
  | [] => Config.auxIn e.draws
  | b :: _ => b

/-- The surroundings after one sample of AUX_IN. -/
def auxTaken (e : Env) : Env := { e with auxBytes := e.auxBytes.tail, draws := e.draws + 1 }

/-- `FCOS` of a block with parameters p: a known value, else the free function (00_scope R9, log 4). -/
def fcosOf (p : Params) (x : F64) : F64 :=
  match p.trig.find? (fun e => e.arg == x) with
  | some e => e.cosV
  | none => Config.fcos x

/-- `FSIN` of a block with parameters p (00_scope R9, log 4). -/
def fsinOf (p : Params) (x : F64) : F64 :=
  match p.trig.find? (fun e => e.arg == x) with
  | some e => e.sinV
  | none => Config.fsin x

end Sys2Proof.Machine
end

