-- ==== Sys2Proof/Machine/Ops.lean ====
section
/-! DEFINITION. The named operations over the memories, the mailboxes and the registers; raising an OA
error as ONE operation (60_exceptions R123); power-on reset and the snapshot port. -/
namespace Sys2Proof.Machine

/-- `MemRead(FRAMEj, a)`: the byte, or `none` for the no-value mark (10_state R33, 00_scope R14). -/
def memRead : List Host.Cell → Nat → Option Byte
  | [], _ => none
  | (k, u) :: m, a => if k = a then some u else memRead m a

/-- `MemWrite(FRAMEj, a, v)`, keeping the cells in rising order (00_scope R14). -/
def memWrite : List Host.Cell → Nat → Byte → List Host.Cell
  | [], a, v => [(a, v)]
  | (k, u) :: m, a, v =>
    if a < k then (a, v) :: (k, u) :: m
    else if a = k then (a, v) :: m
    else (k, u) :: memWrite m a v

/-- Strictly rising addresses from `lo` on, all inside the frame's index range 0..360 (20_memory R36). -/
def memWfFrom : Nat → List Host.Cell → Bool
  | _, [] => true
  | lo, (k, _) :: m => decide (lo ≤ k) && decide (k < 361) && memWfFrom (k + 1) m

/-- The canonical form of a frame memory: no cell stands for the no-value mark, since an unlisted
index reads as it. -/
def Memory.wf (m : List Host.Cell) : Bool := memWfFrom 0 m

/-- The history push: the newest entry in front, the oldest discarded (44_odometry R114). -/
def histPush (h : List (Coord × Coord)) (e : Coord × Coord) : List (Coord × Coord) := (e :: h).dropLast

/-- `raise OAError(code)`: the bit is set and every other element is as before (60_exceptions R123). -/
def raiseOaError (code : OaErrorCode) (s : State) : State :=
  { s with oa := { s.oa with oaErr := setOaError s.oa.oaErr code } }

/-- `RSP_DATA[k] <- b_k for k = 0..n-1`, the rest kept (41_dispatcher R83). -/
def writeBytes (d : Bytes7) (bs : List Byte) : Bytes7 where
  b0 := bs.getD 0 d.b0
  b1 := bs.getD 1 d.b1
  b2 := bs.getD 2 d.b2
  b3 := bs.getD 3 d.b3
  b4 := bs.getD 4 d.b4
  b5 := bs.getD 5 d.b5
  b6 := bs.getD 6 d.b6

/-- The packet is placed in the response mailbox (41_dispatcher R83). -/
def placePacket (bs : List Byte) (s : State) : State :=
  { s with tp := { s.tp with rspData := writeBytes s.tp.rspData bs, rspLen := bs.length,
                             rspValid := true } }

/-- The packet in the response mailbox: `[RSP_DATA[0], ..., RSP_DATA[RSP_LEN-1]]` (42_transport R95). -/
def packetBytes (t : Transport) : List Byte := t.rspData.toList.take t.rspLen

/-- `STEP <- l`. -/
def goto (l : Label) (s : State) : State := { s with cd := { s.cd with label := l } }

/-- `CD_ST <- IDLE`: the routine ends (41_dispatcher R82). -/
def endRoutine (s : State) : State := { s with cd := { s.cd with status := .idle } }

/-- A host operation returns v to the host (log 15). -/
def answerHost (v : HostReply) (s : State) : State := { s with env := { s.env with reply := v } }

/-- The derived output `MODE` selects (44_odometry R118). -/
def derivedOutput (o : Odometry) : Output :=
  match o.mode with
  | .perSensor => .perSensor (o.absX.s0, o.absY.s0) (o.absX.s1, o.absY.s1)
  | .freeBall => .freeBall o.heading o.posX o.posY o.hist

/-- The snapshot port: a copy of all OA state and the derived output (20_memory R46). -/
def snapshotOf (s : State) : Snapshot where
  oa := s.oa
  output := derivedOutput s.oa

/-- The display reader takes a snapshot; the block is unchanged (20_memory R46, log 15). -/
def takeSnapshot (s : State) : State := { s with env := { s.env with view := some (snapshotOf s) } }

/-- Power-on reset: every element of the block at its power-on value, nothing sent on the bus
(70_reset_and_hazards R136); the surroundings are not the block's (log 23). -/
def powerOnReset (s : State) : State := { State.powerOn s.params with env := s.env }

end Sys2Proof.Machine
end

