-- ==== Sys2Proof/Machine/Shift.lean ====
section
/-! DEFINITION. The Shift Engine: the micro-phases of SEND and READ (40_shift_engine R71 to R79).
`phase` names the micro-phase performed next; the first step of a primitive finds it at `idle` and
does its start together with its first phase (log 8). -/
namespace Sys2Proof.Machine

/-- `TX_L`: `SCLK <- 0; MOSI <- 0` (40_shift_engine R73). -/
def phaseTxL (e : ShiftEngine) : ShiftEngine := { e with sclk := false, mosi := false, phase := .txA }

/-- `TX_A`: `MOSI <- TX_SR[BITCNT]` (40_shift_engine R73). -/
def phaseTxA (e : ShiftEngine) : ShiftEngine :=
  { e with mosi := e.txSr.getLsbD e.bitCnt.val, phase := .txH }

/-- `TX_H`: `SCLK <- 1`, then the settle delay after bit 0 or the next bit (40_shift_engine R73). -/
def phaseTxH (tSettle : Nat) (e : ShiftEngine) : ShiftEngine :=
  if e.bitCnt.val = 0 then { e with sclk := true, setCnt := tSettle, phase := .settle }
  else { e with sclk := true, bitCnt := e.bitCnt - 1, phase := .txL }

/-- `SETTLE`: one settle step; at 0 the SEND is complete (40_shift_engine R73). -/
def phaseSettle (e : ShiftEngine) : ShiftEngine :=
  { e with setCnt := e.setCnt - 1, phase := if e.setCnt - 1 = 0 then .idle else .settle }

/-- `RX_L`: `SCLK <- 0`, MOSI unchanged (40_shift_engine R76, D3). -/
def phaseRxL (e : ShiftEngine) : ShiftEngine := { e with sclk := false, phase := .rxH }

/-- `RX_H`: `SCLK <- 1` (40_shift_engine R76). -/
def phaseRxH (e : ShiftEngine) : ShiftEngine := { e with sclk := true, phase := .rxP }

/-- `RXj <- RXj[6:0] ++ MISOj` (40_shift_engine R76). -/
def shiftIn (r : Byte) (b : Bool) : Byte := r.extractLsb' 0 7 ++ BitVec.ofBool b

/-- `RX_P`: both lines sampled in one step; after bit 0 the READ is complete (40_shift_engine R76, R78). -/
def phaseRxP (m : Bool × Bool) (e : ShiftEngine) : ShiftEngine :=
  if e.bitCnt.val = 0 then
    { e with rx0 := shiftIn e.rx0 m.1, rx1 := shiftIn e.rx1 m.2, phase := .idle }
  else
    { e with rx0 := shiftIn e.rx0 m.1, rx1 := shiftIn e.rx1 m.2, bitCnt := e.bitCnt - 1, phase := .rxL }

/-- SEND's start: `TX_SR <- v; BITCNT <- 7`, "part of the first TX_L step" (40_shift_engine R73). -/
def startSend (v : Byte) (e : ShiftEngine) : ShiftEngine := phaseTxL { e with txSr := v, bitCnt := 7 }

/-- READ's start: `RX0 <- 0; RX1 <- 0; BITCNT <- 7`, "part of the first RX_L step" (40_shift_engine R76). -/
def startRead (e : ShiftEngine) : ShiftEngine := phaseRxL { e with rx0 := 0, rx1 := 0, bitCnt := 7 }

/-- One micro-phase: the one `phase` names, or the given start when the engine is idle. Only `RX_P`
samples the MISO lines. -/
def microPhase (start : ShiftEngine → ShiftEngine) (s : State) : State :=
  match s.se.phase with
  | .idle => { s with se := start s.se }
  | .txL => { s with se := phaseTxL s.se }
  | .txA => { s with se := phaseTxA s.se }
  | .txH => { s with se := phaseTxH s.params.tSettle s.se }
  | .settle => { s with se := phaseSettle s.se }
  | .rxL => { s with se := phaseRxL s.se }
  | .rxH => { s with se := phaseRxH s.se }
  | .rxP => { s with se := phaseRxP (misoNow s.env) s.se, env := misoTaken s.env }

/-- One micro-phase of `SendByte(v)`. -/
def sendPhase (v : Byte) (s : State) : State := microPhase (startSend v) s

/-- One micro-phase of `ReadByte()`. -/
def readPhase (s : State) : State := microPhase startRead s

/-- The primitive just performed a micro-phase and is complete: the engine is idle again. -/
def primitiveDone (s : State) : Bool := decide (s.se.phase = .idle)

/-- `SEND` (40_shift_engine R73): its next micro-phase. -/
def execSend (v : Byte) (s : State) : Host.Outcome State Fault Refusal := .next (sendPhase v s)

/-- `READ` (40_shift_engine R76): its next micro-phase. -/
def execRead (s : State) : Host.Outcome State Fault Refusal := .next (readPhase s)

end Sys2Proof.Machine
end

