-- ==== Sys2Proof/Machine/Commands.lean ====
section
/-! DEFINITION. The Command Dispatcher: acceptance, emission and the five routines
(41_dispatcher R82 to R92). Each meaning performs ONE step of the CD/SE agent. -/
namespace Sys2Proof.Machine

/-- Acceptance: `CMD <- CMD_BYTE; CMD_FULL <- 0; CD_ST <- BUSY; PTO <- 0; STEP <- first label`
(41_dispatcher R82). -/
def acceptCommand (first : Label) (s : State) : State :=
  { s with cd := { s.cd with cmd := s.tp.cmdByte, status := .busy, pto := false, label := first },
           tp := { s.tp with cmdFull := false } }

/-- One step of the routine of command byte c. From IDLE the CD takes c from the command mailbox, or
stalls while c is not there; BUSY with c, it performs the routine's next line; BUSY with another
command it "takes no command" (41_dispatcher R82). A stall leaves the state as it is (logs 6, 7). -/
def runCommand (c : Byte) (first : Label) (line : State → State) (s : State) : State :=
  match s.cd.status with
  | .idle => if s.tp.cmdFull = true ∧ s.tp.cmdByte = c then acceptCommand first s else s
  | .busy => if s.cd.cmd = c then line s else s

/-- A line `SendByte(v)`: one micro-phase, and what follows the line in the step that completes it. -/
def sendLine (v : Byte) (after : State → State) (s : State) : State :=
  if primitiveDone (sendPhase v s) then after (sendPhase v s) else sendPhase v s

/-- A line that calls `ReadByte()`: one micro-phase, and what follows in the step that completes it. -/
def readLine (after : State → State) (s : State) : State :=
  if primitiveDone (readPhase s) then after (readPhase s) else readPhase s

/-- `Emit(b_0, ..., b_{n-1})`: "stall until RSP_VALID = 0", then the packet is placed in one step
(41_dispatcher R83). -/
def emitLine (bs : List Byte) (after : State → State) (s : State) : State :=
  if s.tp.rspValid then s else after (placePacket bs s)

/-- `RB <- f(RB, RX0, RX1)`: the bytes a READ returned go into the assembly buffer. -/
def keepPair (f : Bytes7 → Byte → Byte → Bytes7) (s : State) : State :=
  { s with cd := { s.cd with rb := f s.cd.rb s.se.rx0 s.se.rx1 } }

/-- The pair packet `[RB[0], RB[1]]` (30_encoding R60). -/
def pairPacket (d : Bytes7) : List Byte := [d.b0, d.b1]

/-! ### Write commands (41_dispatcher R85, R86) -/

/-- The lines W0, W1 of `CMD_CHIP_RESET`. -/
def chipResetLine (s : State) : State :=
  match s.cd.label with
  | .w0 => sendLine (writeAddress regChipReset) (goto .w1) s
  | .w1 => sendLine s.params.resetPayload endRoutine s
  | _ => s

/-- The lines N0, N1 of `CMD_NAV_CTRL2`. -/
def navCtrl2Line (s : State) : State :=
  match s.cd.label with
  | .n0 => sendLine (writeAddress regNavCtrl2) (goto .n1) s
  | .n1 => sendLine s.params.navCtrl2Payload endRoutine s
  | _ => s

/-! ### Pixel grab (41_dispatcher R87 to R90) -/

/-- `P2`: done at 361 pairs, else the poll count is cleared and the poll begins; part of the step that
completes P1 or P7. -/
def pixelNext (s : State) : State :=
  if s.cd.pixK = 361 then endRoutine s
  else { s with cd := { s.cd with pollCnt := 0, label := .p3 } }

/-- `PIX_K <- k`. -/
def setPixK (k : Nat) (s : State) : State := { s with cd := { s.cd with pixK := k } }

/-- The pair is usable: both valid bits of the same READ are set; they are cleared in the copy to emit. -/
def pixelKeep (s : State) : State :=
  goto .p7 (keepPair (fun d r0 r1 => { d with b0 := clearValid r0, b1 := clearValid r1 }) s)

/-- The pair is discarded. With a finite limit the poll is counted, and at the limit the routine ends
with `PTO <- 1` (41_dispatcher R90); else the pixel is polled again. -/
def pixelDiscard (s : State) : State :=
  match s.params.pixPollLimit with
  | none => goto .p3 s
  | some limit =>
    if s.cd.pollCnt + 1 = limit then
      { s with cd := { s.cd with pollCnt := s.cd.pollCnt + 1, pto := true, status := .idle, label := .p3 } }
    else { s with cd := { s.cd with pollCnt := s.cd.pollCnt + 1, label := .p3 } }

/-- `P5`: the test of the two pixel-valid bits. -/
def pixelTest (s : State) : State :=
  if pixelValid s.se.rx0 && pixelValid s.se.rx1 then pixelKeep s else pixelDiscard s

/-- The lines P0 to P7 of `CMD_PIXEL_GRAB`. -/
def pixelGrabLine (s : State) : State :=
  match s.cd.label with
  | .p0 => sendLine (writeAddress regPixelGrab) (goto .p1) s
  | .p1 => sendLine 0x00#8 (fun t => pixelNext (setPixK 0 t)) s
  | .p3 => sendLine (readAddress regPixelGrab) (goto .p4) s
  | .p4 => readLine (goto .p5) s
  | .p5 => pixelTest s
  | .p7 => emitLine (pairPacket s.cd.rb) (fun t => pixelNext (setPixK (t.cd.pixK + 1) t)) s
  | _ => s

/-! ### Motion query (41_dispatcher R91) -/

/-- `M8`: `RB[6] <- AUX_IN`. -/
def sampleAux (s : State) : State :=
  { s with cd := { s.cd with rb := { s.cd.rb with b6 := auxNow s.env } }, env := auxTaken s.env }

/-- The lines M0 to M9 of `CMD_MOTION`. -/
def motionLine (s : State) : State :=
  match s.cd.label with
  | .m0 => sendLine (readAddress regMotionStatus) (goto .m1) s
  | .m1 => readLine (goto .m2) s
  | .m2 => sendLine (readAddress regDeltaX) (goto .m3) s
  | .m3 => readLine (fun t => goto .m4 (keepPair (fun d r0 r1 => { d with b0 := r0, b1 := r1 }) t)) s
  | .m4 => sendLine (readAddress regDeltaY) (goto .m5) s
  | .m5 => readLine (fun t => goto .m6 (keepPair (fun d r0 r1 => { d with b2 := r0, b3 := r1 }) t)) s
  | .m6 => sendLine (readAddress regSurfaceQuality) (goto .m7) s
  | .m7 => readLine (fun t => goto .m8 (keepPair (fun d r0 r1 => { d with b4 := r0, b5 := r1 }) t)) s
  | .m8 => goto .m9 (sampleAux s)
  | .m9 => emitLine s.cd.rb.toList endRoutine s
  | _ => s

/-! ### Generic register read (41_dispatcher R92) -/

/-- The lines G0 to G2 of `CMD_REG_READ` with command byte c. -/
def regReadLine (c : Byte) (s : State) : State :=
  match s.cd.label with
  | .g0 => sendLine c (goto .g1) s
  | .g1 => readLine (fun t => goto .g2 (keepPair (fun d r0 r1 => { d with b0 := r0, b1 := r1 }) t)) s
  | .g2 => emitLine (pairPacket s.cd.rb) endRoutine s
  | _ => s

/-! ### The meanings -/

/-- `CMD_CHIP_RESET`, 0xBA (41_dispatcher R85). -/
def execCmdChipReset (s : State) : Host.Outcome State Fault Refusal :=
  .next (runCommand 0xBA#8 .w0 chipResetLine s)

/-- `CMD_NAV_CTRL2`, 0xA2 (41_dispatcher R86). -/
def execCmdNavCtrl2 (s : State) : Host.Outcome State Fault Refusal :=
  .next (runCommand 0xA2#8 .n0 navCtrl2Line s)

/-- `CMD_PIXEL_GRAB`, 0x0B (41_dispatcher R87). -/
def execCmdPixelGrab (s : State) : Host.Outcome State Fault Refusal :=
  .next (runCommand 0x0B#8 .p0 pixelGrabLine s)

/-- `CMD_MOTION`, 0x02 (41_dispatcher R91). -/
def execCmdMotion (s : State) : Host.Outcome State Fault Refusal :=
  .next (runCommand 0x02#8 .m0 motionLine s)

/-- `CMD_REG_READ`, any other byte c (41_dispatcher R92). -/
def execCmdRegRead (c : Byte) (s : State) : Host.Outcome State Fault Refusal :=
  .next (runCommand c .g0 (regReadLine c) s)

/-- `EMIT` (41_dispatcher R83): a wait while the response mailbox is full, else the packet. -/
def execEmit (bs : List Byte) (s : State) : Host.Outcome State Fault Refusal :=
  .next (emitLine bs id s)

end Sys2Proof.Machine
end

