-- ==== Sys2Proof/Machine/Decoder.lean ====
section
/-! DEFINITION. The Motion/Frame Decoder and the buffer operations (43_decoder R104 to R110), and the
reserved operation codes (60_exceptions R124). Each is one atomic OA step (20_memory R45). -/
namespace Sys2Proof.Machine

/-- The accumulated motion buffer after one motion packet (43_decoder R104). -/
def decodeMotionInto (b0 b1 b2 b3 b4 b5 : Byte) (o : Odometry) : Odometry :=
  { o with
    absX := ⟨accAdd o.absX.s0 (s8 b0), accAdd o.absX.s1 (s8 b1)⟩
    absY := ⟨accAdd o.absY.s0 (s8 b2), accAdd o.absY.s1 (s8 b3)⟩
    lastDx := ⟨wrapAcc (s8 b0), wrapAcc (s8 b1)⟩
    lastDy := ⟨wrapAcc (s8 b2), wrapAcc (s8 b3)⟩
    quality := ⟨wrapAcc (u8 b4), wrapAcc (u8 b5)⟩ }

/-- `DECODE_MOTION` (43_decoder R104); b6, the auxiliary status byte, is not used. -/
def execDecodeMotion (b0 b1 b2 b3 b4 b5 _b6 : Byte) (s : State) : Host.Outcome State Fault Refusal :=
  .next { s with oa := decodeMotionInto b0 b1 b2 b3 b4 b5 s.oa }

/-- `PIX_IDX <- (PIX_IDX + 1) mod 361` (43_decoder R106). -/
def nextPixIdx (i : Fin 361) : Fin 361 := i + 1

/-- The frames after one pixel pair (43_decoder R106). -/
def storePairInto (p0 p1 : Byte) (o : Odometry) : Odometry :=
  { o with
    frame0 := memWrite o.frame0 o.pixIdx.val p0
    frame1 := memWrite o.frame1 o.pixIdx.val p1
    pixIdx := nextPixIdx o.pixIdx }

/-- `STORE_PIXEL_PAIR` (43_decoder R106). -/
def execStorePixelPair (p0 p1 : Byte) (s : State) : Host.Outcome State Fault Refusal :=
  .next { s with oa := storePairInto p0 p1 s.oa }

/-- `SET_MODE` (43_decoder R108). -/
def execSetMode (m : Mode) (s : State) : Host.Outcome State Fault Refusal :=
  .next { s with oa := { s.oa with mode := m } }

/-- The session reset of the buffer and the write index (43_decoder R109). -/
def sessionResetInto (o : Odometry) : Odometry :=
  { o with absX := ⟨0, 0⟩, absY := ⟨0, 0⟩, lastDx := ⟨0, 0⟩, lastDy := ⟨0, 0⟩, quality := ⟨0, 0⟩,
           pixIdx := 0 }

/-- `SESSION_RESET` (43_decoder R109). -/
def execSessionReset (s : State) : Host.Outcome State Fault Refusal :=
  .next { s with oa := sessionResetInto s.oa }

/-- `SET_BTN` (43_decoder R110). -/
def execSetBtn (b : Bool) (s : State) : Host.Outcome State Fault Refusal :=
  .next { s with oa := { s.oa with btnRel := b } }

/-- `OP = 0x7` raises `ILLEGAL_OP` and does nothing else (60_exceptions R124). -/
def execReservedOa7 (s : State) : Host.Outcome State Fault Refusal :=
  .next (raiseOaError .illegalOp s)

/-- `OP = 0x8` to `0xF` raises `ILLEGAL_OP` and does nothing else (60_exceptions R124). -/
def execReservedOa8F (_low : BitVec 3) (s : State) : Host.Outcome State Fault Refusal :=
  .next (raiseOaError .illegalOp s)

end Sys2Proof.Machine
end

