-- ==== Sys2Proof/Machine/Float64.lean ====
section
/-! DEFINITION. IEEE 754 binary64 on bit patterns, computed exactly over Nat and Int and rounded once,
to nearest, ties to even (00_scope R10, R15); `roundHalfAway` (R16). -/
namespace Sys2Proof.Machine

/-- The sign bit. -/
def fNeg (x : F64) : Bool := x.getLsbD 63

/-- The biased exponent field. -/
def fExpField (x : F64) : Nat := (x.extractLsb' 52 11).toNat

/-- The fraction field. -/
def fFracField (x : F64) : Nat := (x.extractLsb' 0 52).toNat

/-- The magnitude field, bits 62:0. -/
def fMagField (x : F64) : Nat := (x.extractLsb' 0 63).toNat

/-- Neither an infinity nor a NaN. -/
def fIsFinite (x : F64) : Bool := decide (fExpField x < 2047)

/-- An infinity. -/
def fIsInf (x : F64) : Bool := decide (fExpField x = 2047 ∧ fFracField x = 0)

/-- A NaN. -/
def fIsNaN (x : F64) : Bool := decide (fExpField x = 2047 ∧ fFracField x ≠ 0)

/-- +0.0 or -0.0. -/
def fIsZero (x : F64) : Bool := decide (fMagField x = 0)

/-- The significand of a finite value as an integer: its magnitude is `fMant x * 2^(fScale x - 1075)`. -/
def fMant (x : F64) : Nat := if fExpField x = 0 then fFracField x else 2 ^ 52 + fFracField x

/-- The exponent of a finite value, raised by 1075. -/
def fScale (x : F64) : Nat := if fExpField x = 0 then 1 else fExpField x

/-- A pattern from its sign and its 63-bit magnitude field. -/
def fPattern (neg : Bool) (mag : Nat) : F64 := BitVec.ofBool neg ++ BitVec.ofNat 63 mag

/-- The magnitude field of infinity. -/
def fInfMag : Nat := 0x7FF * 2 ^ 52

/-- A signed infinity. -/
def fInf (neg : Bool) : F64 := fPattern neg fInfMag

/-- A signed zero. -/
def fZero (neg : Bool) : F64 := fPattern neg 0

/-- The NaN the operations answer; which NaN is not observable (log 11). -/
def fNaN : F64 := 0x7FF8000000000000#64

/-- `num / den` rounded to the nearest integer, ties to even. -/
def divNearestEven (num den : Nat) : Nat :=
  let q := num / den
  let r := num % den
  if den < 2 * r ∨ (2 * r = den ∧ q % 2 = 1) then q + 1 else q

/-- The exponent of the leading bit of `num / den`, both positive. -/
def quotLog2 (num den : Nat) : Int :=
  let d : Int := (num.log2 : Int) - (den.log2 : Int)
  let reaches : Bool := if 0 ≤ d then den <<< d.toNat ≤ num else den ≤ num <<< (-d).toNat
  if reaches then d else d - 1

/-- The magnitude field of the exact positive value `num / den * 2^k`, rounded to nearest, ties to
even. The unit in the last place is 2^(E-52) for a value whose leading bit has the exponent E, and
never below 2^(-1074). A significand that rounds up to 2^53 carries into the exponent field. -/
def roundMag (num den : Nat) (k : Int) : Nat :=
  let e : Int := max (quotLog2 num den + k) (-1022)
  let sh : Int := e - 52 - k
  let m := if 0 ≤ sh then divNearestEven num (den <<< sh.toNat)
           else divNearestEven (num <<< (-sh).toNat) den
  let mag := (e + 1022).toNat * 2 ^ 52 + m
  if fInfMag ≤ mag then fInfMag else mag

/-- The rounded pattern of the exact value `±num / den * 2^k`; zero keeps the sign. -/
def fRound (neg : Bool) (num den : Nat) (k : Int) : F64 :=
  if num = 0 then fZero neg else fPattern neg (roundMag num den k)

/-- The significand of a finite value with its sign. -/
def fSignedMant (x : F64) : Int := if fNeg x then -(fMant x : Int) else (fMant x : Int)

/-- `a (+) b` (00_scope R15). An exact sum of zero is +0.0 unless both operands are negative. -/
def fAdd (a b : F64) : F64 :=
  if fIsNaN a || fIsNaN b then fNaN
  else if fIsInf a then (if fIsInf b && fNeg a != fNeg b then fNaN else a)
  else if fIsInf b then b
  else
    let low := min (fScale a) (fScale b)
    let z : Int := fSignedMant a * 2 ^ (fScale a - low) + fSignedMant b * 2 ^ (fScale b - low)
    if z = 0 then fZero (fNeg a && fNeg b)
    else fRound (decide (z < 0)) z.natAbs 1 ((low : Int) - 1075)

/-- The pattern with the other sign. -/
def fNegate (x : F64) : F64 := x ^^^ 0x8000000000000000#64

/-- `a (-) b` (00_scope R15). -/
def fSub (a b : F64) : F64 := fAdd a (fNegate b)

/-- `a (*) b` (00_scope R15). -/
def fMul (a b : F64) : F64 :=
  let neg := fNeg a != fNeg b
  if fIsNaN a || fIsNaN b then fNaN
  else if fIsInf a || fIsInf b then (if fIsZero a || fIsZero b then fNaN else fInf neg)
  else fRound neg (fMant a * fMant b) 1 ((fScale a : Int) + (fScale b : Int) - 2150)

/-- `a (/) b` (00_scope R15). -/
def fDiv (a b : F64) : F64 :=
  let neg := fNeg a != fNeg b
  if fIsNaN a || fIsNaN b then fNaN
  else if fIsInf a then (if fIsInf b then fNaN else fInf neg)
  else if fIsInf b then fZero neg
  else if fIsZero b then (if fIsZero a then fNaN else fInf neg)
  else fRound neg (fMant a) (fMant b) ((fScale a : Int) - (fScale b : Int))

/-- The integer square root, one bit of the root at a time: the greatest number with the bits of r
above bit `i` whose square is at most n. -/
def isqrtBits : Nat → Nat → Nat → Nat
  | 0, _, r => r
  | i + 1, n, r => if (r + 2 ^ i) * (r + 2 ^ i) ≤ n then isqrtBits i n (r + 2 ^ i) else isqrtBits i n r

/-- `fsqrt(a)`, the correctly rounded square root (00_scope R15). The significand is widened so that the
integer root has more than 60 bits, and one bit below it says whether the root was exact. -/
def fSqrt (a : F64) : F64 :=
  if fIsNaN a then fNaN
  else if fIsZero a then a
  else if fNeg a then fNaN
  else if fIsInf a then a
  else
    let odd := (fScale a + 1) % 2
    let n := (fMant a * 2 ^ odd) <<< 120
    let r := isqrtBits 90 n 0
    let inexact := if r * r = n then 0 else 1
    fRound false (2 * r + inexact) 1 (((fScale a : Int) - 1075 - (odd : Int)) / 2 - 61)

/-- `toF(z)` (00_scope R15). -/
def fOfInt (z : Int) : F64 := fRound (decide (z < 0)) z.natAbs 1 0

/-- The order of the values on patterns: signed magnitude, both zeros equal. -/
def fOrder (x : F64) : Int := if fNeg x then -(fMagField x : Int) else (fMagField x : Int)

/-- The IEEE comparison `a < b`; a NaN compares false. -/
def fLt (a b : F64) : Bool := !fIsNaN a && !fIsNaN b && decide (fOrder a < fOrder b)

/-- The IEEE comparison `a >= b`; a NaN compares false. -/
def fGe (a b : F64) : Bool := !fIsNaN a && !fIsNaN b && decide (fOrder b ≤ fOrder a)

/-- `roundHalfAway(a)` of a finite value: the nearest integer, a tie away from zero (00_scope R16, D27). -/
def fRoundHalfAway (a : F64) : Int :=
  let m := if 1075 ≤ fScale a then fMant a * 2 ^ (fScale a - 1075)
           else (fMant a + 2 ^ (1074 - fScale a)) / 2 ^ (1075 - fScale a)
  if fNeg a then -(m : Int) else (m : Int)

/-- `PI`, `0x1.921fb54442d18p+1` (00_scope R15). -/
def fPi : F64 := 0x400921FB54442D18#64

/-- `TWO_PI`, `0x1.921fb54442d18p+2` (00_scope R15). -/
def fTwoPi : F64 := 0x401921FB54442D18#64

/-- 2.0. -/
def fTwo : F64 := 0x4000000000000000#64

end Sys2Proof.Machine
end

