-- ==== Sys2Proof/Machine/Tick.lean ====
section
/-! DEFINITION. The odometry integrator: `SET_CAL` (44_odometry R111), `TICK` with its checks in order
(R112, 60_exceptions R127), the single-step heading wrap (R113) and the history push (R114). -/
namespace Sys2Proof.Machine

/-- `SET_CAL`: the three patterns are stored unchanged (44_odometry R111). -/
def execSetCal (c0 c1 circ : F64) (s : State) : Host.Outcome State Fault Refusal :=
  .next { s with oa := { s.oa with cal0 := c0, cal1 := c1, circ := circ } }

/-- `wrap1(h)` (44_odometry R113). -/
def wrapHeading (h : F64) : F64 :=
  if fGe h fTwoPi then fSub h fTwoPi
  else if fLt h (fZero false) then fAdd h fTwoPi
  else h

/-- `toF(d) (/) cal`: the part of a ball turn that d counts make (44_odometry R112). -/
def ballTurns (d : Acc) (cal : F64) : F64 := fDiv (fOfInt d.toInt) cal

/-- `dist <- CIRC (*) fsqrt((rollY0 (*) rollY0) (+) (rollY1 (*) rollY1))` (44_odometry R112). -/
def tickDistance (o : Odometry) : F64 :=
  let rollY0 := ballTurns o.lastDy.s0 o.cal0
  let rollY1 := ballTurns o.lastDy.s1 o.cal1
  fMul o.circ (fSqrt (fAdd (fMul rollY0 rollY0) (fMul rollY1 rollY1)))

/-- `dH <- PI (*) (rot0 (+) rot1)` (44_odometry R112). -/
def tickTurn (o : Odometry) : F64 :=
  fMul fPi (fAdd (ballTurns o.lastDx.s0 o.cal0) (ballTurns o.lastDx.s1 o.cal1))

/-- `x' <- POS_X (+) (dist (*) FCOS(HEADING))`, with the heading from before the tick (44_odometry R112). -/
def tickX (p : Params) (o : Odometry) : F64 := fAdd o.posX (fMul (tickDistance o) (fcosOf p o.heading))

/-- `y' <- POS_Y (+) (dist (*) FSIN(HEADING))` (44_odometry R112). -/
def tickY (p : Params) (o : Odometry) : F64 := fAdd o.posY (fMul (tickDistance o) (fsinOf p o.heading))

/-- `h' <- wrap1(HEADING (+) dH)` (44_odometry R112). -/
def tickHeading (o : Odometry) : F64 := wrapHeading (fAdd o.heading (tickTurn o))

/-- The calibration is usable: `CAL0` and `CAL1` finite and nonzero, `CIRC` finite (44_odometry R112). -/
def calUsable (o : Odometry) : Bool :=
  fIsFinite o.cal0 && !fIsZero o.cal0 && fIsFinite o.cal1 && !fIsZero o.cal1 && fIsFinite o.circ

/-- `x (*) 2` rounded half away from zero, when the product is finite and the integer fits `HIST_W`
bits; else the tick raises `RANGE` (44_odometry R112). -/
def histCoord (x : F64) : Option Coord :=
  let d := fMul x fTwo
  if fIsFinite d then
    let z := fRoundHalfAway d
    if -(2 ^ 31) ≤ z ∧ z < 2 ^ 31 then some (BitVec.ofInt 32 z) else none
  else none

/-- The commit: position, heading and history all together (44_odometry R112, R114). -/
def commitTick (x y h : F64) (e : Coord × Coord) (o : Odometry) : Odometry :=
  { o with posX := x, posY := y, heading := h, hist := histPush o.hist e }

/-- One free-ball integration step, the first failing check winning (44_odometry R112,
60_exceptions R127). -/
def freeBallTick (s : State) : State :=
  if calUsable s.oa then
    let x := tickX s.params s.oa
    let y := tickY s.params s.oa
    let h := tickHeading s.oa
    if fIsFinite x && fIsFinite y && fIsFinite h then
      match histCoord x, histCoord y with
      | some hx, some hy => { s with oa := commitTick x y h (hx, hy) s.oa }
      | _, _ => raiseOaError .range s
    else raiseOaError .nonfinite s
  else raiseOaError .badCal s

/-- `TICK`: nothing in per-sensor mode, one integration step in free-ball mode (44_odometry R112). -/
def execTick (s : State) : Host.Outcome State Fault Refusal :=
  match s.oa.mode with
  | .perSensor => .next s
  | .freeBall => .next (freeBallTick s)

end Sys2Proof.Machine
end

