-- ==== Sys2Proof/Machine/Transport.lean ====
section
/-! DEFINITION. The three host operations of the transport port (42_transport R94 to R96). What an
operation returns to the host stands in `env.reply` (log 15). -/
namespace Sys2Proof.Machine

/-- The byte goes into the command mailbox (42_transport R94). -/
def postCommand (c : Byte) (s : State) : State :=
  { s with tp := { s.tp with cmdByte := c, cmdFull := true } }

/-- The response mailbox is emptied (42_transport R95). -/
def takePacket (s : State) : State := { s with tp := { s.tp with rspValid := false } }

/-- `HOST_WRITE(bytes)` (42_transport R94): one byte into a free mailbox is ok; any other write fails
with no state change. -/
def execHostWrite (bytes : List Byte) (s : State) : Host.Outcome State Fault Refusal :=
  match bytes with
  | [c] => .next (if s.tp.cmdFull then answerHost .fail s else answerHost .ok (postCommand c s))
  | _ => .next (answerHost .fail s)

/-- `HOST_READ(maxLen)` (42_transport R95): `[]` when no packet waits, fail when it is longer than
maxLen, else the whole packet. -/
def execHostRead (maxLen : Nat) (s : State) : Host.Outcome State Fault Refusal :=
  .next (if s.tp.rspValid = false then answerHost (.bytes []) s
    else if maxLen < s.tp.rspLen then answerHost .fail s
    else answerHost (.bytes (packetBytes s.tp)) (takePacket s))

/-- `HOST_STATUS()` (42_transport R96). -/
def execHostStatus (s : State) : Host.Outcome State Fault Refusal :=
  .next (answerHost (.status (tstat s)) s)

end Sys2Proof.Machine
end

