-- ==== Sys2Proof/Machine/Dispatch.lean ====
section
/-! DEFINITION. One arm per constructor of `Instr`, each a direct call of that operation's meaning. -/
namespace Sys2Proof.Machine

/-- One operation performed on a state. -/
def exec (i : Instr) (s : State) : Host.Outcome State Fault Refusal :=
  match i with
  | .cmdChipReset => Sys2Proof.Machine.execCmdChipReset s
  | .cmdNavCtrl2 => Sys2Proof.Machine.execCmdNavCtrl2 s
  | .cmdPixelGrab => Sys2Proof.Machine.execCmdPixelGrab s
  | .cmdMotion => Sys2Proof.Machine.execCmdMotion s
  | .cmdRegRead c => Sys2Proof.Machine.execCmdRegRead c s
  | .decodeMotion b0 b1 b2 b3 b4 b5 b6 => Sys2Proof.Machine.execDecodeMotion b0 b1 b2 b3 b4 b5 b6 s
  | .storePixelPair p0 p1 => Sys2Proof.Machine.execStorePixelPair p0 p1 s
  | .tick => Sys2Proof.Machine.execTick s
  | .setMode m => Sys2Proof.Machine.execSetMode m s
  | .setCal c0 c1 circ => Sys2Proof.Machine.execSetCal c0 c1 circ s
  | .sessionReset => Sys2Proof.Machine.execSessionReset s
  | .setBtn b => Sys2Proof.Machine.execSetBtn b s
  | .reservedOa7 => Sys2Proof.Machine.execReservedOa7 s
  | .reservedOa8F low => Sys2Proof.Machine.execReservedOa8F low s
  | .send v => Sys2Proof.Machine.execSend v s
  | .read => Sys2Proof.Machine.execRead s
  | .emit bs => Sys2Proof.Machine.execEmit bs s
  | .hostWrite bytes => Sys2Proof.Machine.execHostWrite bytes s
  | .hostRead maxLen => Sys2Proof.Machine.execHostRead maxLen s
  | .hostStatus => Sys2Proof.Machine.execHostStatus s

end Sys2Proof.Machine
end

