-- ==== Sys2Proof/Machine/Fetch.lean ====
section
/-! DEFINITION. Who moves next and which operation it performs: the turns of the agenda
(60_exceptions R127; log 5), and the CD's own choice of routine (41_dispatcher R82). -/
namespace Sys2Proof.Machine

/-- What the next turn performs: one operation on a state, or none. -/
inductive Fetched where
  /-- no operation of the block is performed; the state after the turn -/
  | quiet (s : State)
  /-- the operation and the state it is performed on -/
  | run (i : Instr) (s : State)
deriving DecidableEq, Repr

/-- The operation of the CD/SE agent: the routine of `CMD` while BUSY, the routine of the byte in the
command mailbox while IDLE, none when the mailbox is empty (41_dispatcher R82). -/
def cdOperation (s : State) : Option Instr :=
  match s.cd.status with
  | .busy => some (decodeCommand s.cd.cmd)
  | .idle => if s.tp.cmdFull then some (decodeCommand s.tp.cmdByte) else none

/-- A turn of the CD/SE agent; a stall takes no effect (00_scope R13, log 6). -/
def cdTurn (s : State) : Fetched :=
  match cdOperation s with
  | some i => .run i s
  | none => .quiet s

/-- The agenda without its first turn. -/
def dropTurn (s : State) : State := { s with env := { s.env with agenda := s.env.agenda.tail } }

/-- The number of packets command byte c is answered with, and the bytes of each (42_transport R97). -/
def responseShape (c : Byte) : Nat × Nat :=
  match decodeCommand c with
  | .cmdChipReset => (0, 0)
  | .cmdNavCtrl2 => (0, 0)
  | .cmdPixelGrab => (361, 2)
  | .cmdMotion => (1, 7)
  | _ => (1, 2)

/-- The host's query now stands at q. -/
def noteQuery (q : Query) (s : State) : State := { s with env := { s.env with query := q } }

/-- A query with packets still to be read. -/
def queryIsRunning : Query → Bool
  | .none => false
  | .running _ _ => true
  | .returned _ => false
  | .transportFault => false
  | .timedOut => false
  | .notBegun => false

/-- What `query` requires: "no packet of an earlier query is still unread" (42_transport R98, R99). -/
def mayQuery (s : State) : Bool := !s.tp.rspValid && !queryIsRunning s.env.query

/-- The query with `left` packets still to be read: it returns the concatenation once none is left
(42_transport R98). -/
def queryWaits (left : Nat) (got : List Byte) : Query :=
  if left = 0 then .returned got else .running left got

/-- `query(c)` begins with its write: "must return ok, else transport fault" (42_transport R98). -/
def queryStartTurn (c : Byte) (s : State) : Fetched :=
  if mayQuery s then
    .run (.hostWrite [c])
      (noteQuery (if s.tp.cmdFull then .transportFault else queryWaits (responseShape c).1 []) (dropTurn s))
  else .quiet (noteQuery .notBegun (dropTurn s))

/-- The query waits for its next packet and reads it; a query that has ended issues nothing more
(42_transport R98, 60_exceptions R121). -/
def queryReadTurn (n : Nat) (s : State) : Fetched :=
  match s.env.query with
  | .running left got =>
    if s.tp.rspValid then
      .run (.hostRead n)
        (noteQuery (if n < s.tp.rspLen then .transportFault
          else queryWaits (left - 1) (got ++ packetBytes s.tp)) (dropTurn s))
    else cdTurn s
  | _ => .quiet (dropTurn s)

/-- The host gives its query up (42_transport R101); the block is not told. -/
def queryTimeoutTurn (s : State) : Fetched :=
  if queryIsRunning s.env.query then .quiet (noteQuery .timedOut (dropTurn s)) else .quiet (dropTurn s)

/-- The operation i on the bytes that the query returned; none after a query that returned no bytes for it:
"no partial decode is applied" (42_transport R102). -/
def issueFrom (i : Option Instr) (s : State) : Fetched :=
  match i with
  | some i => .run i (dropTurn s)
  | none => .quiet (dropTurn s)

/-- `DECODE_MOTION` of a whole motion packet. -/
def motionOf : Query → Option Instr
  | .returned [b0, b1, b2, b3, b4, b5, b6] => some (.decodeMotion b0 b1 b2 b3 b4 b5 b6)
  | _ => none

/-- `STORE_PIXEL_PAIR` of pair k of a whole pixel grab. -/
def pairOf (k : Nat) : Query → Option Instr
  | .returned bytes =>
    match bytes[2 * k]?, bytes[2 * k + 1]? with
    | some p0, some p1 => some (.storePixelPair p0 p1)
    | _, _ => none
  | _ => none

/-- The turn `t` at the head of the agenda. While the host waits (`awaitWrite`, `awaitRead`, `queryRead`) the turn
stays and the CD/SE agent moves. The host passes on only whole packets (42_transport R102). -/
def turnOf (t : Turn) (s : State) : Fetched :=
  match t with
  | .cd => cdTurn (dropTurn s)
  | .oa w => .run (decodeOa w) (dropTurn s)
  | .hostWrite bytes => .run (.hostWrite bytes) (dropTurn s)
  | .hostRead maxLen => .run (.hostRead maxLen) (dropTurn s)
  | .hostStatus => .run .hostStatus (dropTurn s)
  | .snapshot => .quiet (takeSnapshot (dropTurn s))
  | .powerOn => .quiet (powerOnReset (dropTurn s))
  | .awaitWrite bytes => if s.tp.cmdFull then cdTurn s else .run (.hostWrite bytes) (dropTurn s)
  | .awaitRead maxLen => if s.tp.rspValid then .run (.hostRead maxLen) (dropTurn s) else cdTurn s
  | .oaDecodeReply =>
    match s.env.reply with
    | .bytes [b0, b1, b2, b3, b4, b5, b6] => .run (.decodeMotion b0 b1 b2 b3 b4 b5 b6) (dropTurn s)
    | _ => .quiet (dropTurn s)
  | .oaStoreReply =>
    match s.env.reply with
    | .bytes [p0, p1] => .run (.storePixelPair p0 p1) (dropTurn s)
    | _ => .quiet (dropTurn s)
  | .queryStart c => queryStartTurn c s
  | .queryRead n => queryReadTurn n s
  | .queryTimeout => queryTimeoutTurn s
  | .oaDecodeQuery => issueFrom (motionOf s.env.query) s
  | .oaStoreQuery k => issueFrom (pairOf k s.env.query) s

/-- What the machine does next: the first turn of the agenda, else a turn of the CD/SE agent. -/
def fetch (s : State) : Fetched :=
  match s.env.agenda with
  | [] => cdTurn s
  | t :: _ => turnOf t s

/-- Where a word of the opcode table stands so that the next step runs it: an OA word is issued on the
operation port; a command byte waits in the mailbox of an IDLE dispatcher whose turn it is (log 14). -/
def placeTableWord (s : State) (nbits w : Nat) : State :=
  if tableWordIsOa nbits w then
    { s with env := { s.env with agenda := .oa (oaWordOfNat w) :: s.env.agenda } }
  else
    { s with cd := { s.cd with status := .idle }
             tp := { s.tp with cmdFull := true, cmdByte := BitVec.ofNat 8 w }
             env := { s.env with agenda := .cd :: s.env.agenda } }

end Sys2Proof.Machine
end

