-- ==== Sys2Proof/Machine/Step.lean ====
section
/-! DEFINITION. One step of the machine: one turn of one agent. -/
namespace Sys2Proof.Machine

/-- One step: the turn `fetch` picks, its operation performed by `exec`. -/
def step (s : State) : Host.Outcome State Fault Refusal :=
  match fetch s with
  | .quiet t => .next t
  | .run i t => exec i t

/-- s with a word of the opcode table placed where the next step fetches it (log 14). -/
def State.withFetchWord (s : State) (nbits w : Nat) : State := placeTableWord s nbits w

end Sys2Proof.Machine
end

