-- ==== Sys2Proof/Machine/Ieee.lean ====
section
/-! DEFINITION. What 00_scope R15 asks of the binary64 operations, said on values: the value of a pattern and
what it is to be a real number rounded to nearest, ties to even. Claims are stated with these; no
operation uses them. -/
namespace Sys2Proof.Machine

/-- The value of a finite pattern: its signed significand times its power of two. -/
def fVal (x : F64) : ℚ := (fSignedMant x : ℚ) * 2 ^ ((fScale x : Int) - 1075)

/-- r is the real number v rounded to nearest, ties to even (00_scope R15): it is no NaN; it has the sign of
v, or `zeroNeg` when v is zero; it is infinite exactly when v is at or beyond the midpoint above the
largest finite value; and else no finite value is nearer, an equally near one leaving r the even one. -/
def IsRounded (v : ℝ) (zeroNeg : Bool) (r : F64) : Prop :=
  fIsNaN r = false ∧ (v < 0 → fNeg r = true) ∧ (0 < v → fNeg r = false) ∧ (v = 0 → fNeg r = zeroNeg) ∧
  (fIsFinite r = false ↔ 2 ^ 1024 - 2 ^ 970 ≤ |v|) ∧
  (fIsFinite r = true → ∀ y : F64, fIsFinite y = true →
    |(fVal r : ℝ) - v| ≤ |(fVal y : ℝ) - v| ∧
    (|(fVal r : ℝ) - v| = |(fVal y : ℝ) - v| → fVal y = fVal r ∨ fFracField r % 2 = 0))

/-- The order of the values with both infinities: a is below b. -/
def ValueBelow (a b : F64) : Prop :=
  (fIsFinite a = true ∧ fIsFinite b = true ∧ fVal a < fVal b) ∨
  (a = fInf true ∧ b ≠ fInf true) ∨ (b = fInf false ∧ a ≠ fInf false)

end Sys2Proof.Machine
end

