-- ==== Sys2Proof/Machine/Observe.lean ====
section
/-! DEFINITION. What can be observed of the block and how claims speak of it: the bus event trace
(40_shift_engine R80), the samples the outside will supply, the numbered registers (10_state R30), the
elements of the memories (20_memory R36, R39), sequences of operations, and steps as cycles. -/
namespace Sys2Proof.Machine

/-! ### The bus (40_shift_engine R80) -/

/-- One bus event. `CHSEL` takes part in none (D4). -/
inductive BusEvent where
  /-- `L`: SCLK falls, MOSI to 0 -/
  | fall
  /-- `A(b)`: MOSI to b -/
  | drive (b : Bool)
  /-- `H`: SCLK rises -/
  | rise
  /-- `S`: one settle step -/
  | settle
  /-- `L'`: SCLK falls, MOSI unchanged -/
  | readFall
  /-- `P(m0, m1)`: a sample of both response lines -/
  | sample (m0 m1 : Bool)
deriving DecidableEq, Repr

/-- What a labelled line of a routine does with the Shift Engine. -/
inductive LineKind where
  | send | read | other
deriving DecidableEq, Repr

/-- The kind of each line of 41_dispatcher. -/
def lineKind : Label → LineKind
  | .w0 => .send | .w1 => .send
  | .n0 => .send | .n1 => .send
  | .p0 => .send | .p1 => .send | .p3 => .send | .p4 => .read | .p5 => .other | .p7 => .other
  | .m0 => .send | .m1 => .read | .m2 => .send | .m3 => .read | .m4 => .send | .m5 => .read
  | .m6 => .send | .m7 => .read | .m8 => .other | .m9 => .other
  | .g0 => .send | .g1 => .read | .g2 => .other

/-- The first label of the routine an operation names. -/
def firstLabel : Instr → Option Label
  | .cmdChipReset => some .w0
  | .cmdNavCtrl2 => some .n0
  | .cmdPixelGrab => some .p0
  | .cmdMotion => some .m0
  | .cmdRegRead _ => some .g0
  | _ => none

/-- The five command rows. -/
def isCommand (i : Instr) : Bool := (firstLabel i).isSome

/-- The labels of the routine of command byte c (41_dispatcher R85 to R92). -/
def labelsOf (c : Byte) : List Label :=
  match firstLabel (decodeCommand c) with
  | some .w0 => [.w0, .w1]
  | some .n0 => [.n0, .n1]
  | some .p0 => [.p0, .p1, .p3, .p4, .p5, .p7]
  | some .m0 => [.m0, .m1, .m2, .m3, .m4, .m5, .m6, .m7, .m8, .m9]
  | some .g0 => [.g0, .g1, .g2]
  | _ => []

/-- The event of the micro-phase the Shift Engine performs next in a line of kind k. -/
def phaseEvent (k : LineKind) (s : State) : Option BusEvent :=
  match s.se.phase with
  | .idle =>
    match k with
    | .send => some .fall
    | .read => some .readFall
    | .other => none
  | .txL => some .fall
  | .txA => some (.drive (s.se.txSr.getLsbD s.se.bitCnt.val))
  | .txH => some .rise
  | .settle => some .settle
  | .rxL => some .readFall
  | .rxH => some .rise
  | .rxP => some (.sample (misoNow s.env).1 (misoNow s.env).2)

/-- The event of the CD/SE agent's next step: one in a line that calls the Shift Engine, none else. -/
def cdEvent (s : State) : Option BusEvent :=
  if s.cd.status = .busy ∧ s.cd.label ∈ labelsOf s.cd.cmd ∧ lineKind s.cd.label ≠ .other then
    phaseEvent (lineKind s.cd.label) s
  else none

/-- The next turn is the CD/SE agent's: its own turn, no turn at all, or a turn in which the host waits. -/
def cdMoves (s : State) : Bool :=
  match s.env.agenda with
  | [] => true
  | .cd :: _ => true
  | .awaitWrite _ :: _ => s.tp.cmdFull
  | .awaitRead _ :: _ => !s.tp.rspValid
  | .queryRead _ :: _ => queryIsRunning s.env.query && !s.tp.rspValid
  | _ => false

/-- The state the CD/SE agent moves from: its own turn is used up, a wait of the host stays. -/
def cdState (s : State) : State :=
  match s.env.agenda with
  | .cd :: _ => dropTurn s
  | _ => s

/-- The event of the machine's next step. -/
def busEvent (s : State) : Option BusEvent :=
  match fetch s with
  | .run i t => if isCommand i then cdEvent t else none
  | .quiet _ => none

/-- The bus event trace of the next n steps. -/
def busTrace : Nat → State → List BusEvent
  | 0, _ => []
  | n + 1, s =>
    match step s with
    | .next t => (busEvent s).toList ++ busTrace n t
    | .fault _ => []
    | .refused _ => []

/-- The trace of n micro-phases of `SendByte(v)`. -/
def sendTrace (v : Byte) : Nat → State → List BusEvent
  | 0, _ => []
  | n + 1, s => (phaseEvent .send s).toList ++ sendTrace v n (sendPhase v s)

/-- The trace of n micro-phases of `ReadByte()`. -/
def readTrace : Nat → State → List BusEvent
  | 0, _ => []
  | n + 1, s => (phaseEvent .read s).toList ++ readTrace n (readPhase s)

/-- The bits of a byte, MSB first: the order on the wire (00_scope R11, 20_memory R40). -/
def wireBits (v : Byte) : List Bool :=
  [v.getLsbD 7, v.getLsbD 6, v.getLsbD 5, v.getLsbD 4, v.getLsbD 3, v.getLsbD 2, v.getLsbD 1, v.getLsbD 0]

/-- The byte whose bits arrive MSB first (20_memory R40). -/
def byteOfWire (bits : List Bool) : Byte := bits.foldl shiftIn 0

/-- The trace of a whole SEND of v with a settle delay of p steps (40_shift_engine R80, V1). -/
def sendEvents (v : Byte) (p : Nat) : List BusEvent :=
  (wireBits v).flatMap (fun b => [.fall, .drive b, .rise]) ++ List.replicate p .settle

/-- The trace of a whole READ that samples the given pairs (40_shift_engine R80, V4). -/
def readEvents (ms : List (Bool × Bool)) : List BusEvent :=
  ms.flatMap fun m => [.readFall, .rise, .sample m.1 m.2]

/-- The level of MOSI at each rising edge of SCLK, from the level `mosi` before the trace: what a sensor
that samples on rising edges sees (40_shift_engine R74). -/
def risingLevels : Bool → List BusEvent → List Bool
  | _, [] => []
  | mosi, .rise :: es => mosi :: risingLevels mosi es
  | _, .fall :: es => risingLevels false es
  | _, .drive b :: es => risingLevels b es
  | mosi, .settle :: es => risingLevels mosi es
  | mosi, .readFall :: es => risingLevels mosi es
  | mosi, .sample _ _ :: es => risingLevels mosi es

/-! ### The outside -/

/-- The next n samples of (MISO0, MISO1), whatever they are (40_shift_engine R77). -/
def upcomingMiso : Nat → Env → List (Bool × Bool)
  | 0, _ => []
  | n + 1, e => misoNow e :: upcomingMiso n (misoTaken e)

/-- The surroundings after n samples of the MISO lines. -/
def afterMiso : Nat → Env → Env
  | 0, e => e
  | n + 1, e => afterMiso n (misoTaken e)

/-- The pair of bytes the next READ returns (40_shift_engine R76). -/
def upcomingPair (e : Env) : Byte × Byte :=
  (byteOfWire ((upcomingMiso 8 e).map Prod.fst), byteOfWire ((upcomingMiso 8 e).map Prod.snd))

/-! ### Registers and memories -/

/-- The value of a numbered control register. -/
inductive RegValue where
  | byte (v : BitVec 8)
  | mode (m : Mode)
  | float (v : F64)
deriving DecidableEq, Repr

/-- The control registers by their number (10_state R30); no operation addresses them so. -/
def registerByNumber (s : State) : Nat → Option RegValue
  | 0 => some (.byte (tstat s))
  | 1 => some (.mode s.oa.mode)
  | 2 => some (.float s.oa.cal0)
  | 3 => some (.float s.oa.cal1)
  | 4 => some (.float s.oa.circ)
  | 5 => some (.byte s.oa.oaErr)
  | _ => none

/-- `FRAME0[j]`: a byte or the no-value mark (10_state R33). -/
def frame0At (s : State) (j : Nat) : Option Byte := memRead s.oa.frame0 j

/-- `FRAME1[j]`. -/
def frame1At (s : State) (j : Nat) : Option Byte := memRead s.oa.frame1 j

/-- `HIST[k]`, `none` at `HIST_N` and beyond (10_state R32). -/
def histAt (s : State) (k : Nat) : Option (Coord × Coord) := s.oa.hist[k]?

/-- The grid position (row, column) a reader takes for frame index j (20_memory R39). -/
def gridPosition (j : Nat) : Nat × Nat := (j / 19, j % 19)

/-! ### Sequences -/

/-- Operations performed one after the other. -/
def execAll : List Instr → State → Host.Outcome State Fault Refusal
  | [], s => .next s
  | i :: is, s =>
    match exec i s with
    | .next t => execAll is t
    | .fault r => .fault r
    | .refused r => .refused r

/-- n steps of the machine, one after the other. -/
def runSteps : Nat → State → Host.Outcome State Fault Refusal
  | 0, s => .next s
  | n + 1, s =>
    match step s with
    | .next t => runSteps n t
    | .fault r => .fault r
    | .refused r => .refused r

/-- `DECODE_MOTION` of the seven bytes of a packet. -/
def decodeOp (d : Bytes7) : Instr := .decodeMotion d.b0 d.b1 d.b2 d.b3 d.b4 d.b5 d.b6

/-- The integer sum of one delta byte over a list of packets (43_decoder R105). -/
def deltaSum (f : Bytes7 → Byte) (ds : List Bytes7) : Int := (ds.map fun d => s8 (f d)).sum

/-- Steps as cycles of the block's clock (40_shift_engine R71); no rule depends on it. -/
def cyclesOf (steps : Nat) : Nat := steps * Config.cyclesPerStep

end Sys2Proof.Machine
end

