-- ==== Sys2Proof/Safety.lean ====
section
/-! DEFINITION. What every state of a run satisfies, in the terms claims use, and what counts as a
run without a recorded fault (60_exceptions R123). -/
namespace Sys2Proof.Machine

/-- The level of SCLK before each micro-phase (40_shift_engine R72, R73, R76). -/
def clockLevel : SePhase → Bool
  | .idle => true
  | .txL => true
  | .txA => false
  | .txH => false
  | .settle => true
  | .rxL => true
  | .rxH => false
  | .rxP => true

/-- The clock is at its level for the coming micro-phase, high between bytes (40_shift_engine R72). -/
def ClockOk (s : State) : Prop := s.se.sclk = clockLevel s.se.phase

/-- The micro-phases that a line of each kind goes through. -/
def phaseFits : LineKind → SePhase → Bool
  | _, .idle => true
  | .send, .txL => true
  | .send, .txA => true
  | .send, .txH => true
  | .send, .settle => true
  | .read, .rxL => true
  | .read, .rxH => true
  | .read, .rxP => true
  | _, _ => false

/-- `SET_CNT` is in 0..T_SETTLE, and in the settle delay at least one step is left (10_state R24). -/
def SettleOk (s : State) : Prop :=
  s.se.setCnt ≤ s.params.tSettle ∧ (s.se.phase = .settle → 1 ≤ s.se.setCnt)

/-- The sequencer is inside the routine of `CMD` (10_state R26), and the Shift Engine runs only inside a
line that calls it (10_state R18). -/
def SequencerOk (s : State) : Prop :=
  (s.cd.status = .idle → s.se.phase = .idle) ∧
  (s.cd.status = .busy → s.cd.label ∈ labelsOf s.cd.cmd ∧ phaseFits (lineKind s.cd.label) s.se.phase = true)

/-- The poll labels of a pixel grab. -/
def pollLabel : Label → Bool
  | .p3 => true
  | .p4 => true
  | .p5 => true
  | .p7 => true
  | _ => false

/-- The pixel grab's counts (10_state R25, R26) and its hand-over: at P7 the pair in `RB` is the copy, valid
bits cleared, of ONE READ that had both valid bits set (41_dispatcher R88). -/
def PixelOk (s : State) : Prop :=
  s.cd.pixK ≤ 361 ∧ (∀ limit, s.params.pixPollLimit = some limit → s.cd.pollCnt ≤ limit) ∧
  (s.cd.status = .busy → pollLabel s.cd.label = true →
    s.cd.pixK < 361 ∧ ∀ limit, s.params.pixPollLimit = some limit → s.cd.pollCnt < limit) ∧
  (s.cd.status = .busy → s.cd.label = .p7 →
    pixelValid s.se.rx0 = true ∧ pixelValid s.se.rx1 = true ∧
    s.cd.rb.b0 = clearValid s.se.rx0 ∧ s.cd.rb.b1 = clearValid s.se.rx1)

/-- A waiting packet has 2 or 7 bytes (10_state R27); `PTO` is set only with a finite limit (R25). -/
def TransportOk (s : State) : Prop :=
  (s.tp.rspValid = true → s.tp.rspLen = 2 ∨ s.tp.rspLen = 7) ∧
  (s.cd.pto = true → s.params.pixPollLimit ≠ none)

/-- The frames are in canonical form (10_state R33). -/
def FramesOk (s : State) : Prop := Memory.wf s.oa.frame0 = true ∧ Memory.wf s.oa.frame1 = true

/-- Heading and position are finite (44_odometry R116); the history is always full (10_state R32). -/
def OdometryOk (s : State) : Prop :=
  fIsFinite s.oa.heading = true ∧ fIsFinite s.oa.posX = true ∧ fIsFinite s.oa.posY = true ∧
  s.oa.hist.length = s.params.histN

/-- A value inside the range of a signed byte. -/
def byteRange (a : Acc) : Prop := -128 ≤ a.toInt ∧ a.toInt ≤ 127

/-- A value inside the range of an unsigned byte. -/
def qualityRange (a : Acc) : Prop := 0 ≤ a.toInt ∧ a.toInt ≤ 255

/-- The ranges of 10_state R29 and the reserved bits of `OA_ERR`, which read as 0 (R30). -/
def BufferOk (s : State) : Prop :=
  byteRange s.oa.lastDx.s0 ∧ byteRange s.oa.lastDx.s1 ∧ byteRange s.oa.lastDy.s0 ∧
  byteRange s.oa.lastDy.s1 ∧ qualityRange s.oa.quality.s0 ∧ qualityRange s.oa.quality.s1 ∧
  s.oa.oaErr.toNat < 16

/-- The parameters are in range (00_scope R9) and `CHSEL` is at its static level (10_state R23). -/
def ParamsOk (s : State) : Prop := s.params.wf = true ∧ s.se.chsel = s.params.csLevel

/-- What holds at power-on and after every step. -/
def Inv (s : State) : Prop :=
  ParamsOk s ∧ ClockOk s ∧ SettleOk s ∧ SequencerOk s ∧ PixelOk s ∧ TransportOk s ∧ FramesOk s ∧
  OdometryOk s ∧ BufferOk s

/-- Every element the spec gives a power-on value has it (70_reset_and_hazards R136). -/
def PowerOnValues (s : State) : Prop :=
  s.se.sclk = true ∧ s.se.mosi = false ∧ s.se.chsel = s.params.csLevel ∧ s.se.phase = .idle ∧
  s.cd.status = .idle ∧ s.cd.pto = false ∧ s.tp.cmdFull = false ∧ s.tp.rspValid = false ∧
  s.oa.absX = ⟨0, 0⟩ ∧ s.oa.absY = ⟨0, 0⟩ ∧ s.oa.lastDx = ⟨0, 0⟩ ∧ s.oa.lastDy = ⟨0, 0⟩ ∧
  s.oa.quality = ⟨0, 0⟩ ∧ s.oa.btnRel = s.params.btnRelInit ∧ s.oa.mode = .perSensor ∧
  s.oa.cal0 = 0 ∧ s.oa.cal1 = 0 ∧ s.oa.circ = 0 ∧ s.oa.oaErr = 0 ∧
  s.oa.heading = 0 ∧ s.oa.posX = 0 ∧ s.oa.posY = 0 ∧
  s.oa.hist = List.replicate s.params.histN (0, 0) ∧
  (∀ j, frame0At s j = none ∧ frame1At s j = none) ∧ s.oa.pixIdx = 0

/-- The block is quiescent: no command waits or runs and no packet waits (42_transport R96). -/
def Quiescent (s : State) : Prop :=
  s.cd.status = .idle ∧ s.tp.cmdFull = false ∧ s.tp.rspValid = false

/-- No fault is recorded: "a claim about a run takes `OA_ERR = 0` at its end as a premise"
(60_exceptions R123). -/
def NoOaError (s : State) : Prop := s.oa.oaErr = 0

end Sys2Proof.Machine
end

