-- ==== Sys2Proof/Certificates/Slice0/Obligations.lean ====
section
/-! DEFINITION. The statements for the provers, each a numbered rule of spec/ or a property derived from
several. `sendPhase`, `readPhase` are one micro-phase of SEND and READ (R73, R76, stated here themselves);
`upcomingPair e` is the pair of bytes the next READ samples from the surroundings e, whatever they are. -/
open Sys2Proof Sys2Proof.Machine

/-! ### Reset and the invariant -/

/-- The state after reset holds the power-on values of R136, its parameters being the machine's. -/
def Obligations.ResetHoldsPowerOnValues : Prop :=
  PowerOnValues State.reset ∧ State.reset.params = Config.params ∧ tstat State.reset = 0x00#8

/-- R136: power-on reset at any time sets every element to its power-on value, with no bus event. That the
parameters and the surroundings stay as they are is the model's reading (log 23). -/
def Obligations.PowerOnResetAtAnyTime : Prop :=
  ∀ (s : State) (rest : List Turn), s.env.agenda = .powerOn :: rest →
    ∃ t, step s = .next t ∧ PowerOnValues t ∧ t.params = s.params ∧
      t.env = { s.env with agenda := rest } ∧ busEvent s = none

/-- The state after reset satisfies the invariant. -/
def Obligations.InvariantHoldsAtReset : Prop := Inv State.reset

/-- Every step keeps the invariant: the clock's level, the sequencer inside its routine, the counts and
the hand-over of a pixel grab, packet lengths, canonical frames, finite odometry, a full history, the
ranges of the buffer and the reserved bits of `OA_ERR`. -/
def Obligations.EveryStepKeepsInvariant : Prop :=
  ∀ s t : State, Inv s → step s = .next t → Inv t

/-- R126: no step stops the block. -/
def Obligations.NoStepStopsTheBlock : Prop := ∀ s : State, ∃ t, step s = .next t

/-! ### Encoding -/

/-- R57: every command byte selects exactly one routine, by the exact matches of R56. -/
def Obligations.EveryCommandByteSelectsItsRoutine : Prop :=
  decode (.command [0xBA#8]) = .ok .cmdChipReset ∧ decode (.command [0xA2#8]) = .ok .cmdNavCtrl2 ∧
  decode (.command [0x0B#8]) = .ok .cmdPixelGrab ∧ decode (.command [0x02#8]) = .ok .cmdMotion ∧
  (∀ c : Byte, c ≠ 0xBA#8 → c ≠ 0xA2#8 → c ≠ 0x0B#8 → c ≠ 0x02#8 →
    decode (.command [c]) = .ok (.cmdRegRead c)) ∧
  (∀ c : Byte, isCommand (decodeCommand c) = true)

/-- R65, R66: every operation code selects its operation, its operands at the bits the table gives,
whatever the other operand bits are. -/
def Obligations.OperationCodesSelectOperations : Prop :=
  ∀ opnd : BitVec 192,
    decode (.oa ⟨0x0#4, opnd⟩) = .ok (.decodeMotion (opnd.extractLsb' 0 8) (opnd.extractLsb' 8 8)
      (opnd.extractLsb' 16 8) (opnd.extractLsb' 24 8) (opnd.extractLsb' 32 8) (opnd.extractLsb' 40 8)
      (opnd.extractLsb' 48 8)) ∧
    decode (.oa ⟨0x1#4, opnd⟩) = .ok (.storePixelPair (opnd.extractLsb' 0 8) (opnd.extractLsb' 8 8)) ∧
    decode (.oa ⟨0x2#4, opnd⟩) = .ok .tick ∧
    decode (.oa ⟨0x3#4, opnd⟩) = .ok (.setMode (if opnd.getLsbD 0 then .freeBall else .perSensor)) ∧
    decode (.oa ⟨0x4#4, opnd⟩) = .ok (.setCal (opnd.extractLsb' 0 64) (opnd.extractLsb' 64 64)
      (opnd.extractLsb' 128 64)) ∧
    decode (.oa ⟨0x5#4, opnd⟩) = .ok .sessionReset ∧
    decode (.oa ⟨0x6#4, opnd⟩) = .ok (.setBtn (opnd.getLsbD 0)) ∧
    decode (.oa ⟨0x7#4, opnd⟩) = .ok .reservedOa7 ∧
    (∀ low : BitVec 3, decode (.oa ⟨1#1 ++ low, opnd⟩) = .ok (.reservedOa8F low))

/-- A few words written out in the spec's vectors decode to what they stand for: the word of S2 and V30,
the word of V31, program 1's `OA CAL` and `OA MODE`, and the byte of `HW NAVCTRL2`. -/
def Obligations.SampleWordsDecode : Prop :=
  decode (.oa ⟨0x0#4, 0x013232FE0001FF#192⟩) =
    .ok (.decodeMotion 0xFF#8 0x01#8 0x00#8 0xFE#8 0x32#8 0x32#8 0x01#8) ∧
  decode (.oa ⟨0x0#4, 0xAA00FF807F7F80#192⟩) =
    .ok (.decodeMotion 0x80#8 0x7F#8 0x7F#8 0x80#8 0xFF#8 0x00#8 0xAA#8) ∧
  decode (.oa ⟨0x4#4, 0x40631fdb22d0e560408f400000000000408f400000000000#192⟩) =
    .ok (.setCal 0x408f400000000000#64 0x408f400000000000#64 0x40631fdb22d0e560#64) ∧
  decode (.oa ⟨0x3#4, 0x1#192⟩) = .ok (.setMode .freeBall) ∧
  decode (.command [0xA2#8]) = .ok .cmdNavCtrl2

/-- Decode of encode is the operation itself, for every well-formed operation that has an encoding and
every value of its operands. -/
def Obligations.DecodeOfEncodeIsIdentity : Prop :=
  ∀ (i : Instr) (p : PortWord), i.wf = true → encode i = some p → decode p = .ok i

/-- Every command byte is the encoding of the routine it selects, and a command byte decodes to a
well-formed operation. -/
def Obligations.CommandBytesReencode : Prop :=
  ∀ c : Byte, (decodeCommand c).wf = true ∧ encode (decodeCommand c) = some (.command [c])

/-! ### A step runs the decoded operation -/

/-- A turn of the CD/SE agent runs the routine of the byte waiting in the mailbox of an IDLE dispatcher, or
of `CMD` in a BUSY one: on the state itself with nothing on the agenda or while the host waits there, and
on the state without it when the turn is a `.cd` one. -/
def Obligations.StepRunsTheRoutineOfTheCommandByte : Prop :=
  ∀ s u : State,
    ((s.env.agenda = [] ∧ u = s) ∨
     (∃ rest, s.env.agenda = .cd :: rest ∧ u = { s with env := { s.env with agenda := rest } }) ∨
     (∃ bytes rest, s.env.agenda = .awaitWrite bytes :: rest ∧ s.tp.cmdFull = true ∧ u = s) ∨
     (∃ n rest, s.env.agenda = .awaitRead n :: rest ∧ s.tp.rspValid = false ∧ u = s) ∨
     (∃ n rest left got, s.env.agenda = .queryRead n :: rest ∧ s.env.query = .running left got ∧
        s.tp.rspValid = false ∧ u = s)) →
    (s.cd.status = .idle → s.tp.cmdFull = true → step s = exec (decodeCommand s.tp.cmdByte) u) ∧
    (s.cd.status = .busy → step s = exec (decodeCommand s.cd.cmd) u)

/-- An OA operation word on the port, and each host operation, is run as decoded, its turn dropped; the host's
waits end in the write and the read they wait for, and a whole packet read is passed on as its operation,
anything else not (R69, R102, log 16). R98 (its form is log 26): `query(c)` does not begin while a packet is
unread; else it writes c, a failed write being a transport fault; each waiting read appends its packet,
the last one making the query return the concatenation, and a failed read is a transport fault. R101: the
host gives a running query up, and the block is not told. R102: only bytes that a query has returned are
passed on. -/
def Obligations.StepRunsTheIssuedOperation : Prop :=
  ∀ (s : State) (rest : List Turn),
    (∀ w i, s.env.agenda = .oa w :: rest → decode (.oa w) = .ok i →
      step s = exec i { s with env := { s.env with agenda := rest } }) ∧
    (∀ bs, s.env.agenda = .hostWrite bs :: rest →
      step s = exec (.hostWrite bs) { s with env := { s.env with agenda := rest } }) ∧
    (∀ n, s.env.agenda = .hostRead n :: rest →
      step s = exec (.hostRead n) { s with env := { s.env with agenda := rest } }) ∧
    (s.env.agenda = .hostStatus :: rest →
      step s = exec .hostStatus { s with env := { s.env with agenda := rest } }) ∧
    (∀ c, s.env.agenda = .queryStart c :: rest →
      (s.tp.rspValid = true ∨ (∃ left got, s.env.query = .running left got) →
        step s = .next { s with env := { s.env with agenda := rest, query := .notBegun } }) ∧
      (s.tp.rspValid = false → (∀ left got, s.env.query ≠ .running left got) →
        (s.tp.cmdFull = true → step s = exec (.hostWrite [c])
          { s with env := { s.env with agenda := rest, query := .transportFault } }) ∧
        (s.tp.cmdFull = false → c = 0xBA#8 ∨ c = 0xA2#8 → step s = exec (.hostWrite [c])
          { s with env := { s.env with agenda := rest, query := .returned [] } }) ∧
        (s.tp.cmdFull = false → c = 0x0B#8 → step s = exec (.hostWrite [c])
          { s with env := { s.env with agenda := rest, query := .running 361 [] } }) ∧
        (s.tp.cmdFull = false → c ≠ 0xBA#8 → c ≠ 0xA2#8 → c ≠ 0x0B#8 → step s = exec (.hostWrite [c])
          { s with env := { s.env with agenda := rest, query := .running 1 [] } }))) ∧
    (∀ n left got, s.env.agenda = .queryRead n :: rest → s.env.query = .running left got →
      s.tp.rspValid = true →
      (n < s.tp.rspLen → step s = exec (.hostRead n)
        { s with env := { s.env with agenda := rest, query := .transportFault } }) ∧
      (s.tp.rspLen ≤ n → left ≤ 1 → step s = exec (.hostRead n) { s with env :=
        { s.env with agenda := rest, query := .returned (got ++ s.tp.rspData.toList.take s.tp.rspLen) } }) ∧
      (s.tp.rspLen ≤ n → 1 < left → step s = exec (.hostRead n) { s with env :=
        { s.env with agenda := rest, query := .running (left - 1) (got ++ s.tp.rspData.toList.take s.tp.rspLen) } })) ∧
    (∀ n, s.env.agenda = .queryRead n :: rest → (∀ left got, s.env.query ≠ .running left got) →
      step s = .next { s with env := { s.env with agenda := rest } }) ∧
    (s.env.agenda = .queryTimeout :: rest →
      ((∃ left got, s.env.query = .running left got) →
        step s = .next { s with env := { s.env with agenda := rest, query := .timedOut } }) ∧
      ((∀ left got, s.env.query ≠ .running left got) →
        step s = .next { s with env := { s.env with agenda := rest } })) ∧
    (s.env.agenda = .oaDecodeQuery :: rest →
      (∀ b0 b1 b2 b3 b4 b5 b6, s.env.query = .returned [b0, b1, b2, b3, b4, b5, b6] →
        step s = exec (.decodeMotion b0 b1 b2 b3 b4 b5 b6) { s with env := { s.env with agenda := rest } }) ∧
      ((∀ bytes, s.env.query = .returned bytes → bytes.length ≠ 7) →
        step s = .next { s with env := { s.env with agenda := rest } })) ∧
    (∀ k, s.env.agenda = .oaStoreQuery k :: rest →
      (∀ bytes p0 p1, s.env.query = .returned bytes → bytes[2 * k]? = some p0 → bytes[2 * k + 1]? = some p1 →
        step s = exec (.storePixelPair p0 p1) { s with env := { s.env with agenda := rest } }) ∧
      ((∀ bytes, s.env.query = .returned bytes → bytes.length ≤ 2 * k + 1) →
        step s = .next { s with env := { s.env with agenda := rest } })) ∧
    (∀ bs, s.env.agenda = .awaitWrite bs :: rest → s.tp.cmdFull = false →
      step s = exec (.hostWrite bs) { s with env := { s.env with agenda := rest } }) ∧
    (∀ n, s.env.agenda = .awaitRead n :: rest → s.tp.rspValid = true →
      step s = exec (.hostRead n) { s with env := { s.env with agenda := rest } }) ∧
    (s.env.agenda = .oaDecodeReply :: rest →
      (∀ b0 b1 b2 b3 b4 b5 b6, s.env.reply = .bytes [b0, b1, b2, b3, b4, b5, b6] →
        step s = exec (.decodeMotion b0 b1 b2 b3 b4 b5 b6) { s with env := { s.env with agenda := rest } }) ∧
      ((∀ bytes, s.env.reply = .bytes bytes → bytes.length ≠ 7) →
        step s = .next { s with env := { s.env with agenda := rest } })) ∧
    (s.env.agenda = .oaStoreReply :: rest →
      (∀ p0 p1, s.env.reply = .bytes [p0, p1] →
        step s = exec (.storePixelPair p0 p1) { s with env := { s.env with agenda := rest } }) ∧
      ((∀ bytes, s.env.reply = .bytes bytes → bytes.length ≠ 2) →
        step s = .next { s with env := { s.env with agenda := rest } }))

/-! ### Shift Engine -/

/-- R73: each micro-phase of SEND writes exactly what the phase lists. -/
def Obligations.SendGoesThroughItsPhases : Prop :=
  ∀ (v : Byte) (s : State),
    (s.se.phase = .idle → exec (.send v) s = .next { s with se :=
      { s.se with txSr := v, bitCnt := 7, sclk := false, mosi := false, phase := .txA } }) ∧
    (s.se.phase = .txL → exec (.send v) s = .next { s with se :=
      { s.se with sclk := false, mosi := false, phase := .txA } }) ∧
    (s.se.phase = .txA → exec (.send v) s = .next { s with se :=
      { s.se with mosi := s.se.txSr.getLsbD s.se.bitCnt.val, phase := .txH } }) ∧
    (s.se.phase = .txH → s.se.bitCnt = 0 → exec (.send v) s = .next { s with se :=
      { s.se with sclk := true, setCnt := s.params.tSettle, phase := .settle } }) ∧
    (s.se.phase = .txH → s.se.bitCnt ≠ 0 → exec (.send v) s = .next { s with se :=
      { s.se with sclk := true, bitCnt := s.se.bitCnt - 1, phase := .txL } }) ∧
    (s.se.phase = .settle → s.se.setCnt - 1 = 0 → exec (.send v) s = .next { s with se :=
      { s.se with setCnt := s.se.setCnt - 1, phase := .idle } }) ∧
    (s.se.phase = .settle → s.se.setCnt - 1 ≠ 0 → exec (.send v) s = .next { s with se :=
      { s.se with setCnt := s.se.setCnt - 1 } })

/-- R76: each micro-phase of READ writes exactly what the phase lists; both lines are sampled in one step;
MOSI is never written. -/
def Obligations.ReadGoesThroughItsPhases : Prop :=
  ∀ s : State,
    (s.se.phase = .idle → exec .read s = .next { s with se :=
      { s.se with rx0 := 0, rx1 := 0, bitCnt := 7, sclk := false, phase := .rxH } }) ∧
    (s.se.phase = .rxL → exec .read s = .next { s with se :=
      { s.se with sclk := false, phase := .rxH } }) ∧
    (s.se.phase = .rxH → exec .read s = .next { s with se := { s.se with sclk := true, phase := .rxP } }) ∧
    (s.se.phase = .rxP → s.se.bitCnt = 0 → exec .read s = .next { s with
      se := { s.se with rx0 := s.se.rx0.extractLsb' 0 7 ++ BitVec.ofBool (misoNow s.env).1,
                        rx1 := s.se.rx1.extractLsb' 0 7 ++ BitVec.ofBool (misoNow s.env).2,
                        phase := .idle },
      env := misoTaken s.env }) ∧
    (s.se.phase = .rxP → s.se.bitCnt ≠ 0 → exec .read s = .next { s with
      se := { s.se with rx0 := s.se.rx0.extractLsb' 0 7 ++ BitVec.ofBool (misoNow s.env).1,
                        rx1 := s.se.rx1.extractLsb' 0 7 ++ BitVec.ofBool (misoNow s.env).2,
                        bitCnt := s.se.bitCnt - 1, phase := .rxL },
      env := misoTaken s.env })

/-- R74, R75: a SEND of v from the idle engine takes exactly 24 + T_SETTLE micro-phases, shows a sensor the
bits of v, MSB first, at its eight rising edges, and leaves SCLK high, MOSI at bit 0 and nothing else
changed but the engine's own shift and count registers; its bus trace is that of R80. -/
def Obligations.SendClocksItsByteOutMsbFirst : Prop :=
  ∀ (v : Byte) (s : State), s.se.phase = .idle → 1 ≤ s.params.tSettle →
    (sendPhase v)^[24 + s.params.tSettle] s = { s with se :=
      { s.se with sclk := true, mosi := v.getLsbD 0, txSr := v, bitCnt := 0, setCnt := 0 } } ∧
    (∀ n, 0 < n → n < 24 + s.params.tSettle → ((sendPhase v)^[n] s).se.phase ≠ .idle) ∧
    sendTrace v (24 + s.params.tSettle) s = sendEvents v s.params.tSettle ∧
    (∀ m, risingLevels m (sendTrace v (24 + s.params.tSettle) s) = wireBits v)

/-- R78, R79: a READ from the idle engine takes exactly 24 micro-phases; bit 8-k of both results is sampled
in the same step, after the k-th rising edge; MOSI and everything
but the engine's results and its bit count keep their values. -/
def Obligations.ReadReturnsTheSampledPair : Prop :=
  ∀ s : State, s.se.phase = .idle →
    readPhase^[24] s = { s with
      se := { s.se with sclk := true, bitCnt := 0, rx0 := (upcomingPair s.env).1, rx1 := (upcomingPair s.env).2 }
      env := afterMiso 8 s.env } ∧
    (∀ n, 0 < n → n < 24 → (readPhase^[n] s).se.phase ≠ .idle) ∧
    readTrace 24 s = readEvents (upcomingMiso 8 s.env) ∧
    wireBits (upcomingPair s.env).1 = (upcomingMiso 8 s.env).map Prod.fst ∧
    wireBits (upcomingPair s.env).2 = (upcomingMiso 8 s.env).map Prod.snd

/-- R72: the clock stands at the level of the coming micro-phase after every step, so it is high whenever
the engine is idle or settling, and outside a power-on reset it rises only in `TX_H` or `RX_H`. -/
def Obligations.ClockRisesOnlyInsideAByte : Prop :=
  ∀ s t : State, ClockOk s → step s = .next t →
    ClockOk t ∧ (t.se.phase = .idle ∨ t.se.phase = .settle → t.se.sclk = true) ∧
    (s.se.sclk = false → t.se.sclk = true → s.se.phase = .txH ∨ s.se.phase = .rxH ∨
      ∃ rest, s.env.agenda = .powerOn :: rest)

/-! ### Command Dispatcher -/

/-- R82: an IDLE dispatcher takes the waiting command byte: the five routines are accepted alike. -/
def Obligations.AcceptanceTakesTheWaitingCommand : Prop :=
  ∀ (s : State) (l : Label), s.cd.status = .idle → s.tp.cmdFull = true →
    firstLabel (decodeCommand s.tp.cmdByte) = some l →
    exec (decodeCommand s.tp.cmdByte) s = .next { s with
      cd := { s.cd with cmd := s.tp.cmdByte, status := .busy, pto := false, label := l },
      tp := { s.tp with cmdFull := false } }

/-- R82, R13: an IDLE dispatcher with an empty mailbox stalls: a turn of the CD/SE agent leaves the state as
it is, but for a `.cd` turn that is used up; the reading of a stall as an unchanged state is the model's
(log 6). -/
def Obligations.IdleDispatcherStallsWithoutCommand : Prop :=
  ∀ s : State, cdMoves s = true → s.cd.status = .idle → s.tp.cmdFull = false → step s = .next (cdState s)

/-- R82: "The CD takes no command while `CD_ST = BUSY`": every step of the CD/SE agent, be it its own turn or
one in which the host waits, leaves the command mailbox and `CMD` alone. -/
def Obligations.BusyDispatcherTakesNoCommand : Prop :=
  ∀ s t : State, cdMoves s = true → s.cd.status = .busy → step s = .next t →
    t.tp.cmdFull = s.tp.cmdFull ∧ t.tp.cmdByte = s.tp.cmdByte ∧ t.cd.cmd = s.cd.cmd

/-- R83: emission waits while a packet is unread, else places its bytes, length and flag in one step. -/
def Obligations.EmitWaitsOrPlacesThePacket : Prop :=
  ∀ (bs : List Byte) (s : State),
    (s.tp.rspValid = true → exec (.emit bs) s = .next s) ∧
    (s.tp.rspValid = false → packetLength bs.length = true →
      ∃ t, exec (.emit bs) s = .next t ∧ t = { s with tp := { s.tp with
          rspData := t.tp.rspData, rspLen := bs.length, rspValid := true } } ∧
        packetBytes t.tp = bs ∧ t.tp.rspData.toList.drop bs.length = s.tp.rspData.toList.drop bs.length)

/-- R85, lines: `CMD_CHIP_RESET` sends 0xBA, then the payload, and ends. -/
def Obligations.ChipResetPerformsItsLines : Prop :=
  ∀ s : State, s.cd.status = .busy → s.cd.cmd = 0xBA#8 →
    (s.cd.label = .w0 → exec .cmdChipReset s = .next (
      if (sendPhase 0xBA#8 s).se.phase = .idle then
        { sendPhase 0xBA#8 s with cd := { s.cd with label := .w1 } }
      else sendPhase 0xBA#8 s)) ∧
    (s.cd.label = .w1 → exec .cmdChipReset s = .next (
      if (sendPhase s.params.resetPayload s).se.phase = .idle then
        { sendPhase s.params.resetPayload s with cd := { s.cd with status := .idle } }
      else sendPhase s.params.resetPayload s))

/-- R86, lines: `CMD_NAV_CTRL2` sends 0xA2, then the payload, and ends. -/
def Obligations.NavCtrl2PerformsItsLines : Prop :=
  ∀ s : State, s.cd.status = .busy → s.cd.cmd = 0xA2#8 →
    (s.cd.label = .n0 → exec .cmdNavCtrl2 s = .next (
      if (sendPhase 0xA2#8 s).se.phase = .idle then
        { sendPhase 0xA2#8 s with cd := { s.cd with label := .n1 } }
      else sendPhase 0xA2#8 s)) ∧
    (s.cd.label = .n1 → exec .cmdNavCtrl2 s = .next (
      if (sendPhase s.params.navCtrl2Payload s).se.phase = .idle then
        { sendPhase s.params.navCtrl2Payload s with cd := { s.cd with status := .idle } }
      else sendPhase s.params.navCtrl2Payload s))

/-- R87, lines: `CMD_PIXEL_GRAB` sends 0x8B and 0x00, then for each pixel sends 0x0B, reads a pair, and keeps
it only when both valid bits are set; after the emission the next pixel, or the end at 361. -/
def Obligations.PixelGrabPerformsItsLines : Prop :=
  ∀ s : State, s.cd.status = .busy → s.cd.cmd = 0x0B#8 →
    (s.cd.label = .p0 → exec .cmdPixelGrab s = .next (
      if (sendPhase 0x8B#8 s).se.phase = .idle then
        { sendPhase 0x8B#8 s with cd := { s.cd with label := .p1 } }
      else sendPhase 0x8B#8 s)) ∧
    (s.cd.label = .p1 → exec .cmdPixelGrab s = .next (
      if (sendPhase 0x00#8 s).se.phase = .idle then
        { sendPhase 0x00#8 s with cd := { s.cd with pixK := 0, pollCnt := 0, label := .p3 } }
      else sendPhase 0x00#8 s)) ∧
    (s.cd.label = .p3 → exec .cmdPixelGrab s = .next (
      if (sendPhase 0x0B#8 s).se.phase = .idle then
        { sendPhase 0x0B#8 s with cd := { s.cd with label := .p4 } }
      else sendPhase 0x0B#8 s)) ∧
    (s.cd.label = .p4 → exec .cmdPixelGrab s = .next (
      if (readPhase s).se.phase = .idle then { readPhase s with cd := { s.cd with label := .p5 } }
      else readPhase s)) ∧
    (s.cd.label = .p5 → s.se.rx0.getLsbD 7 = true → s.se.rx1.getLsbD 7 = true →
      exec .cmdPixelGrab s = .next { s with cd := { s.cd with label := .p7, rb :=
        { s.cd.rb with b0 := s.se.rx0 &&& 0x7F#8, b1 := s.se.rx1 &&& 0x7F#8 } } }) ∧
    (s.cd.label = .p5 → (s.se.rx0.getLsbD 7 = false ∨ s.se.rx1.getLsbD 7 = false) →
      s.params.pixPollLimit = none →
      exec .cmdPixelGrab s = .next { s with cd := { s.cd with label := .p3 } }) ∧
    (s.cd.label = .p5 → (s.se.rx0.getLsbD 7 = false ∨ s.se.rx1.getLsbD 7 = false) →
      ∀ limit, s.params.pixPollLimit = some limit → s.cd.pollCnt + 1 ≠ limit →
      exec .cmdPixelGrab s = .next { s with cd :=
        { s.cd with pollCnt := s.cd.pollCnt + 1, label := .p3 } }) ∧
    (s.cd.label = .p7 → s.tp.rspValid = true → exec .cmdPixelGrab s = .next s) ∧
    (s.cd.label = .p7 → s.tp.rspValid = false → s.cd.pixK + 1 = 361 → exec .cmdPixelGrab s = .next { s with
      cd := { s.cd with pixK := 361, status := .idle },
      tp := { s.tp with rspData := { s.tp.rspData with b0 := s.cd.rb.b0, b1 := s.cd.rb.b1 },
                        rspLen := 2, rspValid := true } }) ∧
    (s.cd.label = .p7 → s.tp.rspValid = false → s.cd.pixK + 1 ≠ 361 → exec .cmdPixelGrab s = .next { s with
      cd := { s.cd with pixK := s.cd.pixK + 1, pollCnt := 0, label := .p3 },
      tp := { s.tp with rspData := { s.tp.rspData with b0 := s.cd.rb.b0, b1 := s.cd.rb.b1 },
                        rspLen := 2, rspValid := true } })

/-- R90: with a finite limit, the poll that reaches it sets `PTO`, ends the routine and sends nothing; `PTO`
stays set until the next accepted command or a power-on reset, and both clear it. -/
def Obligations.PixelTimeoutEndsTheGrab : Prop :=
  (∀ (s : State) (limit : Nat), s.cd.status = .busy → s.cd.cmd = 0x0B#8 → s.cd.label = .p5 →
    (s.se.rx0.getLsbD 7 = false ∨ s.se.rx1.getLsbD 7 = false) →
    s.params.pixPollLimit = some limit → s.cd.pollCnt + 1 = limit →
    ∃ t, exec .cmdPixelGrab s = .next t ∧ t.cd.pto = true ∧ t.cd.status = .idle ∧
      t.cd.pixK = s.cd.pixK ∧ t.cd.pollCnt = limit ∧ t.se = s.se ∧ t.tp = s.tp ∧ t.oa = s.oa ∧
      t.env = s.env ∧ cdEvent s = none) ∧
  (∀ s : State, s.cd.status = .idle → s.tp.cmdFull = true →
    ∃ t, exec (decodeCommand s.tp.cmdByte) s = .next t ∧ t.cd.pto = false) ∧
  (∀ s t : State, s.cd.pto = true → step s = .next t →
    t.cd.pto = true ∨ (∃ rest, s.env.agenda = .powerOn :: rest) ∨
    (cdMoves s = true ∧ s.cd.status = .idle ∧ s.tp.cmdFull = true ∧ t.cd.status = .busy)) ∧
  (∀ (s : State) (rest : List Turn), s.env.agenda = .powerOn :: rest →
    ∃ t, step s = .next t ∧ t.cd.pto = false)

/-- R91, lines: `CMD_MOTION` reads the four registers in order, keeps three of the pairs, samples AUX_IN and
emits the seven bytes. -/
def Obligations.MotionPerformsItsLines : Prop :=
  ∀ s : State, s.cd.status = .busy → s.cd.cmd = 0x02#8 →
    (∀ l v l', (l, v, l') ∈ [(Label.m0, 0x02#8, Label.m1), (.m2, 0x03#8, .m3), (.m4, 0x04#8, .m5),
        (.m6, 0x05#8, .m7)] → s.cd.label = l → exec .cmdMotion s = .next (
      if (sendPhase v s).se.phase = .idle then { sendPhase v s with cd := { s.cd with label := l' } }
      else sendPhase v s)) ∧
    ((readPhase s).se.phase ≠ .idle → s.cd.label ∈ [.m1, .m3, .m5, .m7] →
      exec .cmdMotion s = .next (readPhase s)) ∧
    ((readPhase s).se.phase = .idle →
      (s.cd.label = .m1 → exec .cmdMotion s = .next { readPhase s with cd :=
        { s.cd with label := .m2 } }) ∧
      (s.cd.label = .m3 → exec .cmdMotion s = .next { readPhase s with cd := { s.cd with
        label := .m4, rb := { s.cd.rb with b0 := (readPhase s).se.rx0, b1 := (readPhase s).se.rx1 } } }) ∧
      (s.cd.label = .m5 → exec .cmdMotion s = .next { readPhase s with cd := { s.cd with
        label := .m6, rb := { s.cd.rb with b2 := (readPhase s).se.rx0, b3 := (readPhase s).se.rx1 } } }) ∧
      (s.cd.label = .m7 → exec .cmdMotion s = .next { readPhase s with cd := { s.cd with
        label := .m8, rb := { s.cd.rb with b4 := (readPhase s).se.rx0, b5 := (readPhase s).se.rx1 } } })) ∧
    (s.cd.label = .m8 → exec .cmdMotion s = .next { s with
      cd := { s.cd with label := .m9, rb := { s.cd.rb with b6 := auxNow s.env } },
      env := auxTaken s.env }) ∧
    (s.cd.label = .m9 → s.tp.rspValid = true → exec .cmdMotion s = .next s) ∧
    (s.cd.label = .m9 → s.tp.rspValid = false → exec .cmdMotion s = .next { s with
      cd := { s.cd with status := .idle },
      tp := { s.tp with rspData := s.cd.rb, rspLen := 7, rspValid := true } })

/-- R92, lines: `CMD_REG_READ` sends the command byte as received, reads one pair and emits it. -/
def Obligations.RegReadPerformsItsLines : Prop :=
  ∀ (c : Byte) (s : State), s.cd.status = .busy → s.cd.cmd = c →
    (s.cd.label = .g0 → exec (.cmdRegRead c) s = .next (
      if (sendPhase c s).se.phase = .idle then { sendPhase c s with cd := { s.cd with label := .g1 } }
      else sendPhase c s)) ∧
    (s.cd.label = .g1 → (readPhase s).se.phase ≠ .idle →
      exec (.cmdRegRead c) s = .next (readPhase s)) ∧
    (s.cd.label = .g1 → (readPhase s).se.phase = .idle →
      exec (.cmdRegRead c) s = .next { readPhase s with cd := { s.cd with
        label := .g2, rb := { s.cd.rb with b0 := (readPhase s).se.rx0, b1 := (readPhase s).se.rx1 } } }) ∧
    (s.cd.label = .g2 → s.tp.rspValid = true → exec (.cmdRegRead c) s = .next s) ∧
    (s.cd.label = .g2 → s.tp.rspValid = false → exec (.cmdRegRead c) s = .next { s with
      cd := { s.cd with status := .idle },
      tp := { s.tp with rspData := { s.tp.rspData with b0 := s.cd.rb.b0, b1 := s.cd.rb.b1 },
                        rspLen := 2, rspValid := true } })

/-- A write command waiting in the mailbox runs to its end in 49 + 2 T_SETTLE steps of the CD/SE agent: the bus
carries its byte and its payload, each followed by the settle delay, nothing is emitted, and nothing
changes but the command mailbox, the dispatcher's registers that name the command and its end, the MOSI
line and the engine's own registers. -/
def Obligations.WriteCommandsRunToTheirEnd : Prop :=
  ∀ (s : State) (c v : Byte), (c = 0xBA#8 ∧ v = s.params.resetPayload ∨
      c = 0xA2#8 ∧ v = s.params.navCtrl2Payload) →
    s.env.agenda = [] → s.cd.status = .idle → s.tp.cmdFull = true → s.tp.cmdByte = c →
    s.se.phase = .idle → 1 ≤ s.params.tSettle →
    runSteps (49 + 2 * s.params.tSettle) s = .next { s with
      se := { s.se with sclk := true, mosi := v.getLsbD 0, txSr := v, bitCnt := 0, setCnt := 0 }
      cd := { s.cd with cmd := c, pto := false, label := if c = 0xBA#8 then .w1 else .n1 }
      tp := { s.tp with cmdFull := false } } ∧
      busTrace (49 + 2 * s.params.tSettle) s =
        sendEvents c s.params.tSettle ++ sendEvents v s.params.tSettle

/-- A generic read waiting in the mailbox, the response mailbox free, runs to its end in 50 + T_SETTLE steps:
the bus carries the byte as received and one READ, MOSI keeps bit 0 of the byte, and the packet is the
sampled pair. -/
def Obligations.RegReadRunsToItsPacket : Prop :=
  ∀ s : State, namedCommandByte s.tp.cmdByte = false →
    s.env.agenda = [] → s.cd.status = .idle → s.tp.cmdFull = true → s.tp.rspValid = false →
    s.se.phase = .idle → 1 ≤ s.params.tSettle →
    ∃ t, runSteps (50 + s.params.tSettle) s = .next t ∧ t.cd.status = .idle ∧ t.se.phase = .idle ∧
      t.tp.cmdFull = false ∧ t.tp.rspValid = true ∧
      packetBytes t.tp = [(upcomingPair s.env).1, (upcomingPair s.env).2] ∧
      t.se.mosi = s.tp.cmdByte.getLsbD 0 ∧ t.oa = s.oa ∧ t.env = afterMiso 8 s.env ∧
      busTrace (50 + s.params.tSettle) s =
        sendEvents s.tp.cmdByte s.params.tSettle ++ readEvents (upcomingMiso 8 s.env)

/-- A motion query waiting in the mailbox, the response mailbox free, runs to its end in 195 + 4 T_SETTLE
steps: four register reads, the first discarded, then AUX_IN, and one packet of seven bytes. -/
def Obligations.MotionRunsToItsPacket : Prop :=
  ∀ (s : State) (e1 e2 e3 e4 : Env), s.tp.cmdByte = 0x02#8 →
    s.env.agenda = [] → s.cd.status = .idle → s.tp.cmdFull = true → s.tp.rspValid = false →
    s.se.phase = .idle → 1 ≤ s.params.tSettle →
    e1 = afterMiso 8 s.env → e2 = afterMiso 8 e1 → e3 = afterMiso 8 e2 → e4 = afterMiso 8 e3 →
    ∃ t, runSteps (195 + 4 * s.params.tSettle) s = .next t ∧ t.cd.status = .idle ∧ t.se.phase = .idle ∧
      t.tp.cmdFull = false ∧ t.tp.rspValid = true ∧
      packetBytes t.tp = [(upcomingPair e1).1, (upcomingPair e1).2, (upcomingPair e2).1,
        (upcomingPair e2).2, (upcomingPair e3).1, (upcomingPair e3).2, auxNow e4] ∧
      t.oa = s.oa ∧ t.env = auxTaken e4 ∧
      busTrace (195 + 4 * s.params.tSettle) s =
        sendEvents 0x02#8 s.params.tSettle ++ readEvents (upcomingMiso 8 s.env) ++
        (sendEvents 0x03#8 s.params.tSettle ++ readEvents (upcomingMiso 8 e1)) ++
        (sendEvents 0x04#8 s.params.tSettle ++ readEvents (upcomingMiso 8 e2)) ++
        (sendEvents 0x05#8 s.params.tSettle ++ readEvents (upcomingMiso 8 e3))

/-- One poll of a pixel takes 49 + T_SETTLE steps, one send of 0x0B and one READ: a pair with both valid bits
set reaches the emission with the bits cleared; any other pair is discarded whole and, the limit not
reached by counting this poll, polled again. -/
def Obligations.PixelPollKeepsOrDiscardsThePair : Prop :=
  ∀ (s : State) (valid : Prop), s.env.agenda = [] → s.cd.status = .busy → s.cd.cmd = 0x0B#8 →
    s.cd.label = .p3 → s.se.phase = .idle → 1 ≤ s.params.tSettle →
    (valid ↔ (upcomingPair s.env).1.getLsbD 7 = true ∧ (upcomingPair s.env).2.getLsbD 7 = true) →
    (¬valid → ∀ limit, s.params.pixPollLimit = some limit → s.cd.pollCnt + 1 ≠ limit) →
    ∃ t, runSteps (49 + s.params.tSettle) s = .next t ∧ t.cd.status = .busy ∧ t.cd.cmd = s.cd.cmd ∧
      t.se.phase = .idle ∧ t.cd.pixK = s.cd.pixK ∧ t.cd.pto = s.cd.pto ∧ t.tp = s.tp ∧ t.oa = s.oa ∧
      t.env = afterMiso 8 s.env ∧
      busTrace (49 + s.params.tSettle) s =
        sendEvents 0x0B#8 s.params.tSettle ++ readEvents (upcomingMiso 8 s.env) ∧
      (valid → t.cd.label = .p7 ∧ t.cd.pollCnt = s.cd.pollCnt ∧ t.cd.rb = { s.cd.rb with
        b0 := (upcomingPair s.env).1 &&& 0x7F#8, b1 := (upcomingPair s.env).2 &&& 0x7F#8 }) ∧
      (¬valid → t.cd.label = .p3 ∧ t.cd.rb = s.cd.rb ∧
        (s.params.pixPollLimit = none → t.cd.pollCnt = s.cd.pollCnt) ∧
        (s.params.pixPollLimit ≠ none → t.cd.pollCnt = s.cd.pollCnt + 1))

/-- R88: at the emission line of a pixel grab the pair to emit is the copy, valid bits cleared, of one READ
that had both valid bits set; every step keeps this, and the packet placed from it has bit 7 of both
bytes clear. -/
def Obligations.PixelPacketsComeFromOneFullyValidRead : Prop :=
  (∀ s t : State, ParamsOk s → PixelOk s → step s = .next t → PixelOk t) ∧
  (∀ s t : State, PixelOk s → s.cd.status = .busy → s.cd.cmd = 0x0B#8 → s.tp.rspValid = false →
    exec .cmdPixelGrab s = .next t → t.tp.rspValid = true →
    pixelValid s.se.rx0 = true ∧ pixelValid s.se.rx1 = true ∧
    packetBytes t.tp = [s.se.rx0 &&& 0x7F#8, s.se.rx1 &&& 0x7F#8])

/-- R89: with no limit, a sensor that never sets its valid bit keeps the CD in the poll for as long as one
runs it: `rs` lists, poll by poll, eight samples whose first pair is not valid on both lines. -/
def Obligations.UnboundedPollGoesOnForEver : Prop :=
  ∀ (rs : List (List (Bool × Bool))) (s : State) (more : List (Bool × Bool)),
    (∀ r ∈ rs, r.length = 8 ∧ r.head? ≠ some (true, true)) →
    s.env.sensorBits = rs.flatten ++ more → s.env.agenda = [] → s.params.pixPollLimit = none →
    s.cd.status = .busy → s.cd.cmd = 0x0B#8 → s.cd.label = .p3 → s.se.phase = .idle →
    1 ≤ s.params.tSettle →
    ∃ t, runSteps (rs.length * (49 + s.params.tSettle)) s = .next t ∧ t.cd = s.cd ∧ cdBusy t = true ∧
      t.tp = s.tp ∧ t.oa = s.oa ∧ t.env.sensorBits = more

/-- One pixel of a grab whose packet the host reads and stores (30_encoding R70): from the poll, 52 + T_SETTLE
steps carry a pair with both valid bits set into the two frames at the write index, valid bits cleared,
every other element kept, and the CD to the next pixel or, after the 361st, to IDLE. -/
def Obligations.GrabbedPixelReachesTheFrames : Prop :=
  ∀ (s : State) (rest : List Turn), s.env.agenda = .awaitRead 2 :: .oaStoreReply :: rest →
    s.cd.status = .busy → s.cd.cmd = 0x0B#8 → s.cd.label = .p3 → s.se.phase = .idle →
    1 ≤ s.params.tSettle → s.tp.rspValid = false →
    (upcomingPair s.env).1.getLsbD 7 = true → (upcomingPair s.env).2.getLsbD 7 = true →
    ∃ t, runSteps (52 + s.params.tSettle) s = .next t ∧
      frame0At t s.oa.pixIdx.val = some ((upcomingPair s.env).1 &&& 0x7F#8) ∧
      frame1At t s.oa.pixIdx.val = some ((upcomingPair s.env).2 &&& 0x7F#8) ∧
      (∀ j, j ≠ s.oa.pixIdx.val → frame0At t j = frame0At s j ∧ frame1At t j = frame1At s j) ∧
      t.oa.pixIdx.val = (s.oa.pixIdx.val + 1) % 361 ∧ t.cd.pixK = s.cd.pixK + 1 ∧
      (if s.cd.pixK + 1 = 361 then t.cd.status = .idle else t.cd.status = .busy ∧ t.cd.label = .p3) ∧
      t.se.phase = .idle ∧ t.tp.rspValid = false ∧ t.tp.cmdFull = s.tp.cmdFull ∧ t.env.agenda = rest

/-! ### Transport -/

/-- R94: `HOST_WRITE` of one byte into a free mailbox is ok; any other write fails with no state change.
That the result stands in `env.reply` is the model's form (log 15). -/
def Obligations.HostWriteAcceptsOneByteWhenFree : Prop :=
  ∀ (bytes : List Byte) (s : State),
    (∀ c, bytes = [c] → s.tp.cmdFull = false → exec (.hostWrite bytes) s = .next { s with
      tp := { s.tp with cmdByte := c, cmdFull := true }, env := { s.env with reply := .ok } }) ∧
    ((bytes.length ≠ 1 ∨ s.tp.cmdFull = true) →
      exec (.hostWrite bytes) s = .next { s with env := { s.env with reply := .fail } })

/-- R95: `HOST_READ` answers `[]` when no packet is ready, fail when it is longer than maxLen, else the whole
packet, freeing the mailbox. That the result stands in `env.reply` is the model's form (log 15). -/
def Obligations.HostReadTakesAWholePacketOrNothing : Prop :=
  ∀ (maxLen : Nat) (s : State),
    (s.tp.rspValid = false →
      exec (.hostRead maxLen) s = .next { s with env := { s.env with reply := .bytes [] } }) ∧
    (s.tp.rspValid = true → maxLen < s.tp.rspLen →
      exec (.hostRead maxLen) s = .next { s with env := { s.env with reply := .fail } }) ∧
    (s.tp.rspValid = true → s.tp.rspLen ≤ maxLen →
      exec (.hostRead maxLen) s = .next { s with
        tp := { s.tp with rspValid := false },
        env := { s.env with reply := .bytes (s.tp.rspData.toList.take s.tp.rspLen) } })

/-- R28, R96: `HOST_STATUS` returns `TSTAT` with no side effect, its fields at their bits and bits 7:4 zero.
That the result stands in `env.reply` is the model's form (log 15). -/
def Obligations.HostStatusReturnsTstat : Prop :=
  ∀ s : State, exec .hostStatus s = .next { s with env := { s.env with reply := .status (tstat s) } } ∧
    (tstat s).getLsbD 0 = s.tp.cmdFull ∧ (tstat s).getLsbD 1 = s.tp.rspValid ∧
    ((tstat s).getLsbD 2 = true ↔ s.cd.status = .busy) ∧ (tstat s).getLsbD 3 = s.cd.pto ∧
    (tstat s).extractLsb' 4 4 = 0#4

/-- A packet the host has not read, and a command byte the CD has not taken, is never overwritten: while it
stays in its mailbox, every step leaves it as it is. -/
def Obligations.MailboxesAreNeverOverwritten : Prop :=
  ∀ s t : State, step s = .next t →
    (s.tp.rspValid = true → t.tp.rspValid = true →
      t.tp.rspData = s.tp.rspData ∧ t.tp.rspLen = s.tp.rspLen) ∧
    (s.tp.cmdFull = true → t.tp.cmdFull = true → t.tp.cmdByte = s.tp.cmdByte)

/-! ### Decoder and buffer -/

/-- R104: `DECODE_MOTION` adds the signed deltas, wrapping at 32 bits, records deltas and qualities, and
changes nothing else; the seventh byte is not used. -/
def Obligations.DecodeMotionUpdatesTheBuffer : Prop :=
  ∀ (b0 b1 b2 b3 b4 b5 b6 : Byte) (s : State),
    ∃ o : Odometry, exec (.decodeMotion b0 b1 b2 b3 b4 b5 b6) s = .next { s with oa := o } ∧
      o = { s.oa with absX := o.absX, absY := o.absY, lastDx := o.lastDx, lastDy := o.lastDy,
                      quality := o.quality } ∧
      o.absX.s0.toInt = (s.oa.absX.s0.toInt + b0.toInt).bmod (2 ^ 32) ∧
      o.absX.s1.toInt = (s.oa.absX.s1.toInt + b1.toInt).bmod (2 ^ 32) ∧
      o.absY.s0.toInt = (s.oa.absY.s0.toInt + b2.toInt).bmod (2 ^ 32) ∧
      o.absY.s1.toInt = (s.oa.absY.s1.toInt + b3.toInt).bmod (2 ^ 32) ∧
      o.lastDx.s0.toInt = b0.toInt ∧ o.lastDx.s1.toInt = b1.toInt ∧
      o.lastDy.s0.toInt = b2.toInt ∧ o.lastDy.s1.toInt = b3.toInt ∧
      o.quality.s0.toInt = b4.toNat ∧ o.quality.s1.toInt = b5.toNat

/-- R105: after a session reset, or in any state with the power-on values, any number of `DECODE_MOTION`
operations leave the wrapped sums of the deltas, each exact while it fits; no other OA operation but
`SESSION_RESET` writes the sums. -/
def Obligations.AbsoluteSumsAreTheWrappedDeltaSums : Prop :=
  (∀ (s : State) (ds : List Bytes7), (∃ u, exec .sessionReset u = .next s) ∨ PowerOnValues s →
    ∃ t, execAll (ds.map decodeOp) s = .next t ∧
      t.oa.absX.s0.toInt = (deltaSum Bytes7.b0 ds).bmod (2 ^ 32) ∧
      t.oa.absX.s1.toInt = (deltaSum Bytes7.b1 ds).bmod (2 ^ 32) ∧
      t.oa.absY.s0.toInt = (deltaSum Bytes7.b2 ds).bmod (2 ^ 32) ∧
      t.oa.absY.s1.toInt = (deltaSum Bytes7.b3 ds).bmod (2 ^ 32) ∧
      (-(2 ^ 31) ≤ deltaSum Bytes7.b0 ds → deltaSum Bytes7.b0 ds < 2 ^ 31 →
        t.oa.absX.s0.toInt = deltaSum Bytes7.b0 ds) ∧
      (-(2 ^ 31) ≤ deltaSum Bytes7.b1 ds → deltaSum Bytes7.b1 ds < 2 ^ 31 →
        t.oa.absX.s1.toInt = deltaSum Bytes7.b1 ds) ∧
      (-(2 ^ 31) ≤ deltaSum Bytes7.b2 ds → deltaSum Bytes7.b2 ds < 2 ^ 31 →
        t.oa.absY.s0.toInt = deltaSum Bytes7.b2 ds) ∧
      (-(2 ^ 31) ≤ deltaSum Bytes7.b3 ds → deltaSum Bytes7.b3 ds < 2 ^ 31 →
        t.oa.absY.s1.toInt = deltaSum Bytes7.b3 ds)) ∧
  (∀ (i : Instr) (s t : State), exec i s = .next t →
    t.oa.absX ≠ s.oa.absX ∨ t.oa.absY ≠ s.oa.absY →
    i = .sessionReset ∨ ∃ b0 b1 b2 b3 b4 b5 b6, i = .decodeMotion b0 b1 b2 b3 b4 b5 b6)

/-- R106: `STORE_PIXEL_PAIR` stores both bytes unchanged at the write index, advances it modulo 361, and
leaves every other element and everything else as it was. -/
def Obligations.StorePixelPairWritesOneElementOfEachFrame : Prop :=
  ∀ (p0 p1 : Byte) (s : State), ∃ o : Odometry,
    exec (.storePixelPair p0 p1) s = .next { s with oa := o } ∧
    o = { s.oa with frame0 := o.frame0, frame1 := o.frame1, pixIdx := o.pixIdx } ∧
    memRead o.frame0 s.oa.pixIdx.val = some p0 ∧ memRead o.frame1 s.oa.pixIdx.val = some p1 ∧
    (∀ j, j ≠ s.oa.pixIdx.val → memRead o.frame0 j = memRead s.oa.frame0 j ∧
      memRead o.frame1 j = memRead s.oa.frame1 j) ∧
    o.pixIdx.val = (s.oa.pixIdx.val + 1) % 361

/-- R107: 361 pairs stored from index 0 are the two frames, whatever was there before, and the index is 0
again. -/
def Obligations.FullGrabFillsBothFramesInOrder : Prop :=
  ∀ (ps : List (Byte × Byte)) (s : State), ps.length = 361 → s.oa.pixIdx = 0 →
    ∃ t, execAll (ps.map fun p => .storePixelPair p.1 p.2) s = .next t ∧ t.oa.pixIdx = 0 ∧
      ∀ (j : Nat) (p : Byte × Byte), ps[j]? = some p →
        frame0At t j = some p.1 ∧ frame1At t j = some p.2

/-- R108: `SET_MODE` writes `MODE` and nothing else. -/
def Obligations.SetModeWritesOnlyMode : Prop :=
  ∀ (m : Mode) (s : State), exec (.setMode m) s = .next { s with oa := { s.oa with mode := m } }

/-- R109: `SESSION_RESET` zeroes the ten buffer fields and the write index and keeps everything else. -/
def Obligations.SessionResetZeroesTheBuffer : Prop :=
  ∀ s : State, exec .sessionReset s = .next { s with oa := { s.oa with
    absX := ⟨0, 0⟩, absY := ⟨0, 0⟩, lastDx := ⟨0, 0⟩, lastDy := ⟨0, 0⟩, quality := ⟨0, 0⟩,
    pixIdx := 0 } }

/-- R110: `SET_BTN` writes the button-released flag, and no other operation writes it. -/
def Obligations.OnlySetBtnWritesTheButtonFlag : Prop :=
  (∀ (b : Bool) (s : State), exec (.setBtn b) s = .next { s with oa := { s.oa with btnRel := b } }) ∧
  (∀ (i : Instr) (s t : State), exec i s = .next t → (∀ b, i ≠ .setBtn b) → t.oa.btnRel = s.oa.btnRel)

/-- R111: `SET_CAL` stores the three patterns unchanged, whatever they are. -/
def Obligations.SetCalStoresThePatterns : Prop :=
  ∀ (c0 c1 circ : F64) (s : State), exec (.setCal c0 c1 circ) s = .next { s with oa :=
    { s.oa with cal0 := c0, cal1 := c1, circ := circ } }

/-- R124: an operation word whose `OP` is 0x7 to 0xF sets `OA_ERR.ILLEGAL_OP` and does nothing else. -/
def Obligations.ReservedCodesRaiseIllegalOp : Prop :=
  (∀ (i : Instr) (s : State), (i = .reservedOa7 ∨ ∃ low, i = .reservedOa8F low) →
    ∃ v, exec i s = .next { s with oa := { s.oa with oaErr := v } } ∧ v.getLsbD 0 = true ∧
      ∀ k, k ≠ 0 → v.getLsbD k = s.oa.oaErr.getLsbD k) ∧
  (∀ w : OaWord, 0x7 ≤ w.op.toNat →
    ∃ i, decode (.oa w) = .ok i ∧ (i = .reservedOa7 ∨ ∃ low, i = .reservedOa8F low))

/-! ### Odometry -/

/-- R112: `TICK` is nothing in per-sensor mode; in free-ball mode the checks run in order, the first failing
one raises its error and changes nothing else, and otherwise the new position, heading and history are
committed all together. -/
def Obligations.TickFollowsItsRule : Prop :=
  (∀ s : State, s.oa.mode = .perSensor → exec .tick s = .next s) ∧
  (∀ (s : State) (rot0 rot1 roll0 roll1 dist dH x y h0 h : F64), s.oa.mode = .freeBall →
    rot0 = fDiv (fOfInt s.oa.lastDx.s0.toInt) s.oa.cal0 →
    rot1 = fDiv (fOfInt s.oa.lastDx.s1.toInt) s.oa.cal1 →
    roll0 = fDiv (fOfInt s.oa.lastDy.s0.toInt) s.oa.cal0 →
    roll1 = fDiv (fOfInt s.oa.lastDy.s1.toInt) s.oa.cal1 →
    dist = fMul s.oa.circ (fSqrt (fAdd (fMul roll0 roll0) (fMul roll1 roll1))) →
    dH = fMul fPi (fAdd rot0 rot1) →
    x = fAdd s.oa.posX (fMul dist (fcosOf s.params s.oa.heading)) →
    y = fAdd s.oa.posY (fMul dist (fsinOf s.params s.oa.heading)) →
    h0 = fAdd s.oa.heading dH →
    h = (if fGe h0 fTwoPi then fSub h0 fTwoPi else if fLt h0 (fZero false) then fAdd h0 fTwoPi else h0) →
    exec .tick s = .next (
      if ¬(fIsFinite s.oa.cal0 = true ∧ fIsZero s.oa.cal0 = false ∧ fIsFinite s.oa.cal1 = true ∧
          fIsZero s.oa.cal1 = false ∧ fIsFinite s.oa.circ = true) then
        { s with oa := { s.oa with oaErr := s.oa.oaErr ||| 0x02#8 } }
      else if ¬(fIsFinite x = true ∧ fIsFinite y = true ∧ fIsFinite h = true) then
        { s with oa := { s.oa with oaErr := s.oa.oaErr ||| 0x04#8 } }
      else if ¬(fIsFinite (fMul x fTwo) = true ∧ fIsFinite (fMul y fTwo) = true ∧
          -(2 ^ 31) ≤ fRoundHalfAway (fMul x fTwo) ∧ fRoundHalfAway (fMul x fTwo) < 2 ^ 31 ∧
          -(2 ^ 31) ≤ fRoundHalfAway (fMul y fTwo) ∧ fRoundHalfAway (fMul y fTwo) < 2 ^ 31) then
        { s with oa := { s.oa with oaErr := s.oa.oaErr ||| 0x08#8 } }
      else { s with oa := { s.oa with
        posX := x, posY := y, heading := h, hist := ((BitVec.ofInt 32 (fRoundHalfAway (fMul x fTwo)),
                  BitVec.ofInt 32 (fRoundHalfAway (fMul y fTwo))) :: s.oa.hist).dropLast } }))

/-- A free-ball `TICK` whose checks pass commits the new position of R112; R117: the new heading is the old one
plus the turn, wrapped once; R114: the new coordinates stand in front of the history, every other entry one
place back, the oldest discarded. -/
def Obligations.FreeBallTickCommits : Prop :=
  ∀ (s : State) (hx hy : Coord), s.oa.mode = .freeBall → calUsable s.oa = true →
    fIsFinite (tickX s.params s.oa) = true → fIsFinite (tickY s.params s.oa) = true →
    fIsFinite (tickHeading s.oa) = true →
    histCoord (tickX s.params s.oa) = some hx → histCoord (tickY s.params s.oa) = some hy →
    ∃ o : Odometry, exec .tick s = .next { s with oa := o } ∧
      o = { s.oa with posX := o.posX, posY := o.posY, heading := o.heading, hist := o.hist } ∧
      o.heading = wrapHeading (fAdd s.oa.heading (fMul fPi (fAdd
        (fDiv (fOfInt s.oa.lastDx.s0.toInt) s.oa.cal0) (fDiv (fOfInt s.oa.lastDx.s1.toInt) s.oa.cal1)))) ∧
      o.posX = fAdd s.oa.posX (fMul (tickDistance s.oa) (fcosOf s.params s.oa.heading)) ∧
      o.posY = fAdd s.oa.posY (fMul (tickDistance s.oa) (fsinOf s.params s.oa.heading)) ∧
      o.hist.length = s.oa.hist.length ∧ (0 < s.oa.hist.length → o.hist[0]? = some (hx, hy)) ∧
      (∀ k, k + 1 < s.oa.hist.length → o.hist[k + 1]? = s.oa.hist[k]?)

/-- R113: the wrap adds or subtracts `TWO_PI` at most once: at or above it, below zero, or not at all; -0.0
and every NaN stay as they are. -/
def Obligations.HeadingWrapsAtMostOnce : Prop :=
  ∀ h : F64,
    (fGe h fTwoPi = true → wrapHeading h = fSub h fTwoPi) ∧
    (fGe h fTwoPi = false → fLt h (fZero false) = true → wrapHeading h = fAdd h fTwoPi) ∧
    (fGe h fTwoPi = false → fLt h (fZero false) = false → wrapHeading h = h) ∧
    ¬(fGe h fTwoPi = true ∧ fLt h (fZero false) = true) ∧
    wrapHeading (fZero true) = fZero true ∧ (fIsNaN h = true → wrapHeading h = h)

/-- R115: the result of `TICK` is a function of the listed inputs, FCOS and FSIN standing in the model's form
(log 4): two states that agree on them agree on the new position, heading and history, whatever errors are
already recorded; they raise the same error or none, so they agree on `OA_ERR` after it if they did
before; and it performs no I/O. -/
def Obligations.TickDependsOnlyOnItsInputs : Prop :=
  ∀ s t s' t' : State, s.oa.mode = t.oa.mode → s.oa.lastDx = t.oa.lastDx → s.oa.lastDy = t.oa.lastDy →
    s.oa.cal0 = t.oa.cal0 → s.oa.cal1 = t.oa.cal1 → s.oa.circ = t.oa.circ →
    s.oa.heading = t.oa.heading → s.oa.posX = t.oa.posX → s.oa.posY = t.oa.posY →
    s.oa.hist = t.oa.hist → s.params.trig = t.params.trig →
    exec .tick s = .next s' → exec .tick t = .next t' →
    s'.oa.heading = t'.oa.heading ∧ s'.oa.posX = t'.oa.posX ∧ s'.oa.posY = t'.oa.posY ∧
    s'.oa.hist = t'.oa.hist ∧
    (∃ raised : BitVec 8, s'.oa.oaErr = s.oa.oaErr ||| raised ∧ t'.oa.oaErr = t.oa.oaErr ||| raised) ∧
    (s.oa.oaErr = t.oa.oaErr → s'.oa.oaErr = t'.oa.oaErr) ∧
    s'.se = s.se ∧ s'.cd = s.cd ∧ s'.tp = s.tp ∧ s'.params = s.params ∧ s'.env = s.env

/-- R116: heading and position stay finite, and the history stays full, in every step. -/
def Obligations.OdometryStaysFinite : Prop :=
  ∀ s t : State, OdometryOk s → step s = .next t → OdometryOk t

/-- R123: `OA_ERR` bits are sticky: only a power-on reset clears one. -/
def Obligations.ErrorBitsAreSticky : Prop :=
  ∀ (s t : State) (k : Nat), (∀ rest, s.env.agenda ≠ .powerOn :: rest) → step s = .next t →
    s.oa.oaErr.getLsbD k = true → t.oa.oaErr.getLsbD k = true

/-- R15: the five operations are the IEEE 754 ones, rounded to nearest, ties to even. On finite operands each
answers the exact result rounded (its value, exponent, overflow to infinity and sign of zero: see
`IsRounded`); a NaN operand gives a NaN; infinities, zero divisors and negative radicands are as IEEE 754
has them. First the two steps every rounded result goes through: a quotient is rounded to the nearest
integer, a tie to the even one, and the integer root under `fSqrt` is exact. -/
def Obligations.RoundingIsToNearestEven : Prop :=
  (∀ num den : Nat, 0 < den →
    2 * num ≤ (2 * divNearestEven num den + 1) * den ∧ 2 * divNearestEven num den * den ≤ 2 * num + den ∧
    (2 * num = (2 * divNearestEven num den + 1) * den ∨ 2 * divNearestEven num den * den = 2 * num + den →
      divNearestEven num den % 2 = 0)) ∧
  (∀ n : Nat, n < 2 ^ 180 →
    isqrtBits 90 n 0 * isqrtBits 90 n 0 ≤ n ∧ n < (isqrtBits 90 n 0 + 1) * (isqrtBits 90 n 0 + 1)) ∧
  (∀ a b : F64, fIsNaN a = true ∨ fIsNaN b = true →
    fIsNaN (fAdd a b) = true ∧ fIsNaN (fSub a b) = true ∧ fIsNaN (fMul a b) = true ∧ fIsNaN (fDiv a b) = true) ∧
  (∀ a b : F64, fIsFinite a = true → fIsFinite b = true →
    IsRounded (fVal a + fVal b) (fNeg a && fNeg b) (fAdd a b) ∧
    IsRounded (fVal a - fVal b) (fNeg a && !fNeg b) (fSub a b) ∧
    IsRounded (fVal a * fVal b) (fNeg a != fNeg b) (fMul a b) ∧
    (fVal b ≠ 0 → IsRounded (fVal a / fVal b) (fNeg a != fNeg b) (fDiv a b)) ∧
    (fVal b = 0 → fVal a ≠ 0 → fDiv a b = fInf (fNeg a != fNeg b)) ∧
    (fVal b = 0 → fVal a = 0 → fIsNaN (fDiv a b) = true)) ∧
  (∀ a b : F64, fIsInf a = true → fIsInf b = true →
    fMul a b = fInf (fNeg a != fNeg b) ∧ fIsNaN (fDiv a b) = true ∧
    (fNeg a = fNeg b → fAdd a b = a ∧ fIsNaN (fSub a b) = true) ∧
    (fNeg a ≠ fNeg b → fIsNaN (fAdd a b) = true ∧ fSub a b = a)) ∧
  (∀ a b : F64, fIsInf a = true → fIsFinite b = true →
    fAdd a b = a ∧ fAdd b a = a ∧ fSub a b = a ∧ fSub b a = fInf (!fNeg a) ∧
    fDiv a b = fInf (fNeg a != fNeg b) ∧ fDiv b a = fZero (fNeg a != fNeg b) ∧
    (fVal b = 0 → fIsNaN (fMul a b) = true ∧ fIsNaN (fMul b a) = true) ∧
    (fVal b ≠ 0 → fMul a b = fInf (fNeg a != fNeg b) ∧ fMul b a = fInf (fNeg a != fNeg b))) ∧
  (∀ a : F64,
    (fIsNaN a = true → fIsNaN (fSqrt a) = true) ∧ (fIsZero a = true → fSqrt a = a) ∧
    (fIsZero a = false → fNeg a = true → fIsNaN (fSqrt a) = true) ∧ (a = fInf false → fSqrt a = a) ∧
    (fIsFinite a = true → 0 < fVal a → IsRounded (Real.sqrt (fVal a)) false (fSqrt a)))

/-- R16: `roundHalfAway` is the nearest integer of the value's own sign, a tie going away from zero; a value
with no fraction bits is itself. -/
def Obligations.RoundHalfAwayIsNearestTiesAway : Prop :=
  ∀ a : F64,
    (fNeg a = true → fRoundHalfAway a ≤ 0) ∧ (fNeg a = false → 0 ≤ fRoundHalfAway a) ∧
    (1075 ≤ fScale a → (fRoundHalfAway a).natAbs = fMant a * 2 ^ (fScale a - 1075)) ∧
    (fScale a < 1075 →
      2 * (fRoundHalfAway a).natAbs * 2 ^ (1075 - fScale a) ≤ 2 * fMant a + 2 ^ (1075 - fScale a) ∧
      2 * fMant a + 2 ^ (1075 - fScale a) <
        (2 * (fRoundHalfAway a).natAbs + 2) * 2 ^ (1075 - fScale a))

/-- R15: `toF` is exact for |z| <= 2^53, and so for every integer the block converts, whose value is given in
integers; beyond, it rounds. R112, R113: the comparisons are those of the values, with the infinities at
both ends, false on a NaN. `TWO_PI` is twice `PI`. -/
def Obligations.ConversionsAndComparisonsAreExact : Prop :=
  (∀ b : Byte, fIsFinite (fOfInt b.toInt) = true ∧
    fSignedMant (fOfInt b.toInt) * 2 ^ fScale (fOfInt b.toInt) = b.toInt * 2 ^ 1075 ∧
    fRoundHalfAway (fOfInt b.toInt) = b.toInt) ∧
  (∀ z : Int, z.natAbs ≤ 2 ^ 53 → fIsFinite (fOfInt z) = true ∧ fVal (fOfInt z) = z) ∧
  (∀ z : Int, IsRounded z false (fOfInt z)) ∧
  (∀ a b : F64, fLt a b = true ↔ fIsNaN a = false ∧ fIsNaN b = false ∧ ValueBelow a b) ∧
  (∀ a b : F64, fGe a b = true ↔ fIsNaN a = false ∧ fIsNaN b = false ∧ ¬ValueBelow a b) ∧
  fVal fTwoPi = 2 * fVal fPi

/-! ### Snapshots and frames between the units -/

/-- R46, R118: a snapshot returns a copy of all OA state with the output `MODE` selects, and changes nothing in
the block. -/
def Obligations.SnapshotCopiesAllOaState : Prop :=
  ∀ (s : State) (rest : List Turn), s.env.agenda = .snapshot :: rest →
    ∃ v : Snapshot, step s = .next { s with env := { s.env with agenda := rest, view := some v } } ∧
      v.oa = s.oa ∧
      (s.oa.mode = .perSensor →
        v.output = .perSensor (s.oa.absX.s0, s.oa.absY.s0) (s.oa.absX.s1, s.oa.absY.s1)) ∧
      (s.oa.mode = .freeBall → v.output = .freeBall s.oa.heading s.oa.posX s.oa.posY s.oa.hist)

/-- R132: the CD/SE agent shares only the mailboxes with the host and nothing with the OA: a step of a command
routine, SEND, READ or EMIT leaves all OA state, every frame element, the parameters and what the host
holds as they were, writes `CMD_BYTE` never, and without an emission leaves the response mailbox alone. -/
def Obligations.CommandsLeaveTheOaAlone : Prop :=
  ∀ (i : Instr) (s t : State), (isCommand i = true ∨ (∃ v, i = .send v) ∨ i = .read ∨ ∃ bs, i = .emit bs) →
    exec i s = .next t →
    t.oa = s.oa ∧ t.params = s.params ∧ (∀ j, frame0At t j = frame0At s j ∧ frame1At t j = frame1At s j) ∧
    t.env.agenda = s.env.agenda ∧ t.env.reply = s.env.reply ∧ t.env.query = s.env.query ∧
    t.env.view = s.env.view ∧
    t.se.chsel = s.se.chsel ∧ t.tp.cmdByte = s.tp.cmdByte ∧
    (s.tp.rspValid = true → t.tp.rspValid = true ∧ t.tp.rspData = s.tp.rspData ∧
      t.tp.rspLen = s.tp.rspLen) ∧
    (t.tp.rspValid = false → t.tp.rspData = s.tp.rspData ∧ t.tp.rspLen = s.tp.rspLen)

/-- R132, R84: the OA operations leave the bus, the Shift Engine, the CD and its routine, the transport and
the surroundings as they were; only `STORE_PIXEL_PAIR` changes a frame element. -/
def Obligations.OaOperationsLeaveTheBusAlone : Prop :=
  ∀ (w : OaWord) (i : Instr) (s t : State), decode (.oa w) = .ok i → exec i s = .next t →
    t.se = s.se ∧ t.cd = s.cd ∧ t.tp = s.tp ∧ t.params = s.params ∧ t.env = s.env ∧
    ((∀ p0 p1, i ≠ .storePixelPair p0 p1) →
      ∀ j, frame0At t j = frame0At s j ∧ frame1At t j = frame1At s j)

/-- R84, R132: a host operation leaves the bus, the CD and its routine and all OA state as they were; of the
surroundings it changes only the reply. -/
def Obligations.HostOperationsTouchOnlyTheMailboxes : Prop :=
  ∀ (i : Instr) (s t : State),
    ((∃ bs, i = .hostWrite bs) ∨ (∃ n, i = .hostRead n) ∨ i = .hostStatus) → exec i s = .next t →
    t.se = s.se ∧ t.cd = s.cd ∧ t.oa = s.oa ∧ t.params = s.params ∧
    t.env = { s.env with reply := t.env.reply } ∧ t.tp.rspData = s.tp.rspData ∧
    t.tp.rspLen = s.tp.rspLen ∧
    (t.tp.cmdFull ≠ s.tp.cmdFull → ∃ c, i = .hostWrite [c]) ∧
    (t.tp.rspValid ≠ s.tp.rspValid → ∃ n, i = .hostRead n)
end

