-- ==== Sys2Proof/Laws/State.lean ====
section
/-! SUPPORT. The small lemmas of the state's updates: for each named operation, what each part of the
state is after it. All are true by unfolding once, and no later proof unfolds a record update. -/
namespace Sys2Proof.Machine

/-! ### `goto` -/

@[simp] theorem goto_se (l : Label) (s : State) : (goto l s).se = s.se := rfl
@[simp] theorem goto_status (l : Label) (s : State) : (goto l s).cd.status = s.cd.status := rfl
@[simp] theorem goto_cmd (l : Label) (s : State) : (goto l s).cd.cmd = s.cd.cmd := rfl
@[simp] theorem goto_label (l : Label) (s : State) : (goto l s).cd.label = l := rfl
@[simp] theorem goto_pixK (l : Label) (s : State) : (goto l s).cd.pixK = s.cd.pixK := rfl
@[simp] theorem goto_pollCnt (l : Label) (s : State) : (goto l s).cd.pollCnt = s.cd.pollCnt := rfl
@[simp] theorem goto_rb (l : Label) (s : State) : (goto l s).cd.rb = s.cd.rb := rfl
@[simp] theorem goto_pto (l : Label) (s : State) : (goto l s).cd.pto = s.cd.pto := rfl
@[simp] theorem goto_tp (l : Label) (s : State) : (goto l s).tp = s.tp := rfl
@[simp] theorem goto_oa (l : Label) (s : State) : (goto l s).oa = s.oa := rfl
@[simp] theorem goto_params (l : Label) (s : State) : (goto l s).params = s.params := rfl
@[simp] theorem goto_env (l : Label) (s : State) : (goto l s).env = s.env := rfl

/-! ### `endRoutine` -/

@[simp] theorem endRoutine_se (s : State) : (endRoutine s).se = s.se := rfl
@[simp] theorem endRoutine_status (s : State) : (endRoutine s).cd.status = .idle := rfl
@[simp] theorem endRoutine_cmd (s : State) : (endRoutine s).cd.cmd = s.cd.cmd := rfl
@[simp] theorem endRoutine_label (s : State) : (endRoutine s).cd.label = s.cd.label := rfl
@[simp] theorem endRoutine_pixK (s : State) : (endRoutine s).cd.pixK = s.cd.pixK := rfl
@[simp] theorem endRoutine_pollCnt (s : State) : (endRoutine s).cd.pollCnt = s.cd.pollCnt := rfl
@[simp] theorem endRoutine_rb (s : State) : (endRoutine s).cd.rb = s.cd.rb := rfl
@[simp] theorem endRoutine_pto (s : State) : (endRoutine s).cd.pto = s.cd.pto := rfl
@[simp] theorem endRoutine_tp (s : State) : (endRoutine s).tp = s.tp := rfl
@[simp] theorem endRoutine_oa (s : State) : (endRoutine s).oa = s.oa := rfl
@[simp] theorem endRoutine_params (s : State) : (endRoutine s).params = s.params := rfl
@[simp] theorem endRoutine_env (s : State) : (endRoutine s).env = s.env := rfl

/-! ### `setPixK` -/

@[simp] theorem setPixK_se (k : Nat) (s : State) : (setPixK k s).se = s.se := rfl
@[simp] theorem setPixK_status (k : Nat) (s : State) : (setPixK k s).cd.status = s.cd.status := rfl
@[simp] theorem setPixK_cmd (k : Nat) (s : State) : (setPixK k s).cd.cmd = s.cd.cmd := rfl
@[simp] theorem setPixK_label (k : Nat) (s : State) : (setPixK k s).cd.label = s.cd.label := rfl
@[simp] theorem setPixK_pixK (k : Nat) (s : State) : (setPixK k s).cd.pixK = k := rfl
@[simp] theorem setPixK_pollCnt (k : Nat) (s : State) : (setPixK k s).cd.pollCnt = s.cd.pollCnt := rfl
@[simp] theorem setPixK_rb (k : Nat) (s : State) : (setPixK k s).cd.rb = s.cd.rb := rfl
@[simp] theorem setPixK_pto (k : Nat) (s : State) : (setPixK k s).cd.pto = s.cd.pto := rfl
@[simp] theorem setPixK_tp (k : Nat) (s : State) : (setPixK k s).tp = s.tp := rfl
@[simp] theorem setPixK_oa (k : Nat) (s : State) : (setPixK k s).oa = s.oa := rfl
@[simp] theorem setPixK_params (k : Nat) (s : State) : (setPixK k s).params = s.params := rfl
@[simp] theorem setPixK_env (k : Nat) (s : State) : (setPixK k s).env = s.env := rfl

/-! ### `acceptCommand` -/

@[simp] theorem acceptCommand_se (l : Label) (s : State) : (acceptCommand l s).se = s.se := rfl
@[simp] theorem acceptCommand_status (l : Label) (s : State) : (acceptCommand l s).cd.status = .busy := rfl
@[simp] theorem acceptCommand_cmd (l : Label) (s : State) : (acceptCommand l s).cd.cmd = s.tp.cmdByte := rfl
@[simp] theorem acceptCommand_label (l : Label) (s : State) : (acceptCommand l s).cd.label = l := rfl
@[simp] theorem acceptCommand_pixK (l : Label) (s : State) : (acceptCommand l s).cd.pixK = s.cd.pixK := rfl
@[simp] theorem acceptCommand_pollCnt (l : Label) (s : State) : (acceptCommand l s).cd.pollCnt = s.cd.pollCnt := rfl
@[simp] theorem acceptCommand_rb (l : Label) (s : State) : (acceptCommand l s).cd.rb = s.cd.rb := rfl
@[simp] theorem acceptCommand_pto (l : Label) (s : State) : (acceptCommand l s).cd.pto = false := rfl
@[simp] theorem acceptCommand_cmdFull (l : Label) (s : State) : (acceptCommand l s).tp.cmdFull = false := rfl
@[simp] theorem acceptCommand_cmdByte (l : Label) (s : State) : (acceptCommand l s).tp.cmdByte = s.tp.cmdByte := rfl
@[simp] theorem acceptCommand_rspValid (l : Label) (s : State) : (acceptCommand l s).tp.rspValid = s.tp.rspValid := rfl
@[simp] theorem acceptCommand_rspLen (l : Label) (s : State) : (acceptCommand l s).tp.rspLen = s.tp.rspLen := rfl
@[simp] theorem acceptCommand_rspData (l : Label) (s : State) : (acceptCommand l s).tp.rspData = s.tp.rspData := rfl
@[simp] theorem acceptCommand_oa (l : Label) (s : State) : (acceptCommand l s).oa = s.oa := rfl
@[simp] theorem acceptCommand_params (l : Label) (s : State) : (acceptCommand l s).params = s.params := rfl
@[simp] theorem acceptCommand_env (l : Label) (s : State) : (acceptCommand l s).env = s.env := rfl

/-! ### `placePacket` -/

@[simp] theorem placePacket_se (bs : List Byte) (s : State) : (placePacket bs s).se = s.se := rfl
@[simp] theorem placePacket_cd (bs : List Byte) (s : State) : (placePacket bs s).cd = s.cd := rfl
@[simp] theorem placePacket_cmdFull (bs : List Byte) (s : State) : (placePacket bs s).tp.cmdFull = s.tp.cmdFull := rfl
@[simp] theorem placePacket_cmdByte (bs : List Byte) (s : State) : (placePacket bs s).tp.cmdByte = s.tp.cmdByte := rfl
@[simp] theorem placePacket_rspValid (bs : List Byte) (s : State) : (placePacket bs s).tp.rspValid = true := rfl
@[simp] theorem placePacket_rspLen (bs : List Byte) (s : State) : (placePacket bs s).tp.rspLen = bs.length := rfl
@[simp] theorem placePacket_rspData (bs : List Byte) (s : State) : (placePacket bs s).tp.rspData = writeBytes s.tp.rspData bs := rfl
@[simp] theorem placePacket_oa (bs : List Byte) (s : State) : (placePacket bs s).oa = s.oa := rfl
@[simp] theorem placePacket_params (bs : List Byte) (s : State) : (placePacket bs s).params = s.params := rfl
@[simp] theorem placePacket_env (bs : List Byte) (s : State) : (placePacket bs s).env = s.env := rfl

/-! ### `keepPair` -/

@[simp] theorem keepPair_se (f : Bytes7 → Byte → Byte → Bytes7) (s : State) : (keepPair f s).se = s.se := rfl
@[simp] theorem keepPair_status (f : Bytes7 → Byte → Byte → Bytes7) (s : State) : (keepPair f s).cd.status = s.cd.status := rfl
@[simp] theorem keepPair_cmd (f : Bytes7 → Byte → Byte → Bytes7) (s : State) : (keepPair f s).cd.cmd = s.cd.cmd := rfl
@[simp] theorem keepPair_label (f : Bytes7 → Byte → Byte → Bytes7) (s : State) : (keepPair f s).cd.label = s.cd.label := rfl
@[simp] theorem keepPair_pixK (f : Bytes7 → Byte → Byte → Bytes7) (s : State) : (keepPair f s).cd.pixK = s.cd.pixK := rfl
@[simp] theorem keepPair_pollCnt (f : Bytes7 → Byte → Byte → Bytes7) (s : State) : (keepPair f s).cd.pollCnt = s.cd.pollCnt := rfl
@[simp] theorem keepPair_rb (f : Bytes7 → Byte → Byte → Bytes7) (s : State) : (keepPair f s).cd.rb = f s.cd.rb s.se.rx0 s.se.rx1 := rfl
@[simp] theorem keepPair_pto (f : Bytes7 → Byte → Byte → Bytes7) (s : State) : (keepPair f s).cd.pto = s.cd.pto := rfl
@[simp] theorem keepPair_tp (f : Bytes7 → Byte → Byte → Bytes7) (s : State) : (keepPair f s).tp = s.tp := rfl
@[simp] theorem keepPair_oa (f : Bytes7 → Byte → Byte → Bytes7) (s : State) : (keepPair f s).oa = s.oa := rfl
@[simp] theorem keepPair_params (f : Bytes7 → Byte → Byte → Bytes7) (s : State) : (keepPair f s).params = s.params := rfl
@[simp] theorem keepPair_env (f : Bytes7 → Byte → Byte → Bytes7) (s : State) : (keepPair f s).env = s.env := rfl

/-! ### `sampleAux` -/

@[simp] theorem sampleAux_se (s : State) : (sampleAux s).se = s.se := rfl
@[simp] theorem sampleAux_status (s : State) : (sampleAux s).cd.status = s.cd.status := rfl
@[simp] theorem sampleAux_cmd (s : State) : (sampleAux s).cd.cmd = s.cd.cmd := rfl
@[simp] theorem sampleAux_label (s : State) : (sampleAux s).cd.label = s.cd.label := rfl
@[simp] theorem sampleAux_pixK (s : State) : (sampleAux s).cd.pixK = s.cd.pixK := rfl
@[simp] theorem sampleAux_pollCnt (s : State) : (sampleAux s).cd.pollCnt = s.cd.pollCnt := rfl
@[simp] theorem sampleAux_rb (s : State) : (sampleAux s).cd.rb = { s.cd.rb with b6 := auxNow s.env } := rfl
@[simp] theorem sampleAux_pto (s : State) : (sampleAux s).cd.pto = s.cd.pto := rfl
@[simp] theorem sampleAux_tp (s : State) : (sampleAux s).tp = s.tp := rfl
@[simp] theorem sampleAux_oa (s : State) : (sampleAux s).oa = s.oa := rfl
@[simp] theorem sampleAux_params (s : State) : (sampleAux s).params = s.params := rfl
@[simp] theorem sampleAux_agenda (s : State) : (sampleAux s).env.agenda = s.env.agenda := rfl
@[simp] theorem sampleAux_sensorBits (s : State) : (sampleAux s).env.sensorBits = s.env.sensorBits := rfl
@[simp] theorem sampleAux_auxBytes (s : State) : (sampleAux s).env.auxBytes = s.env.auxBytes.tail := rfl
@[simp] theorem sampleAux_draws (s : State) : (sampleAux s).env.draws = s.env.draws + 1 := rfl
@[simp] theorem sampleAux_reply (s : State) : (sampleAux s).env.reply = s.env.reply := rfl
@[simp] theorem sampleAux_view (s : State) : (sampleAux s).env.view = s.env.view := rfl
@[simp] theorem sampleAux_query (s : State) : (sampleAux s).env.query = s.env.query := rfl

/-! ### `raiseOaError` -/

@[simp] theorem raiseOaError_se (code : OaErrorCode) (s : State) : (raiseOaError code s).se = s.se := rfl
@[simp] theorem raiseOaError_cd (code : OaErrorCode) (s : State) : (raiseOaError code s).cd = s.cd := rfl
@[simp] theorem raiseOaError_tp (code : OaErrorCode) (s : State) : (raiseOaError code s).tp = s.tp := rfl
@[simp] theorem raiseOaError_absX (code : OaErrorCode) (s : State) : (raiseOaError code s).oa.absX = s.oa.absX := rfl
@[simp] theorem raiseOaError_absY (code : OaErrorCode) (s : State) : (raiseOaError code s).oa.absY = s.oa.absY := rfl
@[simp] theorem raiseOaError_lastDx (code : OaErrorCode) (s : State) : (raiseOaError code s).oa.lastDx = s.oa.lastDx := rfl
@[simp] theorem raiseOaError_lastDy (code : OaErrorCode) (s : State) : (raiseOaError code s).oa.lastDy = s.oa.lastDy := rfl
@[simp] theorem raiseOaError_quality (code : OaErrorCode) (s : State) : (raiseOaError code s).oa.quality = s.oa.quality := rfl
@[simp] theorem raiseOaError_btnRel (code : OaErrorCode) (s : State) : (raiseOaError code s).oa.btnRel = s.oa.btnRel := rfl
@[simp] theorem raiseOaError_mode (code : OaErrorCode) (s : State) : (raiseOaError code s).oa.mode = s.oa.mode := rfl
@[simp] theorem raiseOaError_cal0 (code : OaErrorCode) (s : State) : (raiseOaError code s).oa.cal0 = s.oa.cal0 := rfl
@[simp] theorem raiseOaError_cal1 (code : OaErrorCode) (s : State) : (raiseOaError code s).oa.cal1 = s.oa.cal1 := rfl
@[simp] theorem raiseOaError_circ (code : OaErrorCode) (s : State) : (raiseOaError code s).oa.circ = s.oa.circ := rfl
@[simp] theorem raiseOaError_oaErr (code : OaErrorCode) (s : State) : (raiseOaError code s).oa.oaErr = setOaError s.oa.oaErr code := rfl
@[simp] theorem raiseOaError_heading (code : OaErrorCode) (s : State) : (raiseOaError code s).oa.heading = s.oa.heading := rfl
@[simp] theorem raiseOaError_posX (code : OaErrorCode) (s : State) : (raiseOaError code s).oa.posX = s.oa.posX := rfl
@[simp] theorem raiseOaError_posY (code : OaErrorCode) (s : State) : (raiseOaError code s).oa.posY = s.oa.posY := rfl
@[simp] theorem raiseOaError_hist (code : OaErrorCode) (s : State) : (raiseOaError code s).oa.hist = s.oa.hist := rfl
@[simp] theorem raiseOaError_frame0 (code : OaErrorCode) (s : State) : (raiseOaError code s).oa.frame0 = s.oa.frame0 := rfl
@[simp] theorem raiseOaError_frame1 (code : OaErrorCode) (s : State) : (raiseOaError code s).oa.frame1 = s.oa.frame1 := rfl
@[simp] theorem raiseOaError_pixIdx (code : OaErrorCode) (s : State) : (raiseOaError code s).oa.pixIdx = s.oa.pixIdx := rfl
@[simp] theorem raiseOaError_params (code : OaErrorCode) (s : State) : (raiseOaError code s).params = s.params := rfl
@[simp] theorem raiseOaError_env (code : OaErrorCode) (s : State) : (raiseOaError code s).env = s.env := rfl

/-! ### `answerHost` -/

@[simp] theorem answerHost_se (v : HostReply) (s : State) : (answerHost v s).se = s.se := rfl
@[simp] theorem answerHost_cd (v : HostReply) (s : State) : (answerHost v s).cd = s.cd := rfl
@[simp] theorem answerHost_tp (v : HostReply) (s : State) : (answerHost v s).tp = s.tp := rfl
@[simp] theorem answerHost_oa (v : HostReply) (s : State) : (answerHost v s).oa = s.oa := rfl
@[simp] theorem answerHost_params (v : HostReply) (s : State) : (answerHost v s).params = s.params := rfl
@[simp] theorem answerHost_agenda (v : HostReply) (s : State) : (answerHost v s).env.agenda = s.env.agenda := rfl
@[simp] theorem answerHost_sensorBits (v : HostReply) (s : State) : (answerHost v s).env.sensorBits = s.env.sensorBits := rfl
@[simp] theorem answerHost_auxBytes (v : HostReply) (s : State) : (answerHost v s).env.auxBytes = s.env.auxBytes := rfl
@[simp] theorem answerHost_draws (v : HostReply) (s : State) : (answerHost v s).env.draws = s.env.draws := rfl
@[simp] theorem answerHost_reply (v : HostReply) (s : State) : (answerHost v s).env.reply = v := rfl
@[simp] theorem answerHost_view (v : HostReply) (s : State) : (answerHost v s).env.view = s.env.view := rfl
@[simp] theorem answerHost_query (v : HostReply) (s : State) : (answerHost v s).env.query = s.env.query := rfl

/-! ### `takeSnapshot` -/

@[simp] theorem takeSnapshot_se (s : State) : (takeSnapshot s).se = s.se := rfl
@[simp] theorem takeSnapshot_cd (s : State) : (takeSnapshot s).cd = s.cd := rfl
@[simp] theorem takeSnapshot_tp (s : State) : (takeSnapshot s).tp = s.tp := rfl
@[simp] theorem takeSnapshot_oa (s : State) : (takeSnapshot s).oa = s.oa := rfl
@[simp] theorem takeSnapshot_params (s : State) : (takeSnapshot s).params = s.params := rfl
@[simp] theorem takeSnapshot_agenda (s : State) : (takeSnapshot s).env.agenda = s.env.agenda := rfl
@[simp] theorem takeSnapshot_sensorBits (s : State) : (takeSnapshot s).env.sensorBits = s.env.sensorBits := rfl
@[simp] theorem takeSnapshot_auxBytes (s : State) : (takeSnapshot s).env.auxBytes = s.env.auxBytes := rfl
@[simp] theorem takeSnapshot_draws (s : State) : (takeSnapshot s).env.draws = s.env.draws := rfl
@[simp] theorem takeSnapshot_reply (s : State) : (takeSnapshot s).env.reply = s.env.reply := rfl
@[simp] theorem takeSnapshot_view (s : State) : (takeSnapshot s).env.view = some (snapshotOf s) := rfl
@[simp] theorem takeSnapshot_query (s : State) : (takeSnapshot s).env.query = s.env.query := rfl

/-! ### `postCommand` -/

@[simp] theorem postCommand_se (c : Byte) (s : State) : (postCommand c s).se = s.se := rfl
@[simp] theorem postCommand_cd (c : Byte) (s : State) : (postCommand c s).cd = s.cd := rfl
@[simp] theorem postCommand_cmdFull (c : Byte) (s : State) : (postCommand c s).tp.cmdFull = true := rfl
@[simp] theorem postCommand_cmdByte (c : Byte) (s : State) : (postCommand c s).tp.cmdByte = c := rfl
@[simp] theorem postCommand_rspValid (c : Byte) (s : State) : (postCommand c s).tp.rspValid = s.tp.rspValid := rfl
@[simp] theorem postCommand_rspLen (c : Byte) (s : State) : (postCommand c s).tp.rspLen = s.tp.rspLen := rfl
@[simp] theorem postCommand_rspData (c : Byte) (s : State) : (postCommand c s).tp.rspData = s.tp.rspData := rfl
@[simp] theorem postCommand_oa (c : Byte) (s : State) : (postCommand c s).oa = s.oa := rfl
@[simp] theorem postCommand_params (c : Byte) (s : State) : (postCommand c s).params = s.params := rfl
@[simp] theorem postCommand_env (c : Byte) (s : State) : (postCommand c s).env = s.env := rfl

/-! ### `takePacket` -/

@[simp] theorem takePacket_se (s : State) : (takePacket s).se = s.se := rfl
@[simp] theorem takePacket_cd (s : State) : (takePacket s).cd = s.cd := rfl
@[simp] theorem takePacket_cmdFull (s : State) : (takePacket s).tp.cmdFull = s.tp.cmdFull := rfl
@[simp] theorem takePacket_cmdByte (s : State) : (takePacket s).tp.cmdByte = s.tp.cmdByte := rfl
@[simp] theorem takePacket_rspValid (s : State) : (takePacket s).tp.rspValid = false := rfl
@[simp] theorem takePacket_rspLen (s : State) : (takePacket s).tp.rspLen = s.tp.rspLen := rfl
@[simp] theorem takePacket_rspData (s : State) : (takePacket s).tp.rspData = s.tp.rspData := rfl
@[simp] theorem takePacket_oa (s : State) : (takePacket s).oa = s.oa := rfl
@[simp] theorem takePacket_params (s : State) : (takePacket s).params = s.params := rfl
@[simp] theorem takePacket_env (s : State) : (takePacket s).env = s.env := rfl

/-! ### `noteQuery` -/

@[simp] theorem noteQuery_se (q : Query) (s : State) : (noteQuery q s).se = s.se := rfl
@[simp] theorem noteQuery_cd (q : Query) (s : State) : (noteQuery q s).cd = s.cd := rfl
@[simp] theorem noteQuery_tp (q : Query) (s : State) : (noteQuery q s).tp = s.tp := rfl
@[simp] theorem noteQuery_oa (q : Query) (s : State) : (noteQuery q s).oa = s.oa := rfl
@[simp] theorem noteQuery_params (q : Query) (s : State) : (noteQuery q s).params = s.params := rfl
@[simp] theorem noteQuery_agenda (q : Query) (s : State) : (noteQuery q s).env.agenda = s.env.agenda := rfl
@[simp] theorem noteQuery_sensorBits (q : Query) (s : State) : (noteQuery q s).env.sensorBits = s.env.sensorBits := rfl
@[simp] theorem noteQuery_auxBytes (q : Query) (s : State) : (noteQuery q s).env.auxBytes = s.env.auxBytes := rfl
@[simp] theorem noteQuery_draws (q : Query) (s : State) : (noteQuery q s).env.draws = s.env.draws := rfl
@[simp] theorem noteQuery_reply (q : Query) (s : State) : (noteQuery q s).env.reply = s.env.reply := rfl
@[simp] theorem noteQuery_view (q : Query) (s : State) : (noteQuery q s).env.view = s.env.view := rfl
@[simp] theorem noteQuery_query (q : Query) (s : State) : (noteQuery q s).env.query = q := rfl

/-! ### `dropTurn` -/

@[simp] theorem dropTurn_se (s : State) : (dropTurn s).se = s.se := rfl
@[simp] theorem dropTurn_cd (s : State) : (dropTurn s).cd = s.cd := rfl
@[simp] theorem dropTurn_tp (s : State) : (dropTurn s).tp = s.tp := rfl
@[simp] theorem dropTurn_oa (s : State) : (dropTurn s).oa = s.oa := rfl
@[simp] theorem dropTurn_params (s : State) : (dropTurn s).params = s.params := rfl
@[simp] theorem dropTurn_agenda (s : State) : (dropTurn s).env.agenda = s.env.agenda.tail := rfl
@[simp] theorem dropTurn_sensorBits (s : State) : (dropTurn s).env.sensorBits = s.env.sensorBits := rfl
@[simp] theorem dropTurn_auxBytes (s : State) : (dropTurn s).env.auxBytes = s.env.auxBytes := rfl
@[simp] theorem dropTurn_draws (s : State) : (dropTurn s).env.draws = s.env.draws := rfl
@[simp] theorem dropTurn_reply (s : State) : (dropTurn s).env.reply = s.env.reply := rfl
@[simp] theorem dropTurn_view (s : State) : (dropTurn s).env.view = s.env.view := rfl
@[simp] theorem dropTurn_query (s : State) : (dropTurn s).env.query = s.env.query := rfl

/-! ### `powerOnReset` -/

@[simp] theorem powerOnReset_se (s : State) : (powerOnReset s).se = (State.powerOn s.params).se := rfl
@[simp] theorem powerOnReset_cd (s : State) : (powerOnReset s).cd = (State.powerOn s.params).cd := rfl
@[simp] theorem powerOnReset_tp (s : State) : (powerOnReset s).tp = (State.powerOn s.params).tp := rfl
@[simp] theorem powerOnReset_oa (s : State) : (powerOnReset s).oa = (State.powerOn s.params).oa := rfl
@[simp] theorem powerOnReset_params (s : State) : (powerOnReset s).params = s.params := rfl
@[simp] theorem powerOnReset_env (s : State) : (powerOnReset s).env = s.env := rfl

/-! ### The OA updates -/

@[simp] theorem decodeMotionInto_absX (b0 b1 b2 b3 b4 b5 : Byte) (o : Odometry) : (decodeMotionInto b0 b1 b2 b3 b4 b5 o).absX = ⟨accAdd o.absX.s0 (s8 b0), accAdd o.absX.s1 (s8 b1)⟩ := rfl
@[simp] theorem decodeMotionInto_absY (b0 b1 b2 b3 b4 b5 : Byte) (o : Odometry) : (decodeMotionInto b0 b1 b2 b3 b4 b5 o).absY = ⟨accAdd o.absY.s0 (s8 b2), accAdd o.absY.s1 (s8 b3)⟩ := rfl
@[simp] theorem decodeMotionInto_lastDx (b0 b1 b2 b3 b4 b5 : Byte) (o : Odometry) : (decodeMotionInto b0 b1 b2 b3 b4 b5 o).lastDx = ⟨wrapAcc (s8 b0), wrapAcc (s8 b1)⟩ := rfl
@[simp] theorem decodeMotionInto_lastDy (b0 b1 b2 b3 b4 b5 : Byte) (o : Odometry) : (decodeMotionInto b0 b1 b2 b3 b4 b5 o).lastDy = ⟨wrapAcc (s8 b2), wrapAcc (s8 b3)⟩ := rfl
@[simp] theorem decodeMotionInto_quality (b0 b1 b2 b3 b4 b5 : Byte) (o : Odometry) : (decodeMotionInto b0 b1 b2 b3 b4 b5 o).quality = ⟨wrapAcc (u8 b4), wrapAcc (u8 b5)⟩ := rfl
@[simp] theorem decodeMotionInto_btnRel (b0 b1 b2 b3 b4 b5 : Byte) (o : Odometry) : (decodeMotionInto b0 b1 b2 b3 b4 b5 o).btnRel = o.btnRel := rfl
@[simp] theorem decodeMotionInto_mode (b0 b1 b2 b3 b4 b5 : Byte) (o : Odometry) : (decodeMotionInto b0 b1 b2 b3 b4 b5 o).mode = o.mode := rfl
@[simp] theorem decodeMotionInto_cal0 (b0 b1 b2 b3 b4 b5 : Byte) (o : Odometry) : (decodeMotionInto b0 b1 b2 b3 b4 b5 o).cal0 = o.cal0 := rfl
@[simp] theorem decodeMotionInto_cal1 (b0 b1 b2 b3 b4 b5 : Byte) (o : Odometry) : (decodeMotionInto b0 b1 b2 b3 b4 b5 o).cal1 = o.cal1 := rfl
@[simp] theorem decodeMotionInto_circ (b0 b1 b2 b3 b4 b5 : Byte) (o : Odometry) : (decodeMotionInto b0 b1 b2 b3 b4 b5 o).circ = o.circ := rfl
@[simp] theorem decodeMotionInto_oaErr (b0 b1 b2 b3 b4 b5 : Byte) (o : Odometry) : (decodeMotionInto b0 b1 b2 b3 b4 b5 o).oaErr = o.oaErr := rfl
@[simp] theorem decodeMotionInto_heading (b0 b1 b2 b3 b4 b5 : Byte) (o : Odometry) : (decodeMotionInto b0 b1 b2 b3 b4 b5 o).heading = o.heading := rfl
@[simp] theorem decodeMotionInto_posX (b0 b1 b2 b3 b4 b5 : Byte) (o : Odometry) : (decodeMotionInto b0 b1 b2 b3 b4 b5 o).posX = o.posX := rfl
@[simp] theorem decodeMotionInto_posY (b0 b1 b2 b3 b4 b5 : Byte) (o : Odometry) : (decodeMotionInto b0 b1 b2 b3 b4 b5 o).posY = o.posY := rfl
@[simp] theorem decodeMotionInto_hist (b0 b1 b2 b3 b4 b5 : Byte) (o : Odometry) : (decodeMotionInto b0 b1 b2 b3 b4 b5 o).hist = o.hist := rfl
@[simp] theorem decodeMotionInto_frame0 (b0 b1 b2 b3 b4 b5 : Byte) (o : Odometry) : (decodeMotionInto b0 b1 b2 b3 b4 b5 o).frame0 = o.frame0 := rfl
@[simp] theorem decodeMotionInto_frame1 (b0 b1 b2 b3 b4 b5 : Byte) (o : Odometry) : (decodeMotionInto b0 b1 b2 b3 b4 b5 o).frame1 = o.frame1 := rfl
@[simp] theorem decodeMotionInto_pixIdx (b0 b1 b2 b3 b4 b5 : Byte) (o : Odometry) : (decodeMotionInto b0 b1 b2 b3 b4 b5 o).pixIdx = o.pixIdx := rfl

@[simp] theorem storePairInto_absX (p0 p1 : Byte) (o : Odometry) : (storePairInto p0 p1 o).absX = o.absX := rfl
@[simp] theorem storePairInto_absY (p0 p1 : Byte) (o : Odometry) : (storePairInto p0 p1 o).absY = o.absY := rfl
@[simp] theorem storePairInto_lastDx (p0 p1 : Byte) (o : Odometry) : (storePairInto p0 p1 o).lastDx = o.lastDx := rfl
@[simp] theorem storePairInto_lastDy (p0 p1 : Byte) (o : Odometry) : (storePairInto p0 p1 o).lastDy = o.lastDy := rfl
@[simp] theorem storePairInto_quality (p0 p1 : Byte) (o : Odometry) : (storePairInto p0 p1 o).quality = o.quality := rfl
@[simp] theorem storePairInto_btnRel (p0 p1 : Byte) (o : Odometry) : (storePairInto p0 p1 o).btnRel = o.btnRel := rfl
@[simp] theorem storePairInto_mode (p0 p1 : Byte) (o : Odometry) : (storePairInto p0 p1 o).mode = o.mode := rfl
@[simp] theorem storePairInto_cal0 (p0 p1 : Byte) (o : Odometry) : (storePairInto p0 p1 o).cal0 = o.cal0 := rfl
@[simp] theorem storePairInto_cal1 (p0 p1 : Byte) (o : Odometry) : (storePairInto p0 p1 o).cal1 = o.cal1 := rfl
@[simp] theorem storePairInto_circ (p0 p1 : Byte) (o : Odometry) : (storePairInto p0 p1 o).circ = o.circ := rfl
@[simp] theorem storePairInto_oaErr (p0 p1 : Byte) (o : Odometry) : (storePairInto p0 p1 o).oaErr = o.oaErr := rfl
@[simp] theorem storePairInto_heading (p0 p1 : Byte) (o : Odometry) : (storePairInto p0 p1 o).heading = o.heading := rfl
@[simp] theorem storePairInto_posX (p0 p1 : Byte) (o : Odometry) : (storePairInto p0 p1 o).posX = o.posX := rfl
@[simp] theorem storePairInto_posY (p0 p1 : Byte) (o : Odometry) : (storePairInto p0 p1 o).posY = o.posY := rfl
@[simp] theorem storePairInto_hist (p0 p1 : Byte) (o : Odometry) : (storePairInto p0 p1 o).hist = o.hist := rfl
@[simp] theorem storePairInto_frame0 (p0 p1 : Byte) (o : Odometry) : (storePairInto p0 p1 o).frame0 = memWrite o.frame0 o.pixIdx.val p0 := rfl
@[simp] theorem storePairInto_frame1 (p0 p1 : Byte) (o : Odometry) : (storePairInto p0 p1 o).frame1 = memWrite o.frame1 o.pixIdx.val p1 := rfl
@[simp] theorem storePairInto_pixIdx (p0 p1 : Byte) (o : Odometry) : (storePairInto p0 p1 o).pixIdx = nextPixIdx o.pixIdx := rfl

@[simp] theorem sessionResetInto_absX (o : Odometry) : (sessionResetInto o).absX = ⟨0, 0⟩ := rfl
@[simp] theorem sessionResetInto_absY (o : Odometry) : (sessionResetInto o).absY = ⟨0, 0⟩ := rfl
@[simp] theorem sessionResetInto_lastDx (o : Odometry) : (sessionResetInto o).lastDx = ⟨0, 0⟩ := rfl
@[simp] theorem sessionResetInto_lastDy (o : Odometry) : (sessionResetInto o).lastDy = ⟨0, 0⟩ := rfl
@[simp] theorem sessionResetInto_quality (o : Odometry) : (sessionResetInto o).quality = ⟨0, 0⟩ := rfl
@[simp] theorem sessionResetInto_btnRel (o : Odometry) : (sessionResetInto o).btnRel = o.btnRel := rfl
@[simp] theorem sessionResetInto_mode (o : Odometry) : (sessionResetInto o).mode = o.mode := rfl
@[simp] theorem sessionResetInto_cal0 (o : Odometry) : (sessionResetInto o).cal0 = o.cal0 := rfl
@[simp] theorem sessionResetInto_cal1 (o : Odometry) : (sessionResetInto o).cal1 = o.cal1 := rfl
@[simp] theorem sessionResetInto_circ (o : Odometry) : (sessionResetInto o).circ = o.circ := rfl
@[simp] theorem sessionResetInto_oaErr (o : Odometry) : (sessionResetInto o).oaErr = o.oaErr := rfl
@[simp] theorem sessionResetInto_heading (o : Odometry) : (sessionResetInto o).heading = o.heading := rfl
@[simp] theorem sessionResetInto_posX (o : Odometry) : (sessionResetInto o).posX = o.posX := rfl
@[simp] theorem sessionResetInto_posY (o : Odometry) : (sessionResetInto o).posY = o.posY := rfl
@[simp] theorem sessionResetInto_hist (o : Odometry) : (sessionResetInto o).hist = o.hist := rfl
@[simp] theorem sessionResetInto_frame0 (o : Odometry) : (sessionResetInto o).frame0 = o.frame0 := rfl
@[simp] theorem sessionResetInto_frame1 (o : Odometry) : (sessionResetInto o).frame1 = o.frame1 := rfl
@[simp] theorem sessionResetInto_pixIdx (o : Odometry) : (sessionResetInto o).pixIdx = 0 := rfl

@[simp] theorem commitTick_absX (x y h : F64) (e : Coord × Coord) (o : Odometry) : (commitTick x y h e o).absX = o.absX := rfl
@[simp] theorem commitTick_absY (x y h : F64) (e : Coord × Coord) (o : Odometry) : (commitTick x y h e o).absY = o.absY := rfl
@[simp] theorem commitTick_lastDx (x y h : F64) (e : Coord × Coord) (o : Odometry) : (commitTick x y h e o).lastDx = o.lastDx := rfl
@[simp] theorem commitTick_lastDy (x y h : F64) (e : Coord × Coord) (o : Odometry) : (commitTick x y h e o).lastDy = o.lastDy := rfl
@[simp] theorem commitTick_quality (x y h : F64) (e : Coord × Coord) (o : Odometry) : (commitTick x y h e o).quality = o.quality := rfl
@[simp] theorem commitTick_btnRel (x y h : F64) (e : Coord × Coord) (o : Odometry) : (commitTick x y h e o).btnRel = o.btnRel := rfl
@[simp] theorem commitTick_mode (x y h : F64) (e : Coord × Coord) (o : Odometry) : (commitTick x y h e o).mode = o.mode := rfl
@[simp] theorem commitTick_cal0 (x y h : F64) (e : Coord × Coord) (o : Odometry) : (commitTick x y h e o).cal0 = o.cal0 := rfl
@[simp] theorem commitTick_cal1 (x y h : F64) (e : Coord × Coord) (o : Odometry) : (commitTick x y h e o).cal1 = o.cal1 := rfl
@[simp] theorem commitTick_circ (x y h : F64) (e : Coord × Coord) (o : Odometry) : (commitTick x y h e o).circ = o.circ := rfl
@[simp] theorem commitTick_oaErr (x y h : F64) (e : Coord × Coord) (o : Odometry) : (commitTick x y h e o).oaErr = o.oaErr := rfl
@[simp] theorem commitTick_heading (x y h : F64) (e : Coord × Coord) (o : Odometry) : (commitTick x y h e o).heading = h := rfl
@[simp] theorem commitTick_posX (x y h : F64) (e : Coord × Coord) (o : Odometry) : (commitTick x y h e o).posX = x := rfl
@[simp] theorem commitTick_posY (x y h : F64) (e : Coord × Coord) (o : Odometry) : (commitTick x y h e o).posY = y := rfl
@[simp] theorem commitTick_hist (x y h : F64) (e : Coord × Coord) (o : Odometry) : (commitTick x y h e o).hist = histPush o.hist e := rfl
@[simp] theorem commitTick_frame0 (x y h : F64) (e : Coord × Coord) (o : Odometry) : (commitTick x y h e o).frame0 = o.frame0 := rfl
@[simp] theorem commitTick_frame1 (x y h : F64) (e : Coord × Coord) (o : Odometry) : (commitTick x y h e o).frame1 = o.frame1 := rfl
@[simp] theorem commitTick_pixIdx (x y h : F64) (e : Coord × Coord) (o : Odometry) : (commitTick x y h e o).pixIdx = o.pixIdx := rfl

end Sys2Proof.Machine
end

