-- ==== Sys2Proof/Laws/Shift.lean ====
section
/-! SUPPORT. What one micro-phase can do: which parts of the state it leaves alone, and what each phase
of the Shift Engine gives. -/
namespace Sys2Proof.Machine

/-- One micro-phase touches the Shift Engine and, when it samples, the supply of samples; nothing else. -/
theorem microPhase_frame (start : ShiftEngine → ShiftEngine) (s : State) :
    microPhase start s =
      { s with se := (microPhase start s).se,
               env := { s.env with sensorBits := (microPhase start s).env.sensorBits,
                                   draws := (microPhase start s).env.draws } } := by
  cases h : s.se.phase <;> simp [microPhase, h, misoTaken]

@[simp] theorem microPhase_cd (st : ShiftEngine → ShiftEngine) (s : State) :
    (microPhase st s).cd = s.cd := by rw [microPhase_frame]
@[simp] theorem microPhase_tp (st : ShiftEngine → ShiftEngine) (s : State) :
    (microPhase st s).tp = s.tp := by rw [microPhase_frame]
@[simp] theorem microPhase_oa (st : ShiftEngine → ShiftEngine) (s : State) :
    (microPhase st s).oa = s.oa := by rw [microPhase_frame]
@[simp] theorem microPhase_params (st : ShiftEngine → ShiftEngine) (s : State) :
    (microPhase st s).params = s.params := by rw [microPhase_frame]
@[simp] theorem microPhase_agenda (st : ShiftEngine → ShiftEngine) (s : State) :
    (microPhase st s).env.agenda = s.env.agenda := by rw [microPhase_frame]
@[simp] theorem microPhase_auxBytes (st : ShiftEngine → ShiftEngine) (s : State) :
    (microPhase st s).env.auxBytes = s.env.auxBytes := by rw [microPhase_frame]
@[simp] theorem microPhase_reply (st : ShiftEngine → ShiftEngine) (s : State) :
    (microPhase st s).env.reply = s.env.reply := by rw [microPhase_frame]
@[simp] theorem microPhase_view (st : ShiftEngine → ShiftEngine) (s : State) :
    (microPhase st s).env.view = s.env.view := by rw [microPhase_frame]
@[simp] theorem microPhase_query (st : ShiftEngine → ShiftEngine) (s : State) :
    (microPhase st s).env.query = s.env.query := by rw [microPhase_frame]

@[simp] theorem sendPhase_cd (v : Byte) (s : State) : (sendPhase v s).cd = s.cd := microPhase_cd _ s
@[simp] theorem sendPhase_tp (v : Byte) (s : State) : (sendPhase v s).tp = s.tp := microPhase_tp _ s
@[simp] theorem sendPhase_oa (v : Byte) (s : State) : (sendPhase v s).oa = s.oa := microPhase_oa _ s
@[simp] theorem sendPhase_params (v : Byte) (s : State) : (sendPhase v s).params = s.params :=
  microPhase_params _ s
@[simp] theorem readPhase_cd (s : State) : (readPhase s).cd = s.cd := microPhase_cd _ s
@[simp] theorem readPhase_tp (s : State) : (readPhase s).tp = s.tp := microPhase_tp _ s
@[simp] theorem readPhase_oa (s : State) : (readPhase s).oa = s.oa := microPhase_oa _ s
@[simp] theorem readPhase_params (s : State) : (readPhase s).params = s.params := microPhase_params _ s

/-! ### The phases -/

@[simp] theorem startSend_phase (v : Byte) (e : ShiftEngine) : (startSend v e).phase = .txA := rfl
@[simp] theorem startSend_sclk (v : Byte) (e : ShiftEngine) : (startSend v e).sclk = false := rfl
@[simp] theorem startRead_phase (e : ShiftEngine) : (startRead e).phase = .rxH := rfl
@[simp] theorem startRead_sclk (e : ShiftEngine) : (startRead e).sclk = false := rfl
@[simp] theorem startRead_mosi (e : ShiftEngine) : (startRead e).mosi = e.mosi := rfl
@[simp] theorem phaseTxL_phase (e : ShiftEngine) : (phaseTxL e).phase = .txA := rfl
@[simp] theorem phaseTxA_phase (e : ShiftEngine) : (phaseTxA e).phase = .txH := rfl
@[simp] theorem phaseRxL_phase (e : ShiftEngine) : (phaseRxL e).phase = .rxH := rfl
@[simp] theorem phaseRxH_phase (e : ShiftEngine) : (phaseRxH e).phase = .rxP := rfl

/-- `TX_H` raises the clock and goes on to the settle delay after bit 0, else to the next bit. -/
theorem phaseTxH_cases (p : Nat) (e : ShiftEngine) :
    (phaseTxH p e).sclk = true ∧
    ((e.bitCnt.val = 0 ∧ (phaseTxH p e).phase = .settle ∧ (phaseTxH p e).setCnt = p) ∨
     (e.bitCnt.val ≠ 0 ∧ (phaseTxH p e).phase = .txL ∧ (phaseTxH p e).bitCnt = e.bitCnt - 1)) := by
  by_cases h : e.bitCnt.val = 0 <;> simp [phaseTxH, h]

/-- `RX_P` leaves the lines alone and ends the READ after bit 0, else goes on to the next bit. -/
theorem phaseRxP_cases (m : Bool × Bool) (e : ShiftEngine) :
    (phaseRxP m e).sclk = e.sclk ∧ (phaseRxP m e).mosi = e.mosi ∧
    (phaseRxP m e).rx0 = shiftIn e.rx0 m.1 ∧ (phaseRxP m e).rx1 = shiftIn e.rx1 m.2 ∧
    ((e.bitCnt.val = 0 ∧ (phaseRxP m e).phase = .idle) ∨
     (e.bitCnt.val ≠ 0 ∧ (phaseRxP m e).phase = .rxL ∧ (phaseRxP m e).bitCnt = e.bitCnt - 1)) := by
  by_cases h : e.bitCnt.val = 0 <;> simp [phaseRxP, h]

end Sys2Proof.Machine
end

