-- ==== Sys2Proof/Laws/Commands.lean ====
section
/-! SUPPORT. What one step of the CD/SE agent can do: one lemma per shared operation, cited where a
claim is about a command. -/
namespace Sys2Proof.Machine

/-- What a routine's step can do, said once: it stalls, it accepts the waiting command, or it performs
a line of the routine. -/
theorem runCommand_cases (c : Byte) (first : Label) (line : State → State) (s : State) :
    (runCommand c first line s = s) ∨
    (s.cd.status = .idle ∧ s.tp.cmdFull = true ∧ s.tp.cmdByte = c ∧
      runCommand c first line s = acceptCommand first s) ∨
    (s.cd.status = .busy ∧ s.cd.cmd = c ∧ runCommand c first line s = line s) := by
  cases h : s.cd.status with
  | idle =>
    by_cases hc : s.tp.cmdFull = true ∧ s.tp.cmdByte = c
    · exact .inr (.inl ⟨rfl, hc.1, hc.2, by simp [runCommand, h, hc]⟩)
    · exact .inl (by simp only [runCommand, h, hc, if_false])
  | busy =>
    by_cases hc : s.cd.cmd = c
    · exact .inr (.inr ⟨rfl, hc, by simp [runCommand, h, hc]⟩)
    · exact .inl (by simp [runCommand, h, hc])

/-- A SEND line performs a micro-phase, and what follows in the step that completes it. -/
theorem sendLine_cases (v : Byte) (after : State → State) (s : State) :
    ((sendPhase v s).se.phase = .idle ∧ sendLine v after s = after (sendPhase v s)) ∨
    ((sendPhase v s).se.phase ≠ .idle ∧ sendLine v after s = sendPhase v s) := by
  by_cases h : (sendPhase v s).se.phase = .idle <;> simp [sendLine, primitiveDone, h]

/-- A READ line performs a micro-phase, and what follows in the step that completes it. -/
theorem readLine_cases (after : State → State) (s : State) :
    ((readPhase s).se.phase = .idle ∧ readLine after s = after (readPhase s)) ∨
    ((readPhase s).se.phase ≠ .idle ∧ readLine after s = readPhase s) := by
  by_cases h : (readPhase s).se.phase = .idle <;> simp [readLine, primitiveDone, h]

/-- An emission waits while a packet is unread, else places the packet. -/
theorem emitLine_cases (bs : List Byte) (after : State → State) (s : State) :
    (s.tp.rspValid = true ∧ emitLine bs after s = s) ∨
    (s.tp.rspValid = false ∧ emitLine bs after s = after (placePacket bs s)) := by
  cases h : s.tp.rspValid <;> simp [emitLine, h]

/-- `P2` ends the routine at 361 pairs, else begins the poll of the next pixel. -/
theorem pixelNext_cases (s : State) :
    (s.cd.pixK = 361 ∧ pixelNext s = endRoutine s) ∨
    (s.cd.pixK ≠ 361 ∧ pixelNext s = { s with cd := { s.cd with pollCnt := 0, label := .p3 } }) := by
  by_cases h : s.cd.pixK = 361 <;> simp [pixelNext, h]

/-- `P5` keeps the pair when both valid bits are set, else discards it. -/
theorem pixelTest_cases (s : State) :
    (pixelValid s.se.rx0 = true ∧ pixelValid s.se.rx1 = true ∧ pixelTest s = pixelKeep s) ∨
    ((pixelValid s.se.rx0 = false ∨ pixelValid s.se.rx1 = false) ∧ pixelTest s = pixelDiscard s) := by
  cases h0 : pixelValid s.se.rx0 <;> cases h1 : pixelValid s.se.rx1 <;> simp [pixelTest, h0, h1]

/-! ### The shape of a routine's step -/

/-- What follows a line writes CD registers only, and never `CMD`. -/
def CdOnly (after : State → State) : Prop := ∀ t, ∃ d : Dispatcher, d.cmd = t.cd.cmd ∧ after t = { t with cd := d }

/-- What a line of a routine can do, said once: CD registers other than `CMD`, together with at most one
micro-phase, one packet placed in a free mailbox, or one sample of AUX_IN. -/
def LineShape (s t : State) : Prop :=
  ∃ d : Dispatcher, d.cmd = s.cd.cmd ∧
    (t = { s with cd := d } ∨ (∃ v, t = { sendPhase v s with cd := d }) ∨ t = { readPhase s with cd := d } ∨
     (∃ bs, s.tp.rspValid = false ∧ packetLength bs.length = true ∧ t = { placePacket bs s with cd := d }) ∨
     t = { s with cd := d, env := auxTaken s.env })

theorem cdOnly_goto (l : Label) : CdOnly (goto l) := fun t => ⟨{ t.cd with label := l }, rfl, rfl⟩

theorem cdOnly_endRoutine : CdOnly endRoutine := fun t => ⟨{ t.cd with status := .idle }, rfl, rfl⟩

theorem cdOnly_keepGoto (l : Label) (f : Bytes7 → Byte → Byte → Bytes7) :
    CdOnly (fun t => goto l (keepPair f t)) :=
  fun t => ⟨{ t.cd with rb := f t.cd.rb t.se.rx0 t.se.rx1, label := l }, rfl, rfl⟩

theorem cdOnly_pixelNext (k : State → Nat) : CdOnly (fun t => pixelNext (setPixK (k t) t)) := by
  intro t
  rcases pixelNext_cases (setPixK (k t) t) with ⟨-, e⟩ | ⟨-, e⟩
  · exact ⟨{ t.cd with pixK := k t, status := .idle }, rfl, e.trans rfl⟩
  · exact ⟨{ t.cd with pixK := k t, pollCnt := 0, label := .p3 }, rfl, e.trans rfl⟩

theorem LineShape.refl (s : State) : LineShape s s := ⟨s.cd, rfl, .inl rfl⟩

theorem LineShape.sendLine {v : Byte} {after : State → State} (h : CdOnly after) (s : State) :
    LineShape s (sendLine v after s) := by
  rcases sendLine_cases v after s with ⟨-, e⟩ | ⟨-, e⟩
  · obtain ⟨d, hd, ha⟩ := h (sendPhase v s)
    exact ⟨d, by rw [hd, sendPhase_cd], .inr (.inl ⟨v, by rw [e, ha]⟩)⟩
  · exact ⟨(sendPhase v s).cd, by rw [sendPhase_cd], .inr (.inl ⟨v, e⟩)⟩

theorem LineShape.readLine {after : State → State} (h : CdOnly after) (s : State) :
    LineShape s (readLine after s) := by
  rcases readLine_cases after s with ⟨-, e⟩ | ⟨-, e⟩
  · obtain ⟨d, hd, ha⟩ := h (readPhase s)
    exact ⟨d, by rw [hd, readPhase_cd], .inr (.inr (.inl (by rw [e, ha])))⟩
  · exact ⟨(readPhase s).cd, by rw [readPhase_cd], .inr (.inr (.inl e))⟩

theorem LineShape.emitLine {bs : List Byte} {after : State → State} (h : CdOnly after)
    (hl : packetLength bs.length = true) (s : State) : LineShape s (emitLine bs after s) := by
  rcases emitLine_cases bs after s with ⟨-, e⟩ | ⟨hv, e⟩
  · rw [e]; exact LineShape.refl s
  · obtain ⟨d, hd, ha⟩ := h (placePacket bs s)
    exact ⟨d, hd, .inr (.inr (.inr (.inl ⟨bs, hv, hl, by rw [e, ha]⟩)))⟩

theorem pixelTest_shape (s : State) : LineShape s (pixelTest s) := by
  rcases pixelTest_cases s with ⟨-, -, e⟩ | ⟨-, e⟩
  · obtain ⟨d, hd, h⟩ := cdOnly_keepGoto .p7
      (fun d r0 r1 => { d with b0 := clearValid r0, b1 := clearValid r1 }) s
    exact ⟨d, hd, .inl (by rw [e]; exact h)⟩
  · rw [e]
    unfold pixelDiscard
    split
    · exact ⟨{ s.cd with label := .p3 }, rfl, .inl rfl⟩
    · split
      · exact ⟨{ s.cd with pollCnt := s.cd.pollCnt + 1, pto := true, status := .idle, label := .p3 }, rfl, .inl rfl⟩
      · exact ⟨{ s.cd with pollCnt := s.cd.pollCnt + 1, label := .p3 }, rfl, .inl rfl⟩

theorem chipResetLine_shape (s : State) : LineShape s (chipResetLine s) := by
  unfold chipResetLine
  split
  · exact .sendLine (cdOnly_goto _) s
  · exact .sendLine cdOnly_endRoutine s
  · exact .refl s

theorem navCtrl2Line_shape (s : State) : LineShape s (navCtrl2Line s) := by
  unfold navCtrl2Line
  split
  · exact .sendLine (cdOnly_goto _) s
  · exact .sendLine cdOnly_endRoutine s
  · exact .refl s

theorem pixelGrabLine_shape (s : State) : LineShape s (pixelGrabLine s) := by
  unfold pixelGrabLine
  split
  · exact .sendLine (cdOnly_goto _) s
  · exact .sendLine (cdOnly_pixelNext fun _ => 0) s
  · exact .sendLine (cdOnly_goto _) s
  · exact .readLine (cdOnly_goto _) s
  · exact pixelTest_shape s
  · exact .emitLine (cdOnly_pixelNext fun t => t.cd.pixK + 1) rfl s
  · exact .refl s

theorem motionLine_shape (s : State) : LineShape s (motionLine s) := by
  unfold motionLine
  split
  · exact .sendLine (cdOnly_goto _) s
  · exact .readLine (cdOnly_goto _) s
  · exact .sendLine (cdOnly_goto _) s
  · exact .readLine (cdOnly_keepGoto _ _) s
  · exact .sendLine (cdOnly_goto _) s
  · exact .readLine (cdOnly_keepGoto _ _) s
  · exact .sendLine (cdOnly_goto _) s
  · exact .readLine (cdOnly_keepGoto _ _) s
  · exact ⟨{ s.cd with rb := { s.cd.rb with b6 := auxNow s.env }, label := .m9 }, rfl,
      .inr (.inr (.inr (.inr rfl)))⟩
  · exact .emitLine cdOnly_endRoutine rfl s
  · exact .refl s

theorem regReadLine_shape (c : Byte) (s : State) : LineShape s (regReadLine c s) := by
  unfold regReadLine
  split
  · exact .sendLine (cdOnly_goto _) s
  · exact .readLine (cdOnly_keepGoto _ _) s
  · exact .emitLine cdOnly_endRoutine rfl s
  · exact .refl s

/-- What a step of a routine can do: a line's shape, or the acceptance of the waiting command. -/
theorem runCommand_shape {c : Byte} {first : Label} {line : State → State} {s : State}
    (h : LineShape s (line s)) :
    LineShape s (runCommand c first line s) ∨
    (s.cd.status = .idle ∧ s.tp.cmdFull = true ∧ s.tp.cmdByte = c ∧
      runCommand c first line s = acceptCommand first s) := by
  rcases runCommand_cases c first line s with e | ⟨h1, h2, h3, e⟩ | ⟨-, -, e⟩
  · exact .inl (by rw [e]; exact .refl s)
  · exact .inr ⟨h1, h2, h3, e⟩
  · exact .inl (by rw [e]; exact h)

/-! ### What a line does to the Shift Engine -/

/-- The Shift Engine stays or performs one micro-phase. -/
def EngineMoves (s t : State) : Prop :=
  t.se = s.se ∨ (∃ v, t.se = (sendPhase v s).se) ∨ t.se = (readPhase s).se

theorem LineShape.engine {s t : State} (h : LineShape s t) : EngineMoves s t := by
  obtain ⟨d, -, rfl | ⟨v, rfl⟩ | rfl | ⟨bs, -, -, rfl⟩ | rfl⟩ := h
  · exact .inl rfl
  · exact .inr (.inl ⟨v, rfl⟩)
  · exact .inr (.inr rfl)
  · exact .inl rfl
  · exact .inl rfl

/-- A line leaves the OA, the parameters, the agenda, the reply, the view and the query as they are. -/
theorem LineShape.keeps {s t : State} (h : LineShape s t) :
    t.oa = s.oa ∧ t.params = s.params ∧ t.env.agenda = s.env.agenda ∧ t.env.reply = s.env.reply ∧
      t.env.view = s.env.view ∧ t.env.query = s.env.query := by
  obtain ⟨d, -, rfl | ⟨v, rfl⟩ | rfl | ⟨bs, -, -, rfl⟩ | rfl⟩ := h
  · exact ⟨rfl, rfl, rfl, rfl, rfl, rfl⟩
  · simp [sendPhase]
  · simp [readPhase]
  · exact ⟨rfl, rfl, rfl, rfl, rfl, rfl⟩
  · exact ⟨rfl, rfl, rfl, rfl, rfl, rfl⟩

/-- A line leaves the command mailbox and `CMD` alone, and an unread packet too. -/
theorem LineShape.mailboxes {s t : State} (h : LineShape s t) :
    t.cd.cmd = s.cd.cmd ∧ t.tp.cmdFull = s.tp.cmdFull ∧ t.tp.cmdByte = s.tp.cmdByte ∧
      (s.tp.rspValid = true → t.tp = s.tp) := by
  obtain ⟨d, hd, rfl | ⟨v, rfl⟩ | rfl | ⟨bs, hv, -, rfl⟩ | rfl⟩ := h
  · exact ⟨hd, rfl, rfl, fun _ => rfl⟩
  · simp [hd]
  · simp [hd]
  · exact ⟨hd, rfl, rfl, fun h => by rw [hv] at h; cases h⟩
  · exact ⟨hd, rfl, rfl, fun _ => rfl⟩

end Sys2Proof.Machine
end

