-- ==== Sys2Proof/Laws/Float64.lean ====
section
/-! SUPPORT. The laws of the binary64 patterns: what the fields of a pattern are, which values are finite ones,
and that `fRound` answers the exact value rounded to nearest, ties to even. -/
namespace Sys2Proof.Machine

/-- The bits of a pattern, as one number. -/
theorem fPattern_toNat (neg : Bool) {mag : Nat} (h : mag < 2 ^ 63) :
    (fPattern neg mag).toNat = neg.toNat * 2 ^ 63 + mag := by
  simp only [fPattern, BitVec.toNat_append, BitVec.toNat_ofBool, BitVec.toNat_ofNat]
  rw [Nat.mod_eq_of_lt h, ← Nat.shiftLeft_add_eq_or_of_lt h, Nat.shiftLeft_eq]

theorem fNeg_toNat (x : F64) : fNeg x = decide (2 ^ 63 ≤ x.toNat) := by
  have := x.isLt
  simp only [fNeg, BitVec.getLsbD, Nat.testBit, Nat.shiftRight_eq_div_pow]
  by_cases h : 2 ^ 63 ≤ x.toNat
  · have : x.toNat / 2 ^ 63 = 1 := by omega
    rw [this, decide_eq_true h]; rfl
  · have : x.toNat / 2 ^ 63 = 0 := by omega
    rw [this, decide_eq_false h]; rfl

theorem fMagField_toNat (x : F64) : fMagField x = x.toNat % 2 ^ 63 := by
  simp [fMagField, BitVec.extractLsb'_toNat]

theorem fExpField_eq (x : F64) : fExpField x = fMagField x / 2 ^ 52 := by
  rw [fMagField_toNat]
  simp only [fExpField, BitVec.extractLsb'_toNat, Nat.shiftRight_eq_div_pow]
  omega

theorem fFracField_eq (x : F64) : fFracField x = fMagField x % 2 ^ 52 := by
  rw [fMagField_toNat]
  simp only [fFracField, BitVec.extractLsb'_toNat, Nat.shiftRight_eq_div_pow]
  omega

@[simp] theorem fNeg_fPattern (neg : Bool) {mag : Nat} (h : mag < 2 ^ 63) : fNeg (fPattern neg mag) = neg := by
  rw [fNeg_toNat, fPattern_toNat neg h]
  cases neg <;> simp [Bool.toNat] <;> omega

@[simp] theorem fMagField_fPattern (neg : Bool) {mag : Nat} (h : mag < 2 ^ 63) :
    fMagField (fPattern neg mag) = mag := by
  rw [fMagField_toNat, fPattern_toNat neg h]
  cases neg <;> simp [Bool.toNat] <;> omega

theorem fMagField_lt (x : F64) : fMagField x < 2 ^ 63 := by
  rw [fMagField_toNat]; exact Nat.mod_lt _ (by positivity)

/-- A pattern is its sign and its magnitude. -/
theorem fPattern_eta (x : F64) : fPattern (fNeg x) (fMagField x) = x := by
  apply BitVec.eq_of_toNat_eq
  rw [fPattern_toNat _ (fMagField_lt x), fNeg_toNat, fMagField_toNat]
  have := x.isLt
  by_cases h : 2 ^ 63 ≤ x.toNat
  · rw [decide_eq_true h]; simp only [Bool.toNat_true]; omega
  · rw [decide_eq_false h]; simp only [Bool.toNat_false]; omega

theorem fIsFinite_iff (x : F64) : fIsFinite x = true ↔ fMagField x < fInfMag := by
  simp only [fIsFinite, decide_eq_true_eq, fExpField_eq, fInfMag]
  have := fMagField_lt x
  omega

theorem fIsNaN_iff (x : F64) : fIsNaN x = true ↔ fInfMag < fMagField x := by
  simp only [fIsNaN, decide_eq_true_eq, fExpField_eq, fFracField_eq, fInfMag]
  have := fMagField_lt x
  omega

theorem fIsInf_iff (x : F64) : fIsInf x = true ↔ fMagField x = fInfMag := by
  simp only [fIsInf, decide_eq_true_eq, fExpField_eq, fFracField_eq, fInfMag]
  have := fMagField_lt x
  omega

/-- The significand has 53 bits, and a smaller one only at the least exponent. -/
theorem fMant_bounds (x : F64) : fMant x < 2 ^ 53 ∧ 1 ≤ fScale x ∧ (fScale x = 1 ∨ 2 ^ 52 ≤ fMant x) := by
  unfold fMant fScale
  have : fFracField x < 2 ^ 52 := by rw [fFracField_eq]; omega
  split <;> omega

/-- The value of a pattern, its sign taken apart. -/
theorem fVal_eq (x : F64) : (fVal x : ℝ) =
    (if fNeg x then -1 else 1) * ((fMant x : ℝ) * 2 ^ ((fScale x : Int) - 1075)) := by
  unfold fVal fSignedMant
  split <;> push_cast <;> ring

@[simp] theorem fNeg_fNegate (x : F64) : fNeg (fNegate x) = !fNeg x := by
  simp only [fNeg, fNegate, BitVec.getLsbD_xor]
  rw [show (0x8000000000000000#64).getLsbD 63 = true by decide, Bool.xor_true]

@[simp] theorem fMagField_fNegate (x : F64) : fMagField (fNegate x) = fMagField x := by
  simp only [fMagField, fNegate, BitVec.extractLsb'_xor]
  rw [show (0x8000000000000000#64).extractLsb' 0 63 = 0 by decide]
  simp

@[simp] theorem fMant_fNegate (x : F64) : fMant (fNegate x) = fMant x := by
  simp [fMant, fExpField_eq, fFracField_eq]

@[simp] theorem fScale_fNegate (x : F64) : fScale (fNegate x) = fScale x := by
  simp [fScale, fExpField_eq]

/-- The pattern with the other sign has the other value. -/
theorem fVal_fNegate (x : F64) : (fVal (fNegate x) : ℝ) = -(fVal x : ℝ) := by
  rw [fVal_eq, fVal_eq]
  cases h : fNeg x <;> simp [h]

/-- Where the significand m at the exponent e stands among the magnitudes, and what its value is. -/
theorem mag_value (neg : Bool) {n m : Nat} (hm : m ≤ 2 ^ 53) (h : n = 0 ∨ 2 ^ 52 ≤ m) (hn : n < 2046) :
    (fMant (fPattern neg (n * 2 ^ 52 + m)) : ℝ) * 2 ^ ((fScale (fPattern neg (n * 2 ^ 52 + m)) : Int) - 1075) =
      m * 2 ^ ((n : Int) - 1074) := by
  have hlt : n * 2 ^ 52 + m < 2 ^ 63 := by omega
  have he : fExpField (fPattern neg (n * 2 ^ 52 + m)) = (n * 2 ^ 52 + m) / 2 ^ 52 := by
    rw [fExpField_eq, fMagField_fPattern neg hlt]
  have hf : fFracField (fPattern neg (n * 2 ^ 52 + m)) = (n * 2 ^ 52 + m) % 2 ^ 52 := by
    rw [fFracField_eq, fMagField_fPattern neg hlt]
  unfold fMant fScale
  rw [he, hf]
  rcases Nat.lt_or_ge m (2 ^ 52) with h1 | h1
  · have hn0 : n = 0 := by omega
    subst hn0
    rw [show (0 * 2 ^ 52 + m) / 2 ^ 52 = 0 by omega, show (0 * 2 ^ 52 + m) % 2 ^ 52 = m by omega]
    norm_num
  · rcases Nat.lt_or_ge m (2 ^ 53) with h2 | h2
    · rw [show (n * 2 ^ 52 + m) / 2 ^ 52 = n + 1 by omega, show (n * 2 ^ 52 + m) % 2 ^ 52 = m - 2 ^ 52 by omega]
      simp only [Nat.succ_ne_zero, if_false]
      rw [show 2 ^ 52 + (m - 2 ^ 52) = m by omega]
      congr 2
      push_cast; ring
    · have : m = 2 ^ 53 := by omega
      subst this
      rw [show (n * 2 ^ 52 + 2 ^ 53) / 2 ^ 52 = n + 2 by omega, show (n * 2 ^ 52 + 2 ^ 53) % 2 ^ 52 = 0 by omega]
      simp only [Nat.succ_ne_zero, if_false]
      rw [show ((n + 2 : Nat) : Int) - 1075 = ((n : Int) - 1074) + 1 by push_cast; ring, zpow_add₀ (by norm_num)]
      push_cast
      ring

/-- The significand's last bit is the fraction's last bit. -/
theorem mag_even (neg : Bool) {n m : Nat} (hm : m ≤ 2 ^ 53) (hn : n < 2046) :
    fFracField (fPattern neg (n * 2 ^ 52 + m)) % 2 = m % 2 := by
  rw [fFracField_eq, fMagField_fPattern neg (by omega)]
  omega

/-- Every finite value is a multiple of the unit of place n, or lies below the least number of that place. -/
theorem value_on_grid (y : F64) (n : Nat) :
    (∃ j : Int, (fVal y : ℝ) = j * 2 ^ ((n : Int) - 1074)) ∨
    (n ≠ 0 ∧ (fVal y : ℝ) < 2 ^ 52 * 2 ^ ((n : Int) - 1074)) := by
  obtain ⟨h1, h2, h3⟩ := fMant_bounds y
  rcases Nat.lt_or_ge (fScale y) (n + 1) with h | h
  · refine .inr ⟨by omega, ?_⟩
    have hle : (fVal y : ℝ) ≤ (fMant y : ℝ) * 2 ^ ((fScale y : Int) - 1075) := by
      rw [fVal_eq]
      have : (0 : ℝ) ≤ (fMant y : ℝ) * 2 ^ ((fScale y : Int) - 1075) := by positivity
      split <;> linarith
    have hm : (fMant y : ℝ) < 2 ^ 53 := by exact_mod_cast h1
    have hp : (2 : ℝ) ^ ((fScale y : Int) - 1075) ≤ 2 ^ ((n : Int) - 1075) :=
      zpow_le_zpow_right₀ (by norm_num) (by omega)
    have hs : (2 : ℝ) ^ 52 * 2 ^ ((n : Int) - 1074) = 2 ^ 53 * 2 ^ ((n : Int) - 1075) := by
      rw [show (n : Int) - 1074 = ((n : Int) - 1075) + 1 by ring, zpow_add₀ (by norm_num)]; ring
    rw [hs]
    calc (fVal y : ℝ) ≤ _ := hle
      _ ≤ (fMant y : ℝ) * 2 ^ ((n : Int) - 1075) := by gcongr
      _ < 2 ^ 53 * 2 ^ ((n : Int) - 1075) := by gcongr
  · refine .inl ⟨fSignedMant y * 2 ^ (fScale y - (n + 1)), ?_⟩
    unfold fVal
    push_cast
    rw [mul_assoc, ← zpow_natCast, ← zpow_add₀ (by norm_num)]
    congr 2
    omega

/-- The nearest multiple of the unit is the nearest finite value. -/
theorem nearest_of_grid {v : ℝ} {n m : Nat} (hlow : n = 0 ∨ 2 ^ 52 * 2 ^ ((n : Int) - 1074) ≤ v)
    (near : |(m : ℝ) * 2 ^ ((n : Int) - 1074) - v| ≤ 2 ^ ((n : Int) - 1074) / 2)
    (tie : |(m : ℝ) * 2 ^ ((n : Int) - 1074) - v| = 2 ^ ((n : Int) - 1074) / 2 → m % 2 = 0) (y : F64) :
    |(m : ℝ) * 2 ^ ((n : Int) - 1074) - v| ≤ |(fVal y : ℝ) - v| ∧
    (|(m : ℝ) * 2 ^ ((n : Int) - 1074) - v| = |(fVal y : ℝ) - v| →
      (fVal y : ℝ) = m * 2 ^ ((n : Int) - 1074) ∨ m % 2 = 0) := by
  have hu : (0 : ℝ) < 2 ^ ((n : Int) - 1074) := by positivity
  have place := value_on_grid y n
  generalize (2 : ℝ) ^ ((n : Int) - 1074) = u at *
  have grid : ∀ j : Int, |(m : ℝ) * u - v| ≤ |(j : ℝ) * u - v| ∧
      (|(m : ℝ) * u - v| = |(j : ℝ) * u - v| → (j : ℝ) * u = m * u ∨ m % 2 = 0) := by
    intro j
    rcases eq_or_ne j m with rfl | hj
    · simp
    · have h1 : (1 : ℝ) ≤ |(j : ℝ) - m| := by
        have : (1 : Int) ≤ |j - m| := Int.one_le_abs (sub_ne_zero.mpr hj)
        exact_mod_cast this
      have h2 : u ≤ |(j : ℝ) * u - v| + |(m : ℝ) * u - v| := by
        calc u = 1 * u := (one_mul u).symm
          _ ≤ |(j : ℝ) - m| * u := by gcongr
          _ = |((j : ℝ) - m) * u| := by rw [abs_mul, abs_of_pos hu]
          _ = |((j : ℝ) * u - v) - ((m : ℝ) * u - v)| := by congr 1; ring
          _ ≤ _ := abs_sub _ _
      refine ⟨by linarith, fun h => .inr (tie (by linarith))⟩
  rcases place with ⟨j, hj⟩ | ⟨hn, hy⟩
  · rw [hj]; exact grid j
  · have hlow' := hlow.resolve_left hn
    have h1 := (grid (2 ^ 52)).1
    rw [show ((2 ^ 52 : Int) : ℝ) = (2 : ℝ) ^ 52 by norm_cast] at h1
    rw [abs_of_nonpos (show (2 : ℝ) ^ 52 * u - v ≤ 0 by linarith)] at h1
    rw [abs_of_neg (show (fVal y : ℝ) - v < 0 by linarith)]
    exact ⟨by linarith, fun h => by linarith⟩

/-- The significand stays in 53 bits. -/
theorem grid_bounds {v : ℝ} {n m : Nat} (hlow : n = 0 ∨ 2 ^ 52 * 2 ^ ((n : Int) - 1074) ≤ v)
    (hup : v < 2 ^ 53 * 2 ^ ((n : Int) - 1074))
    (near : |(m : ℝ) * 2 ^ ((n : Int) - 1074) - v| ≤ 2 ^ ((n : Int) - 1074) / 2) :
    m ≤ 2 ^ 53 ∧ (n = 0 ∨ 2 ^ 52 ≤ m) := by
  have hu : (0 : ℝ) < 2 ^ ((n : Int) - 1074) := by positivity
  generalize (2 : ℝ) ^ ((n : Int) - 1074) = u at *
  rw [abs_le] at near
  constructor
  · have : (m : ℝ) * u < (2 ^ 53 + 1) * u := by linarith
    have := lt_of_mul_lt_mul_right this hu.le
    have : m < 2 ^ 53 + 1 := by exact_mod_cast this
    omega
  · refine hlow.imp id fun h => ?_
    have : (2 ^ 52 : ℝ) * u < (m + 1) * u := by linarith
    have := lt_of_mul_lt_mul_right this hu.le
    have : 2 ^ 52 < m + 1 := by exact_mod_cast this
    omega

/-- The rounded magnitude overflows exactly when the value is at or beyond the midpoint above the largest
finite value. -/
theorem grid_overflow {v : ℝ} {n m : Nat} (hlow : n = 0 ∨ 2 ^ 52 * 2 ^ ((n : Int) - 1074) ≤ v)
    (hup : v < 2 ^ 53 * 2 ^ ((n : Int) - 1074))
    (near : |(m : ℝ) * 2 ^ ((n : Int) - 1074) - v| ≤ 2 ^ ((n : Int) - 1074) / 2)
    (tie : |(m : ℝ) * 2 ^ ((n : Int) - 1074) - v| = 2 ^ ((n : Int) - 1074) / 2 → m % 2 = 0) :
    fInfMag ≤ n * 2 ^ 52 + m ↔ 2 ^ 1024 - 2 ^ 970 ≤ v := by
  obtain ⟨hm, hm'⟩ := grid_bounds hlow hup near
  unfold fInfMag
  rcases Nat.lt_trichotomy n 2045 with h | h | h
  · refine iff_of_false (by omega) ?_
    have : (2 : ℝ) ^ ((n : Int) - 1074) ≤ 2 ^ (970 : Int) := zpow_le_zpow_right₀ (by norm_num) (by omega)
    rw [show (970 : Int) = ((970 : Nat) : Int) from rfl, zpow_natCast] at this
    have : v < 2 ^ 53 * 2 ^ 970 := lt_of_lt_of_le hup (by gcongr)
    rw [not_le]
    refine lt_of_lt_of_le this ?_
    rw [show (2 : ℝ) ^ 1024 = 2 ^ 54 * 2 ^ 970 by rw [← pow_add]]
    have hu : (0 : ℝ) < 2 ^ 970 := by positivity
    generalize (2 : ℝ) ^ 970 = u at *
    linarith
  · subst h
    have e : (2 : ℝ) ^ (((2045 : Nat) : Int) - 1074) = 2 * 2 ^ 970 := by
      rw [show ((2045 : Nat) : Int) - 1074 = ((971 : Nat) : Int) by norm_num, zpow_natCast, pow_succ']
    rw [e] at near tie hup
    rw [show (2 : ℝ) ^ 1024 = 2 ^ 54 * 2 ^ 970 by rw [← pow_add]]
    have hu : (0 : ℝ) < 2 ^ 970 := by positivity
    generalize (2 : ℝ) ^ 970 = u at *
    constructor
    · intro hmag
      have : m = 2 ^ 53 := by omega
      subst this
      push_cast at near
      rw [abs_le] at near
      linarith
    · intro hv
      by_contra hc
      have hm2 : (m : ℝ) ≤ 2 ^ 53 - 1 := by
        have : (m : ℝ) + 1 ≤ 2 ^ 53 := by exact_mod_cast (show m + 1 ≤ 2 ^ 53 by omega)
        linarith
      have hb : (m : ℝ) * (2 * u) ≤ (2 ^ 53 - 1) * (2 * u) := by gcongr
      have hneg : (m : ℝ) * (2 * u) - v ≤ -u := by linarith
      have heq : |(m : ℝ) * (2 * u) - v| = 2 * u / 2 := by
        apply le_antisymm near
        rw [abs_of_neg (by linarith)]
        linarith
      have hodd := tie heq
      rw [abs_of_neg (by linarith)] at heq
      have : (m : ℝ) * (2 * u) = (2 ^ 53 - 1) * (2 * u) := by linarith
      have := mul_right_cancel₀ (by positivity) this
      have : (m : ℝ) + 1 = 2 ^ 53 := by linarith
      have : m + 1 = 2 ^ 53 := by exact_mod_cast this
      omega
  · refine iff_of_true (by omega) ?_
    have hv := hlow.resolve_left (by omega)
    have : (2 : ℝ) ^ (972 : Int) ≤ 2 ^ ((n : Int) - 1074) := zpow_le_zpow_right₀ (by norm_num) (by omega)
    rw [show (972 : Int) = ((972 : Nat) : Int) from rfl, zpow_natCast] at this
    have h2 : (2 : ℝ) ^ 52 * 2 ^ 972 ≤ v := le_trans (by gcongr) hv
    rw [show (2 : ℝ) ^ 972 = 2 ^ 2 * 2 ^ 970 by rw [← pow_add]] at h2
    rw [show (2 : ℝ) ^ 1024 = 2 ^ 54 * 2 ^ 970 by rw [← pow_add]]
    have hu : (0 : ℝ) < 2 ^ 970 := by positivity
    generalize (2 : ℝ) ^ 970 = u at *
    rw [← mul_assoc, show (2 : ℝ) ^ 52 * 2 ^ 2 = 2 ^ 54 by norm_num] at h2
    linarith only [h2, hu]

/-- The magnitude field from the significand at a place, or infinity (the last line of `roundMag`). -/
def saturate (mag : Nat) : Nat := if fInfMag ≤ mag then fInfMag else mag

theorem saturate_lt (mag : Nat) : saturate mag < 2 ^ 63 := by
  unfold saturate fInfMag; split <;> omega

/-- A significand that is nearest at its place, ties to even, is the positive value v rounded, with the
sign put before both. -/
theorem isRounded_of_grid {v : ℝ} {n m : Nat} (hv : 0 < v)
    (hlow : n = 0 ∨ 2 ^ 52 * 2 ^ ((n : Int) - 1074) ≤ v) (hup : v < 2 ^ 53 * 2 ^ ((n : Int) - 1074))
    (near : |(m : ℝ) * 2 ^ ((n : Int) - 1074) - v| ≤ 2 ^ ((n : Int) - 1074) / 2)
    (tie : |(m : ℝ) * 2 ^ ((n : Int) - 1074) - v| = 2 ^ ((n : Int) - 1074) / 2 → m % 2 = 0) (neg z : Bool) :
    IsRounded (if neg then -v else v) z (fPattern neg (saturate (n * 2 ^ 52 + m))) := by
  obtain ⟨hm, hm'⟩ := grid_bounds hlow hup near
  have hover := grid_overflow hlow hup near tie
  have hlt := saturate_lt (n * 2 ^ 52 + m)
  have hsgn : |if neg then -v else v| = v := by cases neg <;> simp [abs_of_pos hv]
  refine ⟨?_, ?_, ?_, ?_, ?_, ?_⟩
  · rw [← Bool.not_eq_true, fIsNaN_iff, fMagField_fPattern neg hlt]
    unfold saturate; split <;> omega
  · intro h; rw [fNeg_fPattern neg hlt]; cases neg
    · simp only [Bool.false_eq_true, if_false] at h; linarith
    · rfl
  · intro h; rw [fNeg_fPattern neg hlt]; cases neg
    · rfl
    · simp only [if_true] at h; linarith
  · intro h; cases neg
    · simp only [Bool.false_eq_true, if_false] at h; linarith
    · simp only [if_true] at h; linarith
  · rw [hsgn, ← hover, ← Bool.not_eq_true, fIsFinite_iff, fMagField_fPattern neg hlt]
    unfold saturate; split <;> omega
  · intro hf y _
    rw [fIsFinite_iff, fMagField_fPattern neg hlt] at hf
    have hs : saturate (n * 2 ^ 52 + m) = n * 2 ^ 52 + m := by
      unfold saturate at hf ⊢; split at hf <;> simp_all
    rw [hs] at hf ⊢
    have hn : n < 2046 := by unfold fInfMag at hf; omega
    rw [mag_even neg hm hn, fVal_eq, fNeg_fPattern neg (by omega), mag_value neg hm hm' hn]
    cases neg
    · simp only [Bool.false_eq_true, if_false, one_mul]
      obtain ⟨a, b⟩ := nearest_of_grid hlow near tie y
      refine ⟨a, fun h => (b h).imp (fun e => ?_) id⟩
      have : (fVal y : ℝ) = (fVal (fPattern false (n * 2 ^ 52 + m)) : ℝ) := by
        rw [e, fVal_eq, fNeg_fPattern false (by omega), mag_value false hm hm' hn]; simp
      exact_mod_cast this
    · simp only [if_true]
      obtain ⟨a, b⟩ := nearest_of_grid hlow near tie (fNegate y)
      have hy : (fVal (fNegate y) : ℝ) = -(fVal y : ℝ) := fVal_fNegate y
      rw [hy] at a b
      have e1 : |-1 * ((m : ℝ) * 2 ^ ((n : Int) - 1074)) - -v| = |(m : ℝ) * 2 ^ ((n : Int) - 1074) - v| := by
        rw [← abs_neg]; congr 1; ring
      have e2 : |(fVal y : ℝ) - -v| = |-(fVal y : ℝ) - v| := by rw [← abs_neg]; congr 1; ring
      rw [e1, e2]
      refine ⟨a, fun h => (b h).imp (fun e => ?_) id⟩
      have : (fVal y : ℝ) = (fVal (fPattern true (n * 2 ^ 52 + m)) : ℝ) := by
        rw [fVal_eq (fPattern _ _), fNeg_fPattern true (by omega), mag_value true hm hm' hn]; simp; linarith
      exact_mod_cast this

/-- The steps of `divNearestEven`: the nearest integer, a tie to the even one. -/
theorem divNearestEven_near (num : Nat) {den : Nat} (h : 0 < den) :
    |(divNearestEven num den : ℝ) - num / den| ≤ 1 / 2 ∧
    (|(divNearestEven num den : ℝ) - num / den| = 1 / 2 → divNearestEven num den % 2 = 0) := by
  have hd : (0 : ℝ) < den := by exact_mod_cast h
  have e : (num : ℝ) = den * (num / den : Nat) + (num % den : Nat) := by exact_mod_cast (Nat.div_add_mod num den).symm
  have hlt := Nat.mod_lt num h
  have e2 : (num : ℝ) / den = (num / den : Nat) + (num % den : Nat) / den := by
    rw [e]; field_simp
  rw [e2]
  simp only [divNearestEven]
  generalize num / den = q at *
  generalize num % den = r at *
  have hr : ((r : ℝ) / den) * den = r := by field_simp
  generalize hx : (r : ℝ) / den = x at *
  have hx0 : 0 ≤ x := by rw [← hx]; positivity
  split
  · rename_i hc
    have h1 : (den : ℝ) ≤ 2 * r := by exact_mod_cast (show den ≤ 2 * r by omega)
    have h2 : (1 : ℝ) / 2 ≤ x := by rw [← hx, le_div_iff₀ hd]; linarith
    have h3 : x < 1 := by rw [← hx, div_lt_one hd]; exact_mod_cast hlt
    have e3 : |((q + 1 : Nat) : ℝ) - (q + x)| = 1 - x := by
      push_cast; rw [abs_of_pos (by linarith)]; ring
    rw [e3]
    refine ⟨by linarith, fun hh => ?_⟩
    have : 2 * r = den := by
      have : (2 : ℝ) * r = den := by rw [← hr]; have : x = 1 / 2 := by linarith
                                     rw [this]; ring
      exact_mod_cast this
    omega
  · rename_i hc
    have h1 : (2 : ℝ) * r ≤ den := by exact_mod_cast (show 2 * r ≤ den by omega)
    have h2 : x ≤ 1 / 2 := by rw [← hx, div_le_iff₀ hd]; linarith
    have e3 : |(q : ℝ) - (q + x)| = x := by
      rw [abs_of_nonpos (by linarith)]; ring
    rw [e3]
    refine ⟨h2, fun hh => ?_⟩
    have : 2 * r = den := by
      have : (2 : ℝ) * r = den := by rw [← hr, hh]; ring
      exact_mod_cast this
    omega

/-- The exponent of the leading bit of a quotient. -/
theorem quotLog2_bounds {num den : Nat} (hn : 0 < num) (hd : 0 < den) :
    (2 : ℝ) ^ quotLog2 num den ≤ num / den ∧ (num : ℝ) / den < 2 ^ (quotLog2 num den + 1) := by
  have hd' : (0 : ℝ) < den := by exact_mod_cast hd
  have n1 : (2 : ℝ) ^ (num.log2 : Int) ≤ num := by
    rw [zpow_natCast]; exact_mod_cast Nat.log2_self_le hn.ne'
  have n2 : (num : ℝ) < 2 ^ ((num.log2 : Int) + 1) := by
    rw [show (num.log2 : Int) + 1 = ((num.log2 + 1 : Nat) : Int) by push_cast; ring, zpow_natCast]
    exact_mod_cast Nat.lt_log2_self
  have d1 : (2 : ℝ) ^ (den.log2 : Int) ≤ den := by
    rw [zpow_natCast]; exact_mod_cast Nat.log2_self_le hd.ne'
  have d2 : (den : ℝ) < 2 ^ ((den.log2 : Int) + 1) := by
    rw [show (den.log2 : Int) + 1 = ((den.log2 + 1 : Nat) : Int) by push_cast; ring, zpow_natCast]
    exact_mod_cast Nat.lt_log2_self
  simp only [quotLog2]
  generalize hD : (num.log2 : Int) - (den.log2 : Int) = d
  have reach : ((if 0 ≤ d then decide (den <<< d.toNat ≤ num) else decide (den ≤ num <<< (-d).toNat)) = true) ↔
      (2 : ℝ) ^ d ≤ num / den := by
    rw [le_div_iff₀ hd']
    split
    · rename_i h
      rw [decide_eq_true_eq, Nat.shiftLeft_eq]
      conv_rhs => rw [← Int.toNat_of_nonneg h, zpow_natCast]
      rw [mul_comm]
      exact_mod_cast Iff.rfl
    · rename_i h
      rw [decide_eq_true_eq, Nat.shiftLeft_eq]
      have : (2 : ℝ) ^ d = (2 ^ (-d).toNat)⁻¹ := by
        rw [← zpow_natCast, Int.toNat_of_nonneg (by omega), zpow_neg, inv_inv]
      rw [this, inv_mul_le_iff₀ (by positivity), mul_comm]
      exact_mod_cast Iff.rfl
  have up : (num : ℝ) / den < 2 ^ (d + 1) := by
    rw [div_lt_iff₀ hd']
    calc (num : ℝ) < 2 ^ ((num.log2 : Int) + 1) := n2
      _ = 2 ^ (d + 1) * 2 ^ (den.log2 : Int) := by rw [← zpow_add₀ (by norm_num)]; congr 1; omega
      _ ≤ _ := by gcongr
  have down : (2 : ℝ) ^ (d - 1) ≤ num / den := by
    rw [le_div_iff₀ hd']
    calc (2 : ℝ) ^ (d - 1) * den ≤ 2 ^ (d - 1) * 2 ^ ((den.log2 : Int) + 1) := by gcongr
      _ = 2 ^ (num.log2 : Int) := by rw [← zpow_add₀ (by norm_num)]; congr 1; omega
      _ ≤ _ := n1
  by_cases h : (2 : ℝ) ^ d ≤ num / den
  · rw [if_pos (reach.mpr h)]; exact ⟨h, up⟩
  · rw [if_neg (fun c => h (reach.mp c))]
    exact ⟨down, by rw [sub_add_cancel]; exact not_le.mp h⟩

/-- The significand of `roundMag` is the quotient rounded at the place of its last bit. -/
theorem place_near (num : Nat) {den : Nat} (hd : 0 < den) (k : Int) (n : Nat) :
    ∃ m, m = (if 0 ≤ (n : Int) - 1074 - k then divNearestEven num (den <<< ((n : Int) - 1074 - k).toNat)
        else divNearestEven (num <<< (-((n : Int) - 1074 - k)).toNat) den) ∧
      |(m : ℝ) * 2 ^ ((n : Int) - 1074) - num / den * 2 ^ k| ≤ 2 ^ ((n : Int) - 1074) / 2 ∧
      (|(m : ℝ) * 2 ^ ((n : Int) - 1074) - num / den * 2 ^ k| = 2 ^ ((n : Int) - 1074) / 2 → m % 2 = 0) := by
  have hd' : (0 : ℝ) < den := by exact_mod_cast hd
  have hu : (0 : ℝ) < 2 ^ ((n : Int) - 1074) := by positivity
  have scaled : ∀ m : Nat, ∀ x : ℝ, x * 2 ^ ((n : Int) - 1074) = num / den * 2 ^ k →
      (|(m : ℝ) - x| ≤ 1 / 2 ∧ (|(m : ℝ) - x| = 1 / 2 → m % 2 = 0)) →
      |(m : ℝ) * 2 ^ ((n : Int) - 1074) - num / den * 2 ^ k| ≤ 2 ^ ((n : Int) - 1074) / 2 ∧
      (|(m : ℝ) * 2 ^ ((n : Int) - 1074) - num / den * 2 ^ k| = 2 ^ ((n : Int) - 1074) / 2 → m % 2 = 0) := by
    intro m x hx ⟨h1, h2⟩
    rw [← hx, ← sub_mul, abs_mul, abs_of_pos hu]
    refine ⟨by nlinarith, fun h => h2 ?_⟩
    have : |(m : ℝ) - x| * 2 ^ ((n : Int) - 1074) = 1 / 2 * 2 ^ ((n : Int) - 1074) := by rw [h]; ring
    exact mul_right_cancel₀ hu.ne' this
  refine ⟨_, rfl, ?_⟩
  split
  · rename_i h
    have hs : (0 : Nat) < den <<< ((n : Int) - 1074 - k).toNat := by rw [Nat.shiftLeft_eq]; positivity
    refine scaled _ _ ?_ (divNearestEven_near num hs)
    rw [Nat.shiftLeft_eq]
    push_cast
    rw [← zpow_natCast, Int.toNat_of_nonneg h, show (n : Int) - 1074 = ((n : Int) - 1074 - k) + k by ring]
    rw [show (n : Int) - 1074 - k + k - k = (n : Int) - 1074 - k by ring, zpow_add₀ (by norm_num)]
    have : (2 : ℝ) ^ ((n : Int) - 1074 - k) ≠ 0 := by positivity
    field_simp
  · rename_i h
    refine scaled _ _ ?_ (divNearestEven_near _ hd)
    rw [Nat.shiftLeft_eq]
    push_cast
    rw [← zpow_natCast, Int.toNat_of_nonneg (by omega)]
    rw [show (2 : ℝ) ^ k = 2 ^ (-((n : Int) - 1074 - k)) * 2 ^ ((n : Int) - 1074) by
      rw [← zpow_add₀ (by norm_num)]; congr 1; ring]
    ring

/-- A signed zero is zero rounded. -/
theorem fZero_isRounded (neg : Bool) : IsRounded 0 neg (fZero neg) := by
  have hf : fIsFinite (fZero neg) = true := by cases neg <;> decide
  have hv : (fVal (fZero neg) : ℝ) = 0 := by
    rw [fVal_eq, show fMant (fZero neg) = 0 by cases neg <;> decide]; simp
  refine ⟨by cases neg <;> decide, fun h => absurd h (lt_irrefl _), fun h => absurd h (lt_irrefl _),
    fun _ => by cases neg <;> decide, ?_, fun _ y _ => ⟨by rw [hv]; simp, fun _ => .inr (by cases neg <;> decide)⟩⟩
  rw [hf, abs_zero]
  refine iff_of_false (by decide) ?_
  rw [show (2 : ℝ) ^ 1024 = 2 ^ 54 * 2 ^ 970 by rw [← pow_add]]
  have hu : (0 : ℝ) < 2 ^ 970 := by positivity
  generalize (2 : ℝ) ^ 970 = u at *
  rw [not_le]
  linarith only [hu]

/-- `roundMag` at the place it computes. -/
theorem roundMag_eq (num den : Nat) (k : Int) {n m : Nat}
    (hn : (n : Int) = max (quotLog2 num den + k) (-1022) + 1022)
    (hm : m = (if 0 ≤ (n : Int) - 1074 - k then divNearestEven num (den <<< ((n : Int) - 1074 - k).toNat)
      else divNearestEven (num <<< (-((n : Int) - 1074 - k)).toNat) den)) :
    roundMag num den k = saturate (n * 2 ^ 52 + m) := by
  unfold roundMag saturate
  simp only
  rw [show max (quotLog2 num den + k) (-1022) = (n : Int) - 1022 by omega]
  rw [show (n : Int) - 1022 - 52 - k = (n : Int) - 1074 - k by ring, ← hm,
    show ((n : Int) - 1022 + 1022).toNat = n by omega]

/-- `fRound` answers the exact value rounded to nearest, ties to even; what every operation cites. -/
theorem fRound_isRounded (neg : Bool) (num : Nat) {den : Nat} (hd : 0 < den) (k : Int) :
    IsRounded (if neg then -((num : ℝ) / den * 2 ^ k) else num / den * 2 ^ k) neg (fRound neg num den k) := by
  rcases Nat.eq_zero_or_pos num with rfl | hn
  · simpa [fRound] using fZero_isRounded neg
  · obtain ⟨q1, q2⟩ := quotLog2_bounds hn hd
    have hn' : (0 : ℝ) < num := by exact_mod_cast hn
    have hd' : (0 : ℝ) < den := by exact_mod_cast hd
    have hpos : (0 : ℝ) < num / den * 2 ^ k := by positivity
    obtain ⟨n, he⟩ : ∃ n : Nat, (n : Int) = max (quotLog2 num den + k) (-1022) + 1022 :=
      ⟨(max (quotLog2 num den + k) (-1022) + 1022).toNat, by omega⟩
    obtain ⟨m, hm, near, tie⟩ := place_near num hd k n
    rw [fRound, if_neg hn.ne', roundMag_eq num den k he hm]
    refine isRounded_of_grid hpos ?_ ?_ near tie neg neg
    · rcases Nat.eq_zero_or_pos n with h | h
      · exact .inl h
      · refine .inr ?_
        calc (2 : ℝ) ^ 52 * 2 ^ ((n : Int) - 1074) = 2 ^ (quotLog2 num den) * 2 ^ k := by
              rw [← zpow_natCast, ← zpow_add₀ (by norm_num), ← zpow_add₀ (by norm_num)]
              congr 1; push_cast; omega
          _ ≤ _ := by gcongr
    · calc (num : ℝ) / den * 2 ^ k < 2 ^ (quotLog2 num den + 1) * 2 ^ k := by gcongr
        _ = 2 ^ (quotLog2 num den + 1 + k) := by rw [← zpow_add₀ (by norm_num)]
        _ ≤ 2 ^ ((n : Int) - 1021) := zpow_le_zpow_right₀ (by norm_num) (by omega)
        _ = 2 ^ 53 * 2 ^ ((n : Int) - 1074) := by
              rw [← zpow_natCast, ← zpow_add₀ (by norm_num)]; congr 1; push_cast; ring

end Sys2Proof.Machine
end

