-- ==== Sys2Proof/Laws/Memory.lean ====
section
/-! SUPPORT. The laws of the frame memories and of the history: what a read after a write gives, that
every write keeps the canonical form, and that a push keeps the capacity. -/
namespace Sys2Proof.Machine

@[simp] theorem memRead_nil (a : Nat) : memRead [] a = none := rfl

/-- A frame reads back the byte just stored. -/
@[simp] theorem memRead_memWrite_same (m : List Host.Cell) (a : Nat) (v : Byte) :
    memRead (memWrite m a v) a = some v := by
  induction m with
  | nil => simp [memWrite, memRead]
  | cons c m ih =>
    obtain ⟨k, u⟩ := c
    simp only [memWrite]
    split
    · simp [memRead]
    · split
      · simp [memRead]
      · rename_i h1 h2
        simp [memRead, Ne.symm h2, ih]

/-- A store leaves every other element of the frame alone. -/
theorem memRead_memWrite_other (m : List Host.Cell) (a b : Nat) (v : Byte) (h : b ≠ a) :
    memRead (memWrite m a v) b = memRead m b := by
  induction m with
  | nil => simp [memWrite, memRead, Ne.symm h]
  | cons c m ih =>
    obtain ⟨k, u⟩ := c
    simp only [memWrite]
    split
    · simp [memRead, Ne.symm h]
    · split
      · rename_i h1 h2
        subst h2
        simp [memRead, Ne.symm h]
      · simp only [memRead, ih]

/-- A store inside the frame keeps the canonical form from any lower bound at or below its address. -/
theorem memWfFrom_memWrite (m : List Host.Cell) (lo a : Nat) (v : Byte) (hlo : lo ≤ a) (ha : a < 361)
    (h : memWfFrom lo m = true) : memWfFrom lo (memWrite m a v) = true := by
  induction m generalizing lo with
  | nil => simp [memWrite, memWfFrom, hlo, ha]
  | cons c m ih =>
    obtain ⟨k, u⟩ := c
    simp only [memWfFrom, Bool.and_eq_true, decide_eq_true_eq] at h
    obtain ⟨⟨h1, h2⟩, h3⟩ := h
    simp only [memWrite]
    split
    · rename_i hlt
      have : a + 1 ≤ k := hlt
      simp [memWfFrom, hlo, ha, this, h2, h3]
    · split
      · rename_i _ heq
        subst heq
        simp [memWfFrom, hlo, ha, h3]
      · rename_i hge hne
        have : k + 1 ≤ a := by omega
        simp [memWfFrom, h1, h2, ih (k + 1) this h3]

/-- Every write of a frame keeps the canonical form. -/
theorem memWrite_wf (m : List Host.Cell) (i : Fin 361) (v : Byte) (h : Memory.wf m = true) :
    Memory.wf (memWrite m i.val v) = true :=
  memWfFrom_memWrite m 0 i.val v (Nat.zero_le _) i.isLt h

/-- The frames of a block at power-on are in canonical form. -/
theorem powerOn_frames_wf (p : Params) :
    Memory.wf (State.powerOn p).oa.frame0 = true ∧ Memory.wf (State.powerOn p).oa.frame1 = true :=
  ⟨rfl, rfl⟩

/-- A push keeps the capacity of the history. -/
@[simp] theorem histPush_length (h : List (Coord × Coord)) (e : Coord × Coord) :
    (histPush h e).length = h.length := by
  simp [histPush]

/-- The newest entry stands in front, when the history has an entry at all. -/
theorem histPush_newest (h : List (Coord × Coord)) (e : Coord × Coord) (hn : 0 < h.length) :
    (histPush h e)[0]? = some e := by
  cases h with
  | nil => simp at hn
  | cons a h => simp [histPush]

/-- Every older entry moves one place back; the oldest is discarded. -/
theorem histPush_older (h : List (Coord × Coord)) (e : Coord × Coord) (k : Nat)
    (hk : k + 1 < h.length) : (histPush h e)[k + 1]? = h[k]? := by
  simp [histPush, hk]

end Sys2Proof.Machine
end

