-- ==== Sys2Proof/Laws/PerInstr.lean ====
section
/-! SUPPORT. The per-instruction family `PortForm`: an operation either has a word of a port, or no word
of any port decodes to it (the internal and host-port rows of the opcode table). -/
namespace Sys2Proof.Laws.PortForm

/-- The operation has an encoding, or no port word decodes to it. -/
def Statement (i : Instr) : Prop := (encode i).isSome = true ∨ ∀ p, decode p ≠ .ok i

/-- An operation decoded from a port word has an encoding. -/
theorem encoded_of_decode {p : PortWord} {i : Instr} (h : decode p = .ok i) :
    (encode i).isSome = true := by
  cases p with
  | command bs =>
    match bs, h with
    | [c], h =>
      simp only [decode, Except.ok.injEq] at h
      subst h
      unfold decodeCommand
      repeat' split
      all_goals rfl
  | oa w =>
    simp only [decode, Except.ok.injEq] at h
    subst h
    unfold decodeOa
    split <;> rfl

theorem of_unencoded {i : Instr} (h : (encode i).isSome = false) : Statement i :=
  .inr fun _ e => by rw [encoded_of_decode e] at h; cases h

theorem cmdChipReset : Statement .cmdChipReset := .inl rfl
theorem cmdNavCtrl2 : Statement .cmdNavCtrl2 := .inl rfl
theorem cmdPixelGrab : Statement .cmdPixelGrab := .inl rfl
theorem cmdMotion : Statement .cmdMotion := .inl rfl
theorem cmdRegRead (c : Byte) : Statement (.cmdRegRead c) := .inl rfl
theorem decodeMotion (b0 b1 b2 b3 b4 b5 b6 : Byte) :
    Statement (.decodeMotion b0 b1 b2 b3 b4 b5 b6) := .inl rfl
theorem storePixelPair (p0 p1 : Byte) : Statement (.storePixelPair p0 p1) := .inl rfl
theorem tick : Statement .tick := .inl rfl
theorem setMode (m : Mode) : Statement (.setMode m) := .inl rfl
theorem setCal (c0 c1 circ : F64) : Statement (.setCal c0 c1 circ) := .inl rfl
theorem sessionReset : Statement .sessionReset := .inl rfl
theorem setBtn (b : Bool) : Statement (.setBtn b) := .inl rfl
theorem reservedOa7 : Statement .reservedOa7 := .inl rfl
theorem reservedOa8F (low : BitVec 3) : Statement (.reservedOa8F low) := .inl rfl
theorem send (v : Byte) : Statement (.send v) := of_unencoded rfl
theorem read : Statement .read := of_unencoded rfl
theorem emit (bs : List Byte) : Statement (.emit bs) := of_unencoded rfl
theorem hostWrite (bytes : List Byte) : Statement (.hostWrite bytes) := of_unencoded rfl
theorem hostRead (maxLen : Nat) : Statement (.hostRead maxLen) := of_unencoded rfl
theorem hostStatus : Statement .hostStatus := of_unencoded rfl

end Sys2Proof.Laws.PortForm
end

