-- ==== Sys2Proof/Laws/Step.lean ====
section
/-! SUPPORT. What the transport, the OA operations, `exec` and `step` can do, said once each. -/
namespace Sys2Proof.Machine

/-- A host write posts its byte or fails; whichever, only the mailbox and the reply change. -/
theorem execHostWrite_cases (bs : List Byte) (s : State) :
    (∃ c, bs = [c] ∧ s.tp.cmdFull = false ∧
      execHostWrite bs s = .next (answerHost .ok (postCommand c s))) ∨
    ((bs.length ≠ 1 ∨ s.tp.cmdFull = true) ∧ execHostWrite bs s = .next (answerHost .fail s)) := by
  match bs with
  | [] => exact .inr ⟨.inl (by simp), rfl⟩
  | [c] => cases h : s.tp.cmdFull <;> simp [execHostWrite, h]
  | a :: b :: l => exact .inr ⟨.inl (by simp), rfl⟩

/-- A host read finds nothing, fails on a long packet, or takes the whole packet. -/
theorem execHostRead_cases (n : Nat) (s : State) :
    (s.tp.rspValid = false ∧ execHostRead n s = .next (answerHost (.bytes []) s)) ∨
    (s.tp.rspValid = true ∧ n < s.tp.rspLen ∧ execHostRead n s = .next (answerHost .fail s)) ∨
    (s.tp.rspValid = true ∧ s.tp.rspLen ≤ n ∧
      execHostRead n s = .next (answerHost (.bytes (packetBytes s.tp)) (takePacket s))) := by
  cases h : s.tp.rspValid with
  | false => exact .inl ⟨rfl, by simp [execHostRead, h]⟩
  | true =>
    by_cases hn : n < s.tp.rspLen
    · exact .inr (.inl ⟨rfl, hn, by simp [execHostRead, h, hn]⟩)
    · exact .inr (.inr ⟨rfl, by omega, by simp [execHostRead, h, hn]⟩)

/-- A free-ball tick raises one error, changing nothing else, or commits. -/
theorem freeBallTick_cases (s : State) :
    (∃ code, code ≠ .illegalOp ∧ freeBallTick s = raiseOaError code s) ∨
    (∃ hx hy, calUsable s.oa = true ∧ fIsFinite (tickX s.params s.oa) = true ∧
      fIsFinite (tickY s.params s.oa) = true ∧ fIsFinite (tickHeading s.oa) = true ∧
      histCoord (tickX s.params s.oa) = some hx ∧ histCoord (tickY s.params s.oa) = some hy ∧
      freeBallTick s =
        { s with oa := commitTick (tickX s.params s.oa) (tickY s.params s.oa)
                         (tickHeading s.oa) (hx, hy) s.oa }) := by
  unfold freeBallTick
  by_cases hc : calUsable s.oa = true
  · by_cases hf : (fIsFinite (tickX s.params s.oa) && fIsFinite (tickY s.params s.oa) &&
        fIsFinite (tickHeading s.oa)) = true
    · have hf' := hf
      simp only [Bool.and_eq_true] at hf'
      cases hx : histCoord (tickX s.params s.oa) with
      | none => exact .inl ⟨.range, by simp, by simp [hc, hf'.1.1, hf'.1.2, hf'.2, hx]⟩
      | some x =>
        cases hy : histCoord (tickY s.params s.oa) with
        | none => exact .inl ⟨.range, by simp, by simp [hc, hf'.1.1, hf'.1.2, hf'.2, hx, hy]⟩
        | some y =>
          exact .inr ⟨x, y, hc, hf'.1.1, hf'.1.2, hf'.2, rfl, rfl,
            by simp [hc, hf'.1.1, hf'.1.2, hf'.2, hx, hy]⟩
    · exact .inl ⟨.nonfinite, by simp, by rw [if_pos hc]; exact if_neg hf⟩
  · exact .inl ⟨.badCal, by simp, by simp [hc]⟩

/-- Every operation answers a next state. -/
theorem exec_next (i : Instr) (s : State) : ∃ t, exec i s = .next t := by
  cases i with
  | hostWrite bs => rcases execHostWrite_cases bs s with ⟨_, _, _, e⟩ | ⟨_, e⟩ <;> exact ⟨_, e⟩
  | tick =>
    cases h : s.oa.mode with
    | perSensor => exact ⟨s, by simp [exec, execTick, h]⟩
    | freeBall => exact ⟨freeBallTick s, by simp [exec, execTick, h]⟩
  | _ => exact ⟨_, rfl⟩

/-- What a command row's step can do: a line's shape, or the acceptance of the waiting command. -/
theorem exec_command_shape {i : Instr} {s t : State} (hi : isCommand i = true) (h : exec i s = .next t) :
    LineShape s t ∨ (s.cd.status = .idle ∧ s.tp.cmdFull = true ∧ ∃ l, firstLabel i = some l ∧
      decodeCommand s.tp.cmdByte = decodeCommand t.cd.cmd ∧ t = acceptCommand l s) := by
  cases i with
  | cmdChipReset =>
    cases h
    rcases runCommand_shape (chipResetLine_shape s) (c := 0xBA#8) (first := .w0) with k | ⟨a, b, -, e⟩
    · exact .inl k
    · exact .inr ⟨a, b, .w0, rfl, by rw [e]; rfl, e⟩
  | cmdNavCtrl2 =>
    cases h
    rcases runCommand_shape (navCtrl2Line_shape s) (c := 0xA2#8) (first := .n0) with k | ⟨a, b, -, e⟩
    · exact .inl k
    · exact .inr ⟨a, b, .n0, rfl, by rw [e]; rfl, e⟩
  | cmdPixelGrab =>
    cases h
    rcases runCommand_shape (pixelGrabLine_shape s) (c := 0x0B#8) (first := .p0) with k | ⟨a, b, -, e⟩
    · exact .inl k
    · exact .inr ⟨a, b, .p0, rfl, by rw [e]; rfl, e⟩
  | cmdMotion =>
    cases h
    rcases runCommand_shape (motionLine_shape s) (c := 0x02#8) (first := .m0) with k | ⟨a, b, -, e⟩
    · exact .inl k
    · exact .inr ⟨a, b, .m0, rfl, by rw [e]; rfl, e⟩
  | cmdRegRead c =>
    cases h
    rcases runCommand_shape (regReadLine_shape c s) (c := c) (first := .g0) with k | ⟨a, b, -, e⟩
    · exact .inl k
    · exact .inr ⟨a, b, .g0, rfl, by rw [e]; rfl, e⟩
  | _ => cases hi

/-- A tick leaves everything but the OA alone; of the OA it writes the error bits or the odometry. -/
theorem execTick_cases {s t : State} (h : exec .tick s = .next t) :
    t = s ∨ (s.oa.mode = .freeBall ∧ ∃ code, code ≠ .illegalOp ∧ t = raiseOaError code s) ∨
    (s.oa.mode = .freeBall ∧ ∃ hx hy, fIsFinite (tickX s.params s.oa) = true ∧
      fIsFinite (tickY s.params s.oa) = true ∧ fIsFinite (tickHeading s.oa) = true ∧
      t = { s with oa := commitTick (tickX s.params s.oa) (tickY s.params s.oa)
                           (tickHeading s.oa) (hx, hy) s.oa }) := by
  simp only [exec, execTick] at h
  cases hm : s.oa.mode with
  | perSensor => rw [hm] at h; cases h; exact .inl rfl
  | freeBall =>
    rw [hm] at h
    cases h
    rcases freeBallTick_cases s with ⟨c, hc, e⟩ | ⟨hx, hy, -, h1, h2, h3, -, -, e⟩
    · exact .inr (.inl ⟨rfl, c, hc, e⟩)
    · exact .inr (.inr ⟨rfl, hx, hy, h1, h2, h3, e⟩)

/-- Every operation leaves the Shift Engine alone or performs one micro-phase of it. -/
theorem exec_engine {i : Instr} {s t : State} (h : exec i s = .next t) : EngineMoves s t := by
  by_cases hi : isCommand i = true
  · rcases exec_command_shape hi h with k | ⟨-, -, l, -, -, e⟩
    · exact k.engine
    · exact .inl (by rw [e]; rfl)
  cases i with
  | send v => cases h; exact .inr (.inl ⟨v, rfl⟩)
  | read => cases h; exact .inr (.inr rfl)
  | emit bs => cases h; rcases emitLine_cases bs id s with ⟨-, e⟩ | ⟨-, e⟩ <;> exact .inl (by rw [e] <;> rfl)
  | hostWrite bs =>
    simp only [exec] at h
    rcases execHostWrite_cases bs s with ⟨_, _, _, e⟩ | ⟨_, e⟩ <;> rw [e] at h <;> cases h <;> exact .inl rfl
  | hostRead n =>
    simp only [exec] at h
    rcases execHostRead_cases n s with ⟨_, e⟩ | ⟨_, _, e⟩ | ⟨_, _, e⟩ <;> rw [e] at h <;> cases h <;>
      exact .inl rfl
  | tick =>
    rcases execTick_cases h with rfl | ⟨-, c, -, rfl⟩ | ⟨-, hx, hy, -, -, -, rfl⟩ <;> exact .inl rfl
  | _ => first | exact absurd rfl hi | (cases h; exact .inl rfl)

/-- With nothing on the agenda the CD/SE agent moves. -/
theorem fetch_of_agenda_nil {s : State} (h : s.env.agenda = []) : fetch s = cdTurn s := by
  simp [fetch, h]

/-- A turn of a BUSY dispatcher performs a step of the routine of `CMD`. -/
theorem cdTurn_busy {s : State} (h : s.cd.status = .busy) :
    cdTurn s = .run (decodeCommand s.cd.cmd) s := by
  simp [cdTurn, cdOperation, h]

/-- A turn of an IDLE dispatcher takes up the routine of the waiting byte. -/
theorem cdTurn_waiting {s : State} (h : s.cd.status = .idle) (hf : s.tp.cmdFull = true) :
    cdTurn s = .run (decodeCommand s.tp.cmdByte) s := by
  simp [cdTurn, cdOperation, h, hf]

/-- A turn of an IDLE dispatcher with an empty mailbox is a stall. -/
theorem cdTurn_empty {s : State} (h : s.cd.status = .idle) (hf : s.tp.cmdFull = false) :
    cdTurn s = .quiet s := by
  simp [cdTurn, cdOperation, h, hf]

theorem step_of_run {s t : State} {i : Instr} (h : fetch s = .run i t) : step s = exec i t := by
  simp [step, h]

theorem step_of_quiet {s t : State} (h : fetch s = .quiet t) : step s = .next t := by
  simp [step, h]

/-- The rows a turn can perform: all but the internal primitives SEND, READ and EMIT, which only the
routines perform. -/
def isPortOperation (i : Instr) : Prop := (∀ v, i ≠ .send v) ∧ i ≠ .read ∧ ∀ bs, i ≠ .emit bs

theorem decodeCommand_port (c : Byte) : isPortOperation (decodeCommand c) := by
  unfold decodeCommand
  repeat' split
  all_goals simp [isPortOperation]

theorem decodeOa_port (w : OaWord) : isPortOperation (decodeOa w) := by
  unfold decodeOa
  split <;> simp [isPortOperation]

/-- u is s with turns of the agenda used up and the host's query noted: all that a turn itself changes. -/
def Turned (s u : State) : Prop := ∃ a q, u = { s with env := { s.env with agenda := a, query := q } }

theorem Turned.refl (s : State) : Turned s s := ⟨s.env.agenda, s.env.query, rfl⟩
theorem Turned.drop (s : State) : Turned s (dropTurn s) := ⟨s.env.agenda.tail, s.env.query, rfl⟩
theorem Turned.note (q : Query) (s : State) : Turned s (noteQuery q (dropTurn s)) := ⟨s.env.agenda.tail, q, rfl⟩

/-- A turn leaves every part of the block alone. -/
theorem Turned.block {s u : State} (h : Turned s u) :
    u.se = s.se ∧ u.cd = s.cd ∧ u.tp = s.tp ∧ u.oa = s.oa ∧ u.params = s.params := by
  obtain ⟨a, q, rfl⟩ := h
  exact ⟨rfl, rfl, rfl, rfl, rfl⟩

/-- A turn that performs an operation, or none, on the state it is taken in. -/
def PlainTurn (s : State) (f : Fetched) : Prop :=
  (∃ i u, f = .run i u ∧ isPortOperation i ∧ Turned s u) ∨ (∃ u, f = .quiet u ∧ Turned s u)

theorem PlainTurn.run {s u : State} {i : Instr} (hi : isPortOperation i) (h : Turned s u) :
    PlainTurn s (.run i u) := .inl ⟨i, u, rfl, hi, h⟩

theorem PlainTurn.quiet {s u : State} (h : Turned s u) : PlainTurn s (.quiet u) := .inr ⟨u, rfl, h⟩

theorem PlainTurn.lift {s : State} {f : Fetched} (h : PlainTurn s f) (p : Prop) :
    (∃ i u, f = .run i u ∧ isPortOperation i ∧ Turned s u) ∨ (∃ u, f = .quiet u ∧ Turned s u) ∨ p :=
  h.elim .inl fun h => .inr (.inl h)

theorem cdTurn_plain {s u : State} (h : Turned s u) : PlainTurn s (cdTurn u) := by
  cases hs : u.cd.status with
  | busy => rw [cdTurn_busy hs]; exact .run (decodeCommand_port _) h
  | idle =>
    cases hf : u.tp.cmdFull with
    | true => rw [cdTurn_waiting hs hf]; exact .run (decodeCommand_port _) h
    | false => rw [cdTurn_empty hs hf]; exact .quiet h

theorem hostWrite_port (bs : List Byte) : isPortOperation (.hostWrite bs) := by simp [isPortOperation]
theorem hostRead_port (n : Nat) : isPortOperation (.hostRead n) := by simp [isPortOperation]

/-- The three turns of a query. -/
theorem queryStartTurn_plain (c : Byte) (s : State) : PlainTurn s (queryStartTurn c s) := by
  unfold queryStartTurn
  split
  · exact .run (hostWrite_port _) (.note _ s)
  · exact .quiet (.note _ s)

theorem queryReadTurn_plain (n : Nat) (s : State) : PlainTurn s (queryReadTurn n s) := by
  unfold queryReadTurn
  split
  · split
    · exact .run (hostRead_port _) (.note _ s)
    · exact cdTurn_plain (.refl s)
  · exact .quiet (.drop s)

theorem queryTimeoutTurn_plain (s : State) : PlainTurn s (queryTimeoutTurn s) := by
  unfold queryTimeoutTurn
  split
  · exact .quiet (.note _ s)
  · exact .quiet (.drop s)

theorem motionOf_port {q : Query} {i : Instr} (h : motionOf q = some i) : isPortOperation i := by
  unfold motionOf at h
  split at h <;> cases h
  simp [isPortOperation]

theorem pairOf_port {k : Nat} {q : Query} {i : Instr} (h : pairOf k q = some i) : isPortOperation i := by
  unfold pairOf at h
  split at h
  · split at h <;> cases h
    simp [isPortOperation]
  · cases h

theorem issueFrom_plain {o : Option Instr} (s : State) (h : ∀ i, o = some i → isPortOperation i) :
    PlainTurn s (issueFrom o s) := by
  cases o with
  | none => exact .quiet (.drop s)
  | some i => exact .run (h i rfl) (.drop s)

/-- What a turn can be, said once: an operation on the state with at most the agenda and the query moved on,
a snapshot, a power-on reset, or no operation at all. -/
theorem fetch_cases (s : State) :
    (∃ i u, fetch s = .run i u ∧ isPortOperation i ∧ Turned s u) ∨ (∃ u, fetch s = .quiet u ∧ Turned s u) ∨
    (fetch s = .quiet (takeSnapshot (dropTurn s)) ∧ ∃ rest, s.env.agenda = .snapshot :: rest) ∨
    (fetch s = .quiet (powerOnReset (dropTurn s)) ∧ ∃ rest, s.env.agenda = .powerOn :: rest) := by
  cases ha : s.env.agenda with
  | nil => rw [fetch_of_agenda_nil ha]; exact (cdTurn_plain (.refl s)).lift _
  | cons t rest =>
    rw [show fetch s = turnOf t s by simp [fetch, ha]]
    cases t with
    | cd => exact (cdTurn_plain (.drop s)).lift _
    | oa w => exact (PlainTurn.run (decodeOa_port w) (.drop s)).lift _
    | hostWrite b => exact (PlainTurn.run (hostWrite_port b) (.drop s)).lift _
    | hostRead n => exact (PlainTurn.run (hostRead_port n) (.drop s)).lift _
    | hostStatus => exact (PlainTurn.run (by simp [isPortOperation]) (.drop s)).lift _
    | snapshot => exact .inr (.inr (.inl ⟨rfl, rest, rfl⟩))
    | powerOn => exact .inr (.inr (.inr ⟨rfl, rest, rfl⟩))
    | awaitWrite b =>
      refine PlainTurn.lift ?_ _
      simp only [turnOf]
      split
      · exact cdTurn_plain (.refl s)
      · exact .run (hostWrite_port b) (.drop s)
    | awaitRead n =>
      refine PlainTurn.lift ?_ _
      simp only [turnOf]
      split
      · exact .run (hostRead_port n) (.drop s)
      · exact cdTurn_plain (.refl s)
    | oaDecodeReply =>
      refine PlainTurn.lift ?_ _
      simp only [turnOf]
      split
      · exact .run (by simp [isPortOperation]) (.drop s)
      · exact .quiet (.drop s)
    | oaStoreReply =>
      refine PlainTurn.lift ?_ _
      simp only [turnOf]
      split
      · exact .run (by simp [isPortOperation]) (.drop s)
      · exact .quiet (.drop s)
    | queryStart c => exact (queryStartTurn_plain c s).lift _
    | queryRead n => exact (queryReadTurn_plain n s).lift _
    | queryTimeout => exact (queryTimeoutTurn_plain s).lift _
    | oaDecodeQuery => exact (issueFrom_plain s fun _ => motionOf_port).lift _
    | oaStoreQuery k => exact (issueFrom_plain s fun _ => pairOf_port).lift _

/-- What a step can do, said once: an operation performed, no operation, a snapshot, or a power-on reset. -/
theorem step_cases {s t : State} (h : step s = .next t) :
    (∃ i u, exec i u = .next t ∧ isPortOperation i ∧ Turned s u) ∨ Turned s t ∨
    t = takeSnapshot (dropTurn s) ∨
    (t = powerOnReset (dropTurn s) ∧ ∃ rest, s.env.agenda = .powerOn :: rest) := by
  rcases fetch_cases s with ⟨i, u, e, hi, hu⟩ | ⟨u, e, hu⟩ | ⟨e, -⟩ | ⟨e, hr⟩
  · rw [step_of_run e] at h
    exact .inl ⟨i, u, h, hi, hu⟩
  all_goals rw [step_of_quiet e] at h; cases h
  · exact .inr (.inl hu)
  · exact .inr (.inr (.inl rfl))
  · exact .inr (.inr (.inr ⟨rfl, hr⟩))

/-- When the next turn is the CD/SE agent's, the step is that agent's move. -/
theorem fetch_of_cdMoves {s : State} (h : cdMoves s = true) : fetch s = cdTurn (cdState s) := by
  unfold cdMoves at h
  unfold fetch cdState
  cases ha : s.env.agenda with
  | nil => rfl
  | cons t rest =>
    rw [ha] at h
    cases t with
    | cd => rfl
    | awaitWrite b => simp [turnOf, h]
    | awaitRead n => simp only [Bool.not_eq_true'] at h; simp [turnOf, h]
    | queryRead n =>
      simp only [Bool.and_eq_true, Bool.not_eq_true'] at h
      cases hq : s.env.query <;> simp_all [turnOf, queryReadTurn, queryIsRunning]
    | _ => cases h

/-- A run of n steps and then one of m is a run of `n + m`. -/
theorem runSteps_add {n : Nat} (m : Nat) {s t : State} (h : runSteps n s = .next t) :
    runSteps (n + m) s = runSteps m t := by
  induction n generalizing s with
  | zero => cases h; rw [Nat.zero_add]
  | succ n ih =>
    rw [Nat.succ_add]
    simp only [runSteps] at h ⊢
    revert h
    cases step s with
    | next u => exact fun h => ih h
    | fault r => intro h; cases h
    | refused r => intro h; cases h

/-- A run goes on from its first step. -/
theorem runSteps_succ {n : Nat} {s t : State} (h : step s = .next t) :
    runSteps (n + 1) s = runSteps n t := by
  simp [runSteps, h]

end Sys2Proof.Machine
end

