-- ==== Sys2Proof/Machine/Assembler.lean ====
section
/-! DEFINITION. The textual form for host-level programs as data (30_encoding R69, R70) and the host's
query procedure (42_transport R97, R98): each line is a turn of the agenda. -/
namespace Sys2Proof.Machine

/-- The `<cmd>` of an `HW` line (30_encoding R69). -/
inductive AsmCommand where
  | chipReset
  | navCtrl2
  | pixGrab
  | motion
  | rdReg (a : BitVec 7)
  | raw (c : Byte)
deriving DecidableEq, Repr

/-- The command byte of a `<cmd>` (30_encoding R69). -/
def AsmCommand.byte : AsmCommand → Byte
  | .chipReset => 0xBA#8
  | .navCtrl2 => 0xA2#8
  | .pixGrab => 0x0B#8
  | .motion => 0x02#8
  | .rdReg a => readAddress a
  | .raw c => c

/-- `RDREG <a>` takes a 7-bit address other than 0x02 and 0x0B (30_encoding R69). -/
def AsmCommand.wf : AsmCommand → Bool
  | .chipReset => true
  | .navCtrl2 => true
  | .pixGrab => true
  | .motion => true
  | .rdReg a => a != 0x02#7 && a != 0x0B#7
  | .raw _ => true

/-- One line of a program (30_encoding R69). The `...Read` forms take the bytes the last `HR` bound. -/
inductive AsmLine where
  | hw (c : AsmCommand)
  | hr (n : Nat)
  | oaDecode (b0 b1 b2 b3 b4 b5 b6 : Byte)
  | oaDecodeRead
  | oaStore (p0 p1 : Byte)
  | oaStoreRead
  | oaTick
  | oaMode (m : Mode)
  | oaCal (c0 c1 circ : F64)
  | oaSReset
  | oaBtn (b : Bool)
deriving DecidableEq, Repr

/-- The turn in which the host issues an OA operation with its encoded word (30_encoding R65). -/
def oaTurn (i : Instr) : Turn :=
  match encode i with
  | some (.oa w) => .oa w
  | _ => .hostStatus

/-- The host action of a line (30_encoding R69; log 16). -/
def AsmLine.turn : AsmLine → Turn
  | .hw c => .awaitWrite [c.byte]
  | .hr n => .awaitRead n
  | .oaDecode b0 b1 b2 b3 b4 b5 b6 => oaTurn (.decodeMotion b0 b1 b2 b3 b4 b5 b6)
  | .oaDecodeRead => .oaDecodeReply
  | .oaStore p0 p1 => oaTurn (.storePixelPair p0 p1)
  | .oaStoreRead => .oaStoreReply
  | .oaTick => oaTurn .tick
  | .oaMode m => oaTurn (.setMode m)
  | .oaCal c0 c1 circ => oaTurn (.setCal c0 c1 circ)
  | .oaSReset => oaTurn .sessionReset
  | .oaBtn b => oaTurn (.setBtn b)

/-- A pseudo-instruction (30_encoding R70). -/
inductive AsmPseudo where
  | queryChipReset
  | queryNavCtrl2
  | queryRdReg (a : BitVec 7)
  | queryMotion
  | grabFrame
  | motionTick
deriving DecidableEq, Repr

/-- Its expansion (30_encoding R70). -/
def AsmPseudo.lines : AsmPseudo → List AsmLine
  | .queryChipReset => [.hw .chipReset]
  | .queryNavCtrl2 => [.hw .navCtrl2]
  | .queryRdReg a => [.hw (.rdReg a), .hr 2]
  | .queryMotion => [.hw .motion, .hr 7]
  | .grabFrame => .hw .pixGrab :: (List.replicate 361 [AsmLine.hr 2, AsmLine.oaStoreRead]).flatten
  | .motionTick => [.hw .motion, .hr 7, .oaDecodeRead, .oaTick]

/-- The host's turns in `query(c)`: the write, then a wait and a read of its length for each packet
(42_transport R98). -/
def queryTurns (c : Byte) : List Turn :=
  .queryStart c :: List.replicate (responseShape c).1 (.queryRead (responseShape c).2)

end Sys2Proof.Machine
end

