-- ==== Sys2Proof/Tests/Slice0.lean ====
section
/-! SUPPORT. The model's own tests: ill-formed terms refused, words written out from the spec's encodings,
single steps with the expected values of 95_test_vectors (V<n>, S<n>), and for every statement with
hypotheses a witness that meets them. -/
namespace Sys2Proof.Tests
open Sys2Proof Sys2Proof.Machine

/-! ### Helpers -/

/-- The parameters of the tests: T_SETTLE = 1, no poll limit, HIST_N = 3, FCOS(+0.0) = 1.0, FSIN(+0.0) = +0.0. -/
def testParams : Params :=
  { resetPayload := 0x5A, navCtrl2Payload := 0x40, tSettle := 1, pixPollLimit := none, histN := 3,
    csLevel := false, btnRelInit := false, trig := [⟨0, 0x3FF0000000000000#64, 0⟩] }

/-- Power-on. -/
def base : State := State.powerOn testParams

/-- Power-on with PIX_POLL_LIMIT = 3 (V21). -/
def limited : State := State.powerOn { testParams with pixPollLimit := some 3 }

/-- s at a labelled line of the routine of c. -/
def inRoutine (c : Byte) (l : Label) (s : State) : State :=
  { s with cd := { s.cd with status := .busy, cmd := c, label := l } }

/-- s with a command byte waiting. -/
def waiting (c : Byte) (s : State) : State := { s with tp := { s.tp with cmdFull := true, cmdByte := c } }

/-- s with the packet of V29 waiting. -/
def unread (s : State) : State :=
  { s with tp := { s.tp with rspValid := true, rspLen := 2, rspData := ⟨0x17, 0x17, 0, 0, 0, 0, 0⟩ } }

/-- s before a micro-phase, at bit n. -/
def atPhase (p : SePhase) (n : Fin 8) (s : State) : State :=
  { s with se := { s.se with phase := p, bitCnt := n, sclk := clockLevel p } }

/-- s after a READ of the pair (a, b). -/
def holding (a b : Byte) (s : State) : State := { s with se := { s.se with rx0 := a, rx1 := b } }

/-- s with the given turns to come. -/
def turns (ts : List Turn) (s : State) : State := { s with env := { s.env with agenda := ts } }

/-- s with the host's query at q. -/
def querying (q : Query) (s : State) : State := noteQuery q s

/-- s with the given samples to come. -/
def samples (ms : List (Bool × Bool)) (s : State) : State := { s with env := { s.env with sensorBits := ms } }

/-- Free-ball mode with the calibration, heading and last deltas of a vector of 95_test_vectors 2.6. -/
def ball (cal circ h : F64) (dx0 dx1 dy0 dy1 : Int) : State :=
  { base with
    params := { testParams with trig := [⟨h, 0x3FF0000000000000#64, 0⟩] }
    oa := { base.oa with mode := .freeBall, cal0 := cal, cal1 := cal, circ := circ, heading := h,
                         lastDx := ⟨wrapAcc dx0, wrapAcc dx1⟩, lastDy := ⟨wrapAcc dy0, wrapAcc dy1⟩ } }

/-- The outcome is a next state with property p. -/
def answers (o : Host.Outcome State Fault Refusal) (p : State → Bool) : Bool :=
  match o with
  | .next t => p t
  | .fault _ => false
  | .refused _ => false

/-! ### Ill-formed terms -/

theorem test_wf_reg_read_chip_reset : (Instr.cmdRegRead 0xBA#8).wf = false := by decide
theorem test_wf_reg_read_nav_ctrl2 : (Instr.cmdRegRead 0xA2#8).wf = false := by decide
theorem test_wf_reg_read_pixel_grab : (Instr.cmdRegRead 0x0B#8).wf = false := by decide
theorem test_wf_reg_read_motion : (Instr.cmdRegRead 0x02#8).wf = false := by decide
theorem test_wf_reg_read_other : (Instr.cmdRegRead 0x8B#8).wf = true := by decide
theorem test_wf_emit_empty : (Instr.emit []).wf = false := by decide
theorem test_wf_emit_three : (Instr.emit [1, 2, 3]).wf = false := by decide
theorem test_wf_emit_pair : (Instr.emit [1, 2]).wf = true := by decide
/-- R69: `RDREG` takes neither 0x02 nor 0x0B. -/
theorem test_wf_rdreg : (AsmCommand.rdReg 0x02#7).wf = false ∧ (AsmCommand.rdReg 0x0B#7).wf = false ∧
    (AsmCommand.rdReg 0x3A#7).wf = true := by decide

/-! ### Decoding, words written out from 30_encoding R55, R56, R65 -/

/-- The write flag, then 0x3A. -/
theorem test_decode_chip_reset : decode (.command [0b1_0111010#8]) = .ok .cmdChipReset := by decide
/-- The write flag, then 0x22. -/
theorem test_decode_nav_ctrl2 : decode (.command [0b1_0100010#8]) = .ok .cmdNavCtrl2 := by decide
theorem test_decode_pixel_grab : decode (.command [0b0_0001011#8]) = .ok .cmdPixelGrab := by decide
theorem test_decode_motion_query : decode (.command [0b0_0000010#8]) = .ok .cmdMotion := by decide
/-- V14: 0x3A without the write flag is a plain read. -/
theorem test_decode_plain_read : decode (.command [0b0_0111010#8]) = .ok (.cmdRegRead 0x3A#8) := by decide
/-- V15: 0x8B is no grab. -/
theorem test_decode_flagged_read : decode (.command [0b1_0001011#8]) = .ok (.cmdRegRead 0x8B#8) := by decide
/-- R54: a command is exactly one byte. -/
theorem test_decode_not_one_byte : decode (.command []) = .error (.notOneByte 0) ∧
    decode (.command [0x02, 0x03]) = .error (.notOneByte 2) := by decide
/-- S2: b0 lies lowest. -/
theorem test_decode_motion_packet : decode (.oa ⟨0b0000#4, 0x013232FE0001FF#192⟩) =
    .ok (.decodeMotion 0xFF 0x01 0x00 0xFE 0x32 0x32 0x01) := by decide
theorem test_decode_store : decode (.oa ⟨0b0001#4, 0x1106#192⟩) = .ok (.storePixelPair 0x06 0x11) := by decide
theorem test_decode_tick : decode (.oa ⟨0b0010#4, 0#192⟩) = .ok .tick := by decide
/-- Bit 0 alone is the mode; the other operand bits are ignored. -/
theorem test_decode_mode : decode (.oa ⟨0b0011#4, 1#192⟩) = .ok (.setMode .freeBall) ∧
    decode (.oa ⟨0b0011#4, 0xFE#192⟩) = .ok (.setMode .perSensor) := by decide
/-- Program 1: CAL0 lies lowest, CIRC highest. -/
theorem test_decode_cal :
    decode (.oa ⟨0b0100#4, 0x40631fdb22d0e560_3ff0000000000000_408f400000000000#192⟩) =
      .ok (.setCal 0x408f400000000000 0x3ff0000000000000 0x40631fdb22d0e560) := by decide
theorem test_decode_session_reset : decode (.oa ⟨0b0101#4, 0#192⟩) = .ok .sessionReset := by decide
theorem test_decode_btn : decode (.oa ⟨0b0110#4, 1#192⟩) = .ok (.setBtn true) := by decide
theorem test_decode_reserved_7 : decode (.oa ⟨0b0111#4, 0#192⟩) = .ok .reservedOa7 := by decide
theorem test_decode_reserved_8_f : decode (.oa ⟨0b1000#4, 0#192⟩) = .ok (.reservedOa8F 0) ∧
    decode (.oa ⟨0b1111#4, 0#192⟩) = .ok (.reservedOa8F 7) := by decide
theorem test_table_words : decodeTableWord 8 0xBA = some .cmdChipReset ∧
    decodeTableWord 200 0x11061 = some (.storePixelPair 0x06 0x11) ∧
    decodeTableWord 8 0x7 = some .reservedOa7 ∧ decodeTableWord 200 0x2 = some .tick := by decide

/-- A placed word runs as the next step: SET_MODE with m = 1. -/
theorem test_fetch_oa_word :
    answers (step (base.withFetchWord 200 0x13)) (fun t => t.oa.mode == .freeBall) = true := by decide
/-- A placed command byte is accepted in the next step. -/
theorem test_fetch_command :
    answers (step (base.withFetchWord 8 0xBA)) (fun t => t.cd == (inRoutine 0xBA .w0 base).cd && !t.tp.cmdFull) = true := by decide

/-- R9: PIX_POLL_LIMIT has the default INF at reset. -/
theorem test_default_poll_limit : State.reset.params.pixPollLimit = none := rfl

/-! ### One step of each instruction -/

/-- R85: the first line sends 0xBA. -/
theorem test_chip_reset_line : answers (exec .cmdChipReset (inRoutine 0xBA .w0 base))
    (fun t => t.se.txSr == 0xBA && t.se.sclk == false && t.se.phase == .txA) = true := by decide
/-- R85: the second line's last settle step ends the routine. -/
theorem test_chip_reset_end :
    answers (exec .cmdChipReset (inRoutine 0xBA .w1 { base with se := { base.se with phase := .settle, setCnt := 1 } }))
      (fun t => t.cd.status == .idle && t.se.phase == .idle && !t.tp.rspValid) = true := by decide
/-- R86: the second line sends NAV_CTRL2_PAYLOAD. -/
theorem test_nav_ctrl2_payload : answers (exec .cmdNavCtrl2 (inRoutine 0xA2 .n1 base))
    (fun t => t.se.txSr == 0x40 && t.cd.label == .n1) = true := by decide
/-- V19: (0x85, 0x10) is discarded and polled again. -/
theorem test_pixel_one_sided : answers (exec .cmdPixelGrab (holding 0x85 0x10 (inRoutine 0x0B .p5 base)))
    (fun t => t.cd.label == .p3 && t.cd.rb == base.cd.rb && !t.tp.rspValid) = true := by decide
/-- V20: (0xFF, 0xFF) is kept as (0x7F, 0x7F). -/
theorem test_pixel_clears_valid_bits : answers (exec .cmdPixelGrab (holding 0xFF 0xFF (inRoutine 0x0B .p5 base)))
    (fun t => t.cd.label == .p7 && t.cd.rb.b0 == 0x7F && t.cd.rb.b1 == 0x7F) = true := by decide
/-- V18: AUX_IN becomes the seventh byte. -/
theorem test_motion_aux :
    answers (exec .cmdMotion (inRoutine 0x02 .m8 { base with env := { base.env with auxBytes := [0x01] } }))
      (fun t => t.cd.rb.b6 == 0x01 && t.cd.label == .m9) = true := by decide
/-- V18: the packet has seven bytes, in order. -/
theorem test_motion_packet :
    answers (exec .cmdMotion (inRoutine 0x02 .m9
        { base with cd := { base.cd with rb := ⟨0xFF, 0x01, 0x00, 0xFE, 0x32, 0x32, 0x01⟩ } }))
      (fun t => packetBytes t.tp == [0xFF, 0x01, 0x00, 0xFE, 0x32, 0x32, 0x01] && t.cd.status == .idle) =
        true := by decide
/-- V16: the byte is sent as received. -/
theorem test_reg_read_sends_byte : answers (exec (.cmdRegRead 0xFF) (inRoutine 0xFF .g0 base))
    (fun t => t.se.txSr == 0xFF) = true := by decide
/-- R83: the emission waits while a packet is unread. -/
theorem test_reg_read_waits : answers (exec (.cmdRegRead 0xFF) (inRoutine 0xFF .g2 (unread base)))
    (fun t => t == inRoutine 0xFF .g2 (unread base)) = true := by decide
/-- V31. -/
theorem test_decode_motion_signs : answers (exec (.decodeMotion 0x80 0x7F 0x7F 0x80 0xFF 0x00 0xAA) base)
    (fun t => t.oa.absX.s0.toInt == -128 && t.oa.absX.s1.toInt == 127 && t.oa.absY.s1.toInt == -128 &&
      t.oa.quality.s0.toInt == 255 && t.oa.quality.s1.toInt == 0) = true := by decide
/-- V32. -/
theorem test_decode_motion_wraps :
    answers (exec (.decodeMotion 0x01 0x00 0x00 0x80 0 0 0) { base with oa := { base.oa with
        absX := ⟨0x7FFFFFFF#32, 0⟩, absY := ⟨0, 0x80000000#32⟩ } })
      (fun t => t.oa.absX.s0.toInt == -2147483648 && t.oa.absY.s1.toInt == 2147483520) = true := by decide
/-- V35: the index wraps from 360. -/
theorem test_store_wraps :
    answers (exec (.storePixelPair 0x01 0x02) { base with oa := { base.oa with pixIdx := 360 } })
      (fun t => frame0At t 360 == some 0x01 && frame1At t 360 == some 0x02 && t.oa.pixIdx == 0) = true := by
  decide
/-- V35: bytes are stored unchanged; the other elements have no value yet. -/
theorem test_store_raw : answers (exec (.storePixelPair 0x80 0xFF) base)
    (fun t => frame0At t 0 == some 0x80 && frame1At t 0 == some 0xFF && frame0At t 1 == none) = true := by
  decide
/-- V42. -/
theorem test_tick_forward :
    answers (exec .tick (ball 0x408f400000000000 0x40631fdb22d0e560 0 0 0 30 40))
      (fun t => t.oa.posX == 0x401e995e9e1b089a && t.oa.posY == 0 && t.oa.heading == 0 &&
        t.oa.hist == [(15, 0), (0, 0), (0, 0)] && t.oa.oaErr == 0) = true := by decide +kernel
/-- V52: a tie goes away from zero. -/
theorem test_tick_tie :
    answers (exec .tick (ball 0x3ff0000000000000 0xbff4000000000000 0 0 0 1 0))
      (fun t => t.oa.posX == 0xbff4000000000000 && t.oa.posY == 0 &&
        t.oa.hist[0]? == some (BitVec.ofInt 32 (-3), 0)) = true := by decide +kernel
/-- V43, V44: the heading 6.2 wraps above, 0.05 below. -/
theorem test_tick_wraps :
    answers (exec .tick (ball 0x408f400000000000 0x40631fdb22d0e560 0x4018cccccccccccd 50 50 0 0))
      (fun t => t.oa.heading == 0x3fcd908dfe4dd860) = true ∧
    answers (exec .tick (ball 0x408f400000000000 0x40631fdb22d0e560 0x3fa999999999999a (-10) (-10) 0 0))
      (fun t => t.oa.heading == 0x401914d7892f03af) = true := by decide +kernel
/-- V55, V58, V59: the errors of TICK, each with no other change. -/
theorem test_tick_errors :
    (let s := ball 0 0 0 0 0 0 0
     answers (exec .tick s) fun t => t == { s with oa := { s.oa with oaErr := 0x02 } }) = true ∧
    (let s := ball 0x3ff0000000000000 0x7fe1ccf385ebc8a0 0 0 0 127 127
     answers (exec .tick s) fun t => t == { s with oa := { s.oa with oaErr := 0x04 } }) = true ∧
    (let s := ball 0x3ff0000000000000 0x4202a05f20000000 0 0 0 100 0
     answers (exec .tick s) fun t => t == { s with oa := { s.oa with oaErr := 0x08 } }) = true := by
  decide +kernel
/-- V38: only MODE changes. -/
theorem test_set_mode : answers (exec (.setMode .freeBall) base)
    (fun t => t == { base with oa := { base.oa with mode := .freeBall } }) = true := by decide
/-- R111: a NaN is stored as it is. -/
theorem test_set_cal : answers (exec (.setCal 0x7FF0000000000001 0 1) base)
    (fun t => t.oa.cal0 == 0x7FF0000000000001 && t.oa.cal1 == 0 && t.oa.circ == 1) = true := by decide
/-- V39. -/
theorem test_session_reset :
    answers (exec .sessionReset { base with oa :=
        { base.oa with absX := ⟨9, 11⟩, absY := ⟨30, 38⟩, btnRel := true, oaErr := 0x02, pixIdx := 7, hist := [(16, 0), (0, 0), (0, 0)] } })
      (fun t => t.oa.absX == ⟨0, 0⟩ && t.oa.absY == ⟨0, 0⟩ && t.oa.pixIdx == 0 && t.oa.btnRel &&
        t.oa.oaErr == 0x02 && t.oa.hist == [(16, 0), (0, 0), (0, 0)]) = true := by decide
/-- V40. -/
theorem test_set_btn : answers (exec (.setBtn true) base) (fun t => t.oa.btnRel) = true := by decide
/-- V54, V60: bits accumulate. -/
theorem test_reserved : answers (exec .reservedOa7 { base with oa := { base.oa with oaErr := 0x02 } })
    (fun t => t == { base with oa := { base.oa with oaErr := 0x03 } }) = true ∧
    answers (exec (.reservedOa8F 7) base) (fun t => t.oa.oaErr == 0x01) = true := by decide
/-- V1: the second micro-phase drives bit 7 of 0xBA. -/
theorem test_send_drives_msb :
    answers (exec (.send 0xBA) (atPhase .txA 7 { base with se := { base.se with txSr := 0xBA } })) (fun t => t.se.mosi && !t.se.sclk && t.se.phase == .txH) = true := by decide
/-- V5: a sample enters at bit 0, both lanes in one step. -/
theorem test_read_shifts_in :
    answers (exec .read (samples [(true, false)] (holding 0x40 0x01 (atPhase .rxP 0 base))))
      (fun t => t.se.rx0 == 0x81 && t.se.rx1 == 0x02 && t.se.phase == .idle && t.env.sensorBits == []) =
        true := by decide
/-- R83: the bytes beyond the packet are kept. -/
theorem test_emit_pair :
    answers (exec (.emit [0x06, 0x11]) { base with tp := { base.tp with rspData := ⟨1, 2, 3, 4, 5, 6, 7⟩ } })
      (fun t => t.tp.rspData == ⟨0x06, 0x11, 3, 4, 5, 6, 7⟩ && t.tp.rspLen == 2 && t.tp.rspValid) = true := by
  decide
/-- V24, V25, V27. -/
theorem test_host_write :
    answers (exec (.hostWrite [0x02]) base) (fun t => t.env.reply == .ok && tstat t == 0x01) = true ∧
    answers (exec (.hostWrite [0x00]) (waiting 0x02 base))
      (fun t => t.env.reply == .fail && t.tp.cmdByte == 0x02) = true ∧
    answers (exec (.hostWrite [0x02, 0x03]) base) (fun t => t.env.reply == .fail && t.tp == base.tp) =
      true := by decide
/-- V28, V29, V29a. -/
theorem test_host_read :
    answers (exec (.hostRead 7) base) (fun t => t.env.reply == .bytes []) = true ∧
    answers (exec (.hostRead 1) (unread base)) (fun t => t.env.reply == .fail && t.tp.rspValid) = true ∧
    answers (exec (.hostRead 7) (unread base))
      (fun t => t.env.reply == .bytes [0x17, 0x17] && !t.tp.rspValid) = true := by decide
/-- R98: the write begins the query; a full command mailbox is a transport fault; a query does not begin while a
packet is unread. -/
theorem test_query_start :
    answers (step (turns [.queryStart 0x02] base)) (fun t => t.env.query == .running 1 [] && t.tp.cmdFull) = true ∧
    answers (step (turns [.queryStart 0x00] (waiting 0x02 base)))
      (fun t => t.env.query == .transportFault && t.tp.cmdByte == 0x02) = true ∧
    answers (step (turns [.queryStart 0x02] (unread base))) (fun t => t.env.query == .notBegun && !t.tp.cmdFull) =
      true := by decide
/-- R98: the last packet makes the query return the concatenation; R101: a query given up. -/
theorem test_query_end :
    answers (step (turns [.queryRead 2] (querying (.running 1 [0x06, 0x11]) (unread base))))
      (fun t => t.env.query == .returned [0x06, 0x11, 0x17, 0x17] && !t.tp.rspValid) = true ∧
    answers (step (turns [.queryTimeout] (querying (.running 1 []) base)))
      (fun t => t.env.query == .timedOut && t.tp == base.tp && t.cd == base.cd) = true := by decide
/-- R102: only a whole packet of the query reaches the decoder, and pair k of a grab the frames. -/
theorem test_query_passed_on :
    answers (step (turns [.oaDecodeQuery] (querying (.returned [0x80, 0, 0, 0, 0, 0, 0]) base)))
      (fun t => t.oa.absX.s0.toInt == -128) = true ∧
    answers (step (turns [.oaDecodeQuery] (querying .timedOut base))) (fun t => t.oa == base.oa) = true ∧
    answers (step (turns [.oaStoreQuery 1] (querying (.returned [1, 2, 3, 4]) base)))
      (fun t => frame0At t 0 == some 3 && frame1At t 0 == some 4) = true := by decide
/-- V26: BUSY alone reads as 0x04. -/
theorem test_host_status : answers (exec .hostStatus (inRoutine 0x02 .m0 base))
    (fun t => t.env.reply == .status 0x04) = true := by decide

/-! ### Witnesses: for every statement with hypotheses, states and operands that meet them -/

/-- PowerOnResetAtAnyTime: during the hang of V62. -/
theorem witness_PowerOnResetAtAnyTime :
    (turns [.powerOn, .cd] (inRoutine 0x0B .p3 base)).env.agenda = .powerOn :: [.cd] := rfl

/-- A state in the middle of a poll, one poll before the limit. -/
def midPoll : State :=
  atPhase .txH 0 (inRoutine 0x0B .p3 { limited with cd := { limited.cd with pixK := 360, pollCnt := 2 } })

theorem midPoll_inv : Inv midPoll := by
  refine ⟨⟨rfl, rfl⟩, rfl, ⟨by decide, by decide⟩, ⟨by decide, fun _ => by decide⟩,
    ⟨by decide, ?_, fun _ _ => ⟨by decide, ?_⟩, by decide⟩,
    ⟨by decide, by decide⟩, ⟨rfl, rfl⟩, ⟨by decide, by decide, by decide, rfl⟩, ?_⟩
  · intro n h
    cases h
    decide
  · intro n h
    cases h
    decide
  · unfold BufferOk byteRange qualityRange
    decide

/-- EveryStepKeepsInvariant. -/
theorem witness_EveryStepKeepsInvariant : Inv midPoll ∧ ∃ t, step midPoll = .next t := ⟨midPoll_inv, _, rfl⟩

/-- EveryCommandByteSelectsItsRoutine: the boundary bytes 0x00 and 0xFF are none of the four. -/
theorem witness_EveryCommandByteSelectsItsRoutine : ∀ c ∈ [0x00#8, 0xFF#8, 0x3A#8, 0x8B#8],
    c ≠ 0xBA#8 ∧ c ≠ 0xA2#8 ∧ c ≠ 0x0B#8 ∧ c ≠ 0x02#8 := by decide

/-- DecodeOfEncodeIsIdentity, for a command and an OA operation with every operand bit set. -/
theorem witness_DecodeOfEncodeIsIdentity :
    ((Instr.cmdRegRead 0xFF#8).wf = true ∧ encode (.cmdRegRead 0xFF#8) = some (.command [0xFF#8])) ∧
    ((Instr.setCal (-1) (-1) (-1)).wf = true ∧
      encode (.setCal (-1) (-1) (-1)) = some (.oa ⟨4#4, BitVec.allOnes 192⟩)) := by decide

/-- StepRunsTheRoutineOfTheCommandByte: no agenda, a `.cd` turn, and the three waits, of an IDLE dispatcher with
a command waiting and of a BUSY one. -/
theorem witness_StepRunsTheRoutineOfTheCommandByte : ∀ s ∈ [waiting 0xFF base, waiting 0xFF midPoll],
    (s.cd.status = .idle ∧ s.tp.cmdFull = true ∨ s.cd.status = .busy) ∧ s.env.agenda = [] ∧
    (turns [.cd] s).env.agenda = .cd :: [] ∧
    ((turns [.awaitWrite [0x02]] s).env.agenda = .awaitWrite [0x02] :: [] ∧
      (turns [.awaitWrite [0x02]] s).tp.cmdFull = true) ∧
    ((turns [.awaitRead 7] s).env.agenda = .awaitRead 7 :: [] ∧ (turns [.awaitRead 7] s).tp.rspValid = false) ∧
    ((turns [.queryRead 2] (querying (.running 1 []) s)).env.agenda = .queryRead 2 :: [] ∧
      (turns [.queryRead 2] (querying (.running 1 []) s)).env.query = .running 1 [] ∧
      (turns [.queryRead 2] (querying (.running 1 []) s)).tp.rspValid = false) := by decide

/-- StepRunsTheIssuedOperation: an OA word and the host's three operations. -/
theorem witness_StepRunsTheIssuedOperation :
    ((turns [.oa ⟨0xF, 0⟩] base).env.agenda = .oa ⟨0xF, 0⟩ :: [] ∧
      decode (.oa ⟨0xF, 0⟩) = .ok (.reservedOa8F 7)) ∧
    (turns [.hostWrite []] base).env.agenda = .hostWrite [] :: [] ∧
    (turns [.hostRead 0] base).env.agenda = .hostRead 0 :: [] ∧
    (turns [.hostStatus] base).env.agenda = .hostStatus :: [] := by decide

/-- StepRunsTheIssuedOperation: a query that may not begin, for either reason; one whose write fails; and one
that begins, with each kind of command byte. -/
theorem witness_StepRunsTheIssuedOperation_start :
    (turns [.queryStart 0x02] (unread base)).tp.rspValid = true ∧
    (turns [.queryStart 0x02] (querying (.running 1 []) base)).env.query = .running 1 [] ∧
    ∀ c ∈ [0xBA#8, 0xA2#8, 0x0B#8, 0x02#8, 0x00#8, 0xFF#8],
      (turns [.queryStart c] base).env.agenda = .queryStart c :: [] ∧
      (turns [.queryStart c] base).tp.rspValid = false ∧ (turns [.queryStart c] base).env.query = .none ∧
      (turns [.queryStart c] base).tp.cmdFull = false ∧
      (turns [.queryStart c] (waiting 0x02 base)).tp.cmdFull = true ∧
      (c = 0xBA#8 ∨ c = 0xA2#8 ∨ c = 0x0B#8 ∨ c ≠ 0xBA#8 ∧ c ≠ 0xA2#8 ∧ c ≠ 0x0B#8) := by decide

/-- StepRunsTheIssuedOperation: a query's read one byte short, of the last packet, of one more to come, and of
a query that has ended. -/
theorem witness_StepRunsTheIssuedOperation_read :
    (let s := turns [.queryRead 1] (querying (.running 1 []) (unread base))
     s.env.agenda = .queryRead 1 :: [] ∧ s.env.query = .running 1 [] ∧ s.tp.rspValid = true ∧ 1 < s.tp.rspLen) ∧
    (let s := turns [.queryRead 2] (querying (.running 1 []) (unread base))
     s.env.query = .running 1 [] ∧ s.tp.rspValid = true ∧ s.tp.rspLen ≤ 2 ∧ (1 : Nat) ≤ 1) ∧
    (let s := turns [.queryRead 2] (querying (.running 2 []) (unread base))
     s.env.query = .running 2 [] ∧ s.tp.rspValid = true ∧ s.tp.rspLen ≤ 2 ∧ (1 : Nat) < 2) ∧
    (let s := turns [.queryRead 2] (querying .transportFault base)
     s.env.agenda = .queryRead 2 :: [] ∧ s.env.query = .transportFault) := by decide

/-- StepRunsTheIssuedOperation: a query given up while it runs and after its end; a whole motion packet and the
last pair of one byte more than two pairs; a query that returned too little; and one that returned nothing. -/
theorem witness_StepRunsTheIssuedOperation_passed_on :
    ((turns [.queryTimeout] (querying (.running 361 []) base)).env.query = .running 361 [] ∧
      (turns [.queryTimeout] (querying (.returned []) base)).env.query = .returned []) ∧
    ((turns [.oaDecodeQuery] (querying (.returned [1, 2, 3, 4, 5, 6, 7]) base)).env.query =
        .returned [1, 2, 3, 4, 5, 6, 7] ∧
      (turns [.oaDecodeQuery] (querying (.returned [1, 2, 3, 4, 5, 6]) base)).env.query =
        .returned [1, 2, 3, 4, 5, 6] ∧ [1, 2, 3, 4, 5, 6].length ≠ 7) ∧
    ((turns [.oaStoreQuery 1] (querying (.returned [1, 2, 3, 4, 5]) base)).env.query = .returned [1, 2, 3, 4, 5] ∧
      [1, 2, 3, 4, 5][2 * 1]? = some 3 ∧ [1, 2, 3, 4, 5][2 * 1 + 1]? = some 4 ∧ [1, 2, 3].length ≤ 2 * 1 + 1) ∧
    ((turns [.oaDecodeQuery] (querying .transportFault base)).env.query = .transportFault ∧
      (turns [.oaStoreQuery 0] (querying .timedOut base)).env.query = .timedOut) := by decide

/-- StepRunsTheIssuedOperation: the host's waits at their end, and the replies it passes on or not. -/
theorem witness_StepRunsTheIssuedOperation_waits :
    ((turns [.awaitWrite [0x02]] base).env.agenda = .awaitWrite [0x02] :: [] ∧
      (turns [.awaitWrite [0x02]] base).tp.cmdFull = false) ∧
    ((turns [.awaitRead 2] (unread base)).env.agenda = .awaitRead 2 :: [] ∧
      (turns [.awaitRead 2] (unread base)).tp.rspValid = true) ∧
    (∀ bytes ∈ [[1, 2, 3, 4, 5, 6, 7], [1, 2], []],
      (turns [.oaDecodeReply] { base with env := { base.env with reply := .bytes bytes } }).env.reply =
        .bytes bytes ∧ (bytes.length = 7 ∨ bytes.length = 2 ∨ bytes.length ≠ 7 ∧ bytes.length ≠ 2)) ∧
    (turns [.oaStoreReply] base).env.reply = .none := by decide

/-- SendGoesThroughItsPhases, its seven clauses, the settle count at 1 and at 2. -/
theorem witness_SendGoesThroughItsPhases :
    base.se.phase = .idle ∧ (atPhase .txL 7 base).se.phase = .txL ∧ (atPhase .txA 0 base).se.phase = .txA ∧
    ((atPhase .txH 0 base).se.phase = .txH ∧ (atPhase .txH 0 base).se.bitCnt = 0) ∧
    ((atPhase .txH 1 base).se.phase = .txH ∧ (atPhase .txH 1 base).se.bitCnt ≠ 0) ∧
    (∃ s : State, s.se.phase = .settle ∧ s.se.setCnt - 1 = 0 ∧ s.se.setCnt = 1) ∧
    (∃ s : State, s.se.phase = .settle ∧ s.se.setCnt - 1 ≠ 0 ∧ s.se.setCnt = 2) :=
  ⟨rfl, rfl, rfl, by decide, by decide,
    ⟨{ base with se := { base.se with phase := .settle, setCnt := 1 } }, by decide⟩,
    ⟨{ base with se := { base.se with phase := .settle, setCnt := 2 } }, by decide⟩⟩

/-- ReadGoesThroughItsPhases, its five clauses. -/
theorem witness_ReadGoesThroughItsPhases :
    base.se.phase = .idle ∧ (atPhase .rxL 7 base).se.phase = .rxL ∧ (atPhase .rxH 0 base).se.phase = .rxH ∧
    ((atPhase .rxP 0 base).se.phase = .rxP ∧ (atPhase .rxP 0 base).se.bitCnt = 0) ∧
    ((atPhase .rxP 1 base).se.phase = .rxP ∧ (atPhase .rxP 1 base).se.bitCnt ≠ 0) := by decide

/-- SendClocksItsByteOutMsbFirst, at the least T_SETTLE. -/
theorem witness_SendClocksItsByteOutMsbFirst : base.se.phase = .idle ∧ 1 ≤ base.params.tSettle := by decide

/-- ReadReturnsTheSampledPair. -/
theorem witness_ReadReturnsTheSampledPair : base.se.phase = .idle := rfl

/-- ClockRisesOnlyInsideAByte: the clock rises in TX_H, in RX_H, and on a power-on reset. -/
theorem witness_ClockRisesOnlyInsideAByte :
    (ClockOk midPoll ∧ midPoll.se.sclk = false ∧ answers (step midPoll) (fun t => t.se.sclk) = true) ∧
    (let s := atPhase .rxH 7 (inRoutine 0x0B .p4 base)
     ClockOk s ∧ s.se.sclk = false ∧ answers (step s) (fun t => t.se.sclk) = true) ∧
    (let s := turns [.powerOn] midPoll
     ClockOk s ∧ s.se.sclk = false ∧ answers (step s) (fun t => t.se.sclk && t.se.phase == .idle) = true) :=
  ⟨⟨rfl, rfl, rfl⟩, ⟨rfl, rfl, rfl⟩, ⟨rfl, rfl, rfl⟩⟩

/-- AcceptanceTakesTheWaitingCommand, for each of the five routines. -/
theorem witness_AcceptanceTakesTheWaitingCommand :
    ∀ p ∈ [(0xBA#8, Label.w0), (0xA2#8, .n0), (0x0B#8, .p0), (0x02#8, .m0), (0x00#8, .g0), (0xFF#8, .g0)],
      (waiting p.1 base).cd.status = .idle ∧ (waiting p.1 base).tp.cmdFull = true ∧
      firstLabel (decodeCommand (waiting p.1 base).tp.cmdByte) = some p.2 := by decide

/-- IdleDispatcherStallsWithoutCommand: no agenda, a `.cd` turn, and the waits for a packet. -/
theorem witness_IdleDispatcherStallsWithoutCommand :
    ∀ s ∈ [base, turns [.cd] base, turns [.awaitRead 7] base, turns [.queryRead 7] (querying (.running 1 []) base)],
      cdMoves s = true ∧ s.cd.status = .idle ∧ s.tp.cmdFull = false := by decide

/-- BusyDispatcherTakesNoCommand, with a command waiting: no agenda, a `.cd` turn, and the three waits. -/
theorem witness_BusyDispatcherTakesNoCommand :
    ∀ s ∈ [waiting 0x02 midPoll, turns [.cd] (waiting 0x02 midPoll),
        turns [.awaitWrite [0x00]] (waiting 0x02 midPoll), turns [.awaitRead 7] (waiting 0x02 midPoll),
        turns [.queryRead 7] (querying (.running 1 []) (waiting 0x02 midPoll))],
      cdMoves s = true ∧ s.cd.status = .busy ∧ answers (step s) (fun _ => true) = true := by decide

/-- EmitWaitsOrPlacesThePacket: a wait, and packets of both lengths. -/
theorem witness_EmitWaitsOrPlacesThePacket :
    (unread base).tp.rspValid = true ∧ base.tp.rspValid = false ∧
    packetLength [0x06#8, 0x11#8].length = true ∧ packetLength Bytes7.zero.toList.length = true := by decide

/-- ChipResetPerformsItsLines, both lines, on their first step and on their last. -/
theorem witness_ChipResetPerformsItsLines : ∀ l ∈ [Label.w0, .w1],
    (inRoutine 0xBA l base).cd.status = .busy ∧ (inRoutine 0xBA l base).cd.cmd = 0xBA#8 ∧
    (inRoutine 0xBA l base).cd.label = l ∧ (sendPhase 0xBA (inRoutine 0xBA l base)).se.phase ≠ .idle ∧
    (sendPhase 0xBA (atPhase .settle 0 (inRoutine 0xBA l base))).se.phase = .idle := by decide

/-- NavCtrl2PerformsItsLines. -/
theorem witness_NavCtrl2PerformsItsLines : ∀ l ∈ [Label.n0, .n1],
    (inRoutine 0xA2 l base).cd.status = .busy ∧ (inRoutine 0xA2 l base).cd.cmd = 0xA2#8 ∧
    (inRoutine 0xA2 l base).cd.label = l ∧ (sendPhase 0xA2 (inRoutine 0xA2 l base)).se.phase ≠ .idle ∧
    (sendPhase 0xA2 (atPhase .settle 0 (inRoutine 0xA2 l base))).se.phase = .idle := by decide

/-- PixelGrabPerformsItsLines: the lines that use the bus. -/
theorem witness_PixelGrabPerformsItsLines_bus : ∀ l ∈ [Label.p0, .p1, .p3, .p4],
    (inRoutine 0x0B l base).cd.status = .busy ∧ (inRoutine 0x0B l base).cd.cmd = 0x0B#8 ∧
    (inRoutine 0x0B l base).cd.label = l := by decide

/-- PixelGrabPerformsItsLines: P5 with both, one and no valid bits, and P7 waiting, going on and ending. -/
theorem witness_PixelGrabPerformsItsLines_pairs :
    (let s := holding 0x80 0x80 (inRoutine 0x0B .p5 base)
     s.cd.label = .p5 ∧ s.se.rx0.getLsbD 7 = true ∧ s.se.rx1.getLsbD 7 = true) ∧
    (let s := holding 0x80 0x7F (inRoutine 0x0B .p5 base)
     s.cd.label = .p5 ∧ (s.se.rx0.getLsbD 7 = false ∨ s.se.rx1.getLsbD 7 = false) ∧
       s.params.pixPollLimit = none) ∧
    (let s := holding 0x7F 0x80 (inRoutine 0x0B .p5 { limited with cd := { limited.cd with pollCnt := 1 } })
     s.cd.label = .p5 ∧ (s.se.rx0.getLsbD 7 = false ∨ s.se.rx1.getLsbD 7 = false) ∧
       s.params.pixPollLimit = some 3 ∧ s.cd.pollCnt + 1 ≠ 3) ∧
    (let s := unread (inRoutine 0x0B .p7 base)
     s.cd.label = .p7 ∧ s.tp.rspValid = true) ∧
    (let s := inRoutine 0x0B .p7 { base with cd := { base.cd with pixK := 360 } }
     s.cd.label = .p7 ∧ s.tp.rspValid = false ∧ s.cd.pixK + 1 = 361) ∧
    (let s := inRoutine 0x0B .p7 { base with cd := { base.cd with pixK := 359 } }
     s.cd.label = .p7 ∧ s.tp.rspValid = false ∧ s.cd.pixK + 1 ≠ 361) := by decide

/-- PixelTimeoutEndsTheGrab: the third poll at a limit of 3 (V21); then a command accepted, a step that
keeps the bit, and a power-on reset. -/
theorem witness_PixelTimeoutEndsTheGrab :
    (let s := holding 0x85 0x10 (inRoutine 0x0B .p5 { limited with cd := { limited.cd with pollCnt := 2 } })
     s.cd.status = .busy ∧ s.cd.cmd = 0x0B#8 ∧ s.cd.label = .p5 ∧
       (s.se.rx0.getLsbD 7 = false ∨ s.se.rx1.getLsbD 7 = false) ∧ s.params.pixPollLimit = some 3 ∧
       s.cd.pollCnt + 1 = 3) ∧
    (let s := waiting 0x00 { limited with cd := { limited.cd with pto := true } }
     s.cd.status = .idle ∧ s.tp.cmdFull = true ∧ s.cd.pto = true ∧ cdMoves s = true ∧
       answers (step s) (fun t => !t.cd.pto && t.cd.status == .busy) = true) ∧
    (let s := turns [.hostStatus] { limited with cd := { limited.cd with pto := true } }
     s.cd.pto = true ∧ answers (step s) (fun t => t.cd.pto) = true) ∧
    (let s := turns [.powerOn] { limited with cd := { limited.cd with pto := true } }
     s.env.agenda = .powerOn :: [] ∧ s.cd.pto = true ∧ answers (step s) (fun t => !t.cd.pto) = true) := by decide

/-- MotionPerformsItsLines: every line, with a READ under way and with one in its last sample. -/
theorem witness_MotionPerformsItsLines :
    (∀ l ∈ [Label.m0, .m2, .m4, .m6, .m8, .m9],
      (inRoutine 0x02 l base).cd.status = .busy ∧ (inRoutine 0x02 l base).cd.cmd = 0x02#8 ∧
      (inRoutine 0x02 l base).cd.label = l ∧ (inRoutine 0x02 l base).tp.rspValid = false ∧
      (unread (inRoutine 0x02 l base)).tp.rspValid = true) ∧
    (∀ l ∈ [Label.m1, .m3, .m5, .m7], (inRoutine 0x02 l base).cd.label = l ∧
      (readPhase (inRoutine 0x02 l base)).se.phase ≠ .idle ∧
      (readPhase (atPhase .rxP 0 (inRoutine 0x02 l (samples [(true, true)] base)))).se.phase = .idle) := by
  decide

/-- RegReadPerformsItsLines. -/
theorem witness_RegReadPerformsItsLines :
    (∀ l ∈ [Label.g0, .g1, .g2],
      (inRoutine 0x00 l base).cd.status = .busy ∧ (inRoutine 0x00 l base).cd.cmd = 0x00#8 ∧
      (inRoutine 0x00 l base).cd.label = l ∧ (inRoutine 0x00 l base).tp.rspValid = false ∧
      (unread (inRoutine 0x00 l base)).tp.rspValid = true) ∧
    (readPhase (inRoutine 0x00 .g1 base)).se.phase ≠ .idle ∧
    (readPhase (atPhase .rxP 0 (inRoutine 0x00 .g1 (samples [(true, true)] base)))).se.phase = .idle := by
  decide

/-- WriteCommandsRunToTheirEnd, for both commands. -/
theorem witness_WriteCommandsRunToTheirEnd : ∀ c ∈ [0xBA#8, 0xA2#8], ∃ v : Byte,
    (c = 0xBA#8 ∧ v = (waiting c base).params.resetPayload ∨
      c = 0xA2#8 ∧ v = (waiting c base).params.navCtrl2Payload) ∧
    (waiting c base).env.agenda = [] ∧ (waiting c base).cd.status = .idle ∧
    (waiting c base).tp.cmdFull = true ∧ (waiting c base).tp.cmdByte = c ∧
    (waiting c base).se.phase = .idle ∧ 1 ≤ (waiting c base).params.tSettle := by
  intro c hc
  simp only [List.mem_cons, List.not_mem_nil, or_false] at hc
  rcases hc with rfl | rfl
  · exact ⟨0x5A, by decide⟩
  · exact ⟨0x40, by decide⟩

/-- RegReadRunsToItsPacket, at both ends of the byte range. -/
theorem witness_RegReadRunsToItsPacket : ∀ c ∈ [0x00#8, 0xFF#8],
    namedCommandByte (waiting c base).tp.cmdByte = false ∧ (waiting c base).env.agenda = [] ∧
    (waiting c base).cd.status = .idle ∧ (waiting c base).tp.cmdFull = true ∧
    (waiting c base).tp.rspValid = false ∧ (waiting c base).se.phase = .idle ∧
    1 ≤ (waiting c base).params.tSettle := by decide

/-- MotionRunsToItsPacket. -/
theorem witness_MotionRunsToItsPacket : ∃ e1 e2 e3 e4 : Env,
    ((waiting 0x02 base).tp.cmdByte = 0x02#8 ∧ (waiting 0x02 base).env.agenda = [] ∧
      (waiting 0x02 base).cd.status = .idle ∧ (waiting 0x02 base).tp.cmdFull = true ∧
      (waiting 0x02 base).tp.rspValid = false ∧ (waiting 0x02 base).se.phase = .idle ∧
      1 ≤ (waiting 0x02 base).params.tSettle) ∧
    e1 = afterMiso 8 (waiting 0x02 base).env ∧ e2 = afterMiso 8 e1 ∧ e3 = afterMiso 8 e2 ∧
    e4 = afterMiso 8 e3 := ⟨_, _, _, _, by decide, rfl, rfl, rfl, rfl⟩

/-- The premises of PixelPollKeepsOrDiscardsThePair but the last, for a pair that is kept or not. -/
def pollReady (s : State) (kept : Bool) : Prop :=
  s.env.agenda = [] ∧ s.cd.status = .busy ∧ s.cd.cmd = 0x0B#8 ∧ s.cd.label = .p3 ∧ s.se.phase = .idle ∧
    1 ≤ s.params.tSettle ∧
    (kept = true ↔ (upcomingPair s.env).1.getLsbD 7 = true ∧ (upcomingPair s.env).2.getLsbD 7 = true)

/-- PixelPollKeepsOrDiscardsThePair: a kept pair without a limit and at the last allowed poll, and a discarded
one without a limit and one poll below it. -/
theorem witness_PixelPollKeepsOrDiscardsThePair :
    pollReady (inRoutine 0x0B .p3 (samples (List.replicate 8 (true, true)) base)) true ∧
    (let s := inRoutine 0x0B .p3 (samples (List.replicate 8 (true, true))
        { limited with cd := { limited.cd with pollCnt := 2 } })
     pollReady s true ∧ s.params.pixPollLimit = some 3 ∧ s.cd.pollCnt + 1 = 3) ∧
    (let s := inRoutine 0x0B .p3 (samples (List.replicate 8 (true, false)) base)
     pollReady s false ∧ s.params.pixPollLimit = none) ∧
    (let s := inRoutine 0x0B .p3 (samples (List.replicate 8 (true, false))
        { limited with cd := { limited.cd with pollCnt := 1 } })
     pollReady s false ∧ s.params.pixPollLimit = some 3 ∧ s.cd.pollCnt + 1 ≠ 3) := by
  unfold pollReady
  decide

/-- PixelPacketsComeFromOneFullyValidRead: the step that keeps a pair, and the emission of the last pair. -/
theorem witness_PixelPacketsComeFromOneFullyValidRead :
    (let s := holding 0x80 0xFF (inRoutine 0x0B .p5 base)
     ParamsOk s ∧ PixelOk s ∧ answers (step s) (fun t => t.cd.label == .p7) = true) ∧
    (let s := holding 0x86 0x91 (inRoutine 0x0B .p7
        { base with cd := { base.cd with pixK := 360, rb := ⟨0x06, 0x11, 0, 0, 0, 0, 0⟩ } })
     PixelOk s ∧ s.cd.status = .busy ∧ s.cd.cmd = 0x0B#8 ∧ s.tp.rspValid = false ∧
       answers (exec .cmdPixelGrab s) (fun t => t.tp.rspValid) = true) := by
  refine ⟨⟨⟨rfl, rfl⟩, ⟨by decide, ?_, fun _ _ => ⟨by decide, ?_⟩, by decide⟩, by decide⟩,
    ⟨by decide, ?_, fun _ _ => ⟨by decide, ?_⟩, by decide⟩, by decide⟩ <;> exact fun _ h => by cases h

/-- UnboundedPollGoesOnForEver: two polls, one valid on one line only, one on none, more to come. -/
theorem witness_UnboundedPollGoesOnForEver : ∃ (rs : List (List (Bool × Bool))) (more : List (Bool × Bool)),
    let s := samples (rs.flatten ++ more) (inRoutine 0x0B .p3 base)
    (∀ r ∈ rs, r.length = 8 ∧ r.head? ≠ some (true, true)) ∧ rs.length = 2 ∧
    s.env.sensorBits = rs.flatten ++ more ∧ s.env.agenda = [] ∧ s.params.pixPollLimit = none ∧
    s.cd.status = .busy ∧ s.cd.cmd = 0x0B#8 ∧ s.cd.label = .p3 ∧ s.se.phase = .idle ∧
    1 ≤ s.params.tSettle :=
  ⟨[List.replicate 8 (true, false), List.replicate 8 (false, false)], [(true, true)], by decide⟩

/-- GrabbedPixelReachesTheFrames: the last pixel of a grab and the last element of the frames. -/
theorem witness_GrabbedPixelReachesTheFrames :
    let s := turns [.awaitRead 2, .oaStoreReply] (samples (List.replicate 8 (true, true)) (inRoutine 0x0B .p3
      { base with cd := { base.cd with pixK := 360 }, oa := { base.oa with pixIdx := 360 } }))
    s.env.agenda = .awaitRead 2 :: .oaStoreReply :: [] ∧ s.cd.status = .busy ∧ s.cd.cmd = 0x0B#8 ∧
    s.cd.label = .p3 ∧ s.se.phase = .idle ∧ 1 ≤ s.params.tSettle ∧ s.tp.rspValid = false ∧
    (upcomingPair s.env).1.getLsbD 7 = true ∧ (upcomingPair s.env).2.getLsbD 7 = true ∧
    s.cd.pixK + 1 = 361 := by decide

/-- HostWriteAcceptsOneByteWhenFree: accepted, refused for its length (0 and 2), refused for a full mailbox. -/
theorem witness_HostWriteAcceptsOneByteWhenFree :
    base.tp.cmdFull = false ∧ ([] : List Byte).length ≠ 1 ∧ [0x02#8, 0x03#8].length ≠ 1 ∧
    (waiting 0x02 base).tp.cmdFull = true := by decide

/-- HostReadTakesAWholePacketOrNothing: nothing there, one byte short, and exactly enough. -/
theorem witness_HostReadTakesAWholePacketOrNothing :
    base.tp.rspValid = false ∧ ((unread base).tp.rspValid = true ∧ 1 < (unread base).tp.rspLen) ∧
    ((unread base).tp.rspValid = true ∧ (unread base).tp.rspLen ≤ 2) := by decide

/-- MailboxesAreNeverOverwritten: an emission and a host write that meet full mailboxes. -/
theorem witness_MailboxesAreNeverOverwritten :
    (let s := unread (inRoutine 0x02 .m9 base)
     s.tp.rspValid = true ∧ answers (step s) (fun t => t.tp.rspValid) = true) ∧
    (let s := turns [.hostWrite [0x00]] (waiting 0x02 base)
     s.tp.cmdFull = true ∧ answers (step s) (fun t => t.tp.cmdFull) = true) := by decide

/-- Every power-on state, and every state a power-on reset leaves, has the power-on values. -/
theorem powerOn_values (p : Params) : PowerOnValues (State.powerOn p) :=
  ⟨rfl, rfl, rfl, rfl, rfl, rfl, rfl, rfl, rfl, rfl, rfl, rfl, rfl, rfl, rfl, rfl, rfl, rfl, rfl, rfl, rfl, rfl, rfl,
    fun _ => ⟨rfl, rfl⟩, rfl⟩

/-- AbsoluteSumsAreTheWrappedDeltaSums: after a session reset, at power-on and after a power-on reset during a
run; sums that fit and one that does not; and an operation that writes the sums. -/
theorem witness_AbsoluteSumsAreTheWrappedDeltaSums :
    (∃ s, exec .sessionReset base = .next s) ∧ PowerOnValues base ∧ PowerOnValues (powerOnReset midPoll) ∧
    (∀ f ∈ [Bytes7.b0, Bytes7.b1, Bytes7.b2, Bytes7.b3],
      -(2 ^ 31) ≤ deltaSum f [⟨0x80, 0x7F, 0x80, 0x7F, 0, 0, 0⟩] ∧
      deltaSum f [⟨0x80, 0x7F, 0x80, 0x7F, 0, 0, 0⟩] < 2 ^ 31) ∧
    (∀ n : Nat, deltaSum Bytes7.b0 (List.replicate n ⟨0x7F, 0, 0, 0, 0, 0, 0⟩) = n * 127) ∧
    answers (exec (.decodeMotion 1 0 0 0 0 0 0) base) (fun t => t.oa.absX != base.oa.absX) = true := by
  refine ⟨⟨_, rfl⟩, powerOn_values _, powerOn_values _, by decide, fun n => ?_, by decide⟩
  simp only [deltaSum, List.map_replicate, List.sum_replicate]
  simp [s8]

/-- StorePixelPairWritesOneElementOfEachFrame: another element than the last one. -/
theorem witness_StorePixelPairWritesOneElementOfEachFrame :
    (359 : Nat) ≠ ({ base with oa := { base.oa with pixIdx := 360 } } : State).oa.pixIdx.val := by decide

/-- FullGrabFillsBothFramesInOrder: the first and the last pair. -/
theorem witness_FullGrabFillsBothFramesInOrder :
    (List.replicate 361 (0x06#8, 0x11#8)).length = 361 ∧ base.oa.pixIdx = 0 ∧
    (List.replicate 361 (0x06#8, 0x11#8))[0]? = some (0x06#8, 0x11#8) ∧
    (List.replicate 361 (0x06#8, 0x11#8))[360]? = some (0x06#8, 0x11#8) :=
  ⟨List.length_replicate, rfl, by decide +kernel, by decide +kernel⟩

/-- OnlySetBtnWritesTheButtonFlag: an operation that is no SET_BTN and answers. -/
theorem witness_OnlySetBtnWritesTheButtonFlag :
    (∃ t, exec .sessionReset base = .next t) ∧ ∀ b, Instr.sessionReset ≠ .setBtn b :=
  ⟨⟨_, rfl⟩, by intro b h; cases h⟩

/-- ReservedCodesRaiseIllegalOp: OP 0x7, 0x8 and 0xF, and bits other than 0. -/
theorem witness_ReservedCodesRaiseIllegalOp :
    (Instr.reservedOa7 = .reservedOa7) ∧ (∃ low, Instr.reservedOa8F 0 = .reservedOa8F low) ∧
    (∃ low, Instr.reservedOa8F 7 = .reservedOa8F low) ∧ (1 : Nat) ≠ 0 ∧
    0x7 ≤ (⟨0x7, 0⟩ : OaWord).op.toNat ∧ 0x7 ≤ (⟨0xF, 0⟩ : OaWord).op.toNat :=
  ⟨rfl, ⟨_, rfl⟩, ⟨_, rfl⟩, by decide, by decide, by decide⟩

/-- RoundingIsToNearestEven: a tie below, a tie above, the greatest radicand; then operands of every clause: a
NaN, finite ones with and without a zero divisor, infinities of one sign and of both, and radicands. -/
theorem witness_RoundingIsToNearestEven :
    (2 * 5 = (2 * divNearestEven 5 2 + 1) * 2) ∧ (2 * divNearestEven 3 2 * 2 = 2 * 3 + 2) ∧
    2 ^ 180 - 1 < 2 ^ 180 ∧ fIsNaN fNaN = true ∧
    (fIsFinite 0x7FEFFFFFFFFFFFFF = true ∧ fIsFinite 0x8000000000000001 = true ∧ fIsFinite 0 = true) ∧
    (fIsInf (fInf true) = true ∧ fIsInf (fInf false) = true ∧ fNeg (fInf true) ≠ fNeg (fInf false)) ∧
    (fIsZero (fZero true) = true ∧ fIsZero 0xBFF0000000000000 = false ∧ fNeg 0xBFF0000000000000 = true) := by
  decide +kernel

/-- The values of those operands: zero, and the least and the greatest that are not. -/
theorem witness_RoundingIsToNearestEven_values :
    fVal 0 = 0 ∧ 0 < fVal 0x7FEFFFFFFFFFFFFF ∧ fVal 0x8000000000000001 ≠ 0 := by
  have hz : fSignedMant 0#64 = 0 := by decide +kernel
  have hp : (0 : ℚ) < (fSignedMant 0x7FEFFFFFFFFFFFFF : ℚ) := by exact_mod_cast (by decide +kernel)
  have hn : (fSignedMant 0x8000000000000001 : ℚ) ≠ 0 := by exact_mod_cast (by decide +kernel)
  exact ⟨by simp [fVal, hz], mul_pos hp (by positivity), mul_ne_zero hn (by positivity)⟩

/-- ConversionsAndComparisonsAreExact: both ends of the exact range. -/
theorem witness_ConversionsAndComparisonsAreExact :
    (2 ^ 53 : Int).natAbs ≤ 2 ^ 53 ∧ (-(2 ^ 53) : Int).natAbs ≤ 2 ^ 53 ∧
    fSignedMant (fOfInt (-(2 ^ 53))) * 2 ^ fScale (fOfInt (-(2 ^ 53))) = -(2 ^ 53) * 2 ^ 1075 := by decide +kernel

/-- RoundHalfAwayIsNearestTiesAway: both signs, -2.5 with a fraction, 2^53 without. -/
theorem witness_RoundHalfAwayIsNearestTiesAway :
    fNeg 0xC004000000000000 = true ∧ fNeg 0x4340000000000000 = false ∧
    1075 ≤ fScale 0x4340000000000000 ∧ fScale 0xC004000000000000 < 1075 := by decide +kernel

/-- TickFollowsItsRule: per-sensor mode; free-ball mode with the eleven values of V42. -/
theorem witness_TickFollowsItsRule :
    base.oa.mode = .perSensor ∧ ∃ rot0 rot1 roll0 roll1 dist dH x y h0 h : F64,
      let s := ball 0x408f400000000000 0x40631fdb22d0e560 0 0 0 30 40
      s.oa.mode = .freeBall ∧
      rot0 = fDiv (fOfInt s.oa.lastDx.s0.toInt) s.oa.cal0 ∧ rot1 = fDiv (fOfInt s.oa.lastDx.s1.toInt) s.oa.cal1 ∧
      roll0 = fDiv (fOfInt s.oa.lastDy.s0.toInt) s.oa.cal0 ∧
      roll1 = fDiv (fOfInt s.oa.lastDy.s1.toInt) s.oa.cal1 ∧
      dist = fMul s.oa.circ (fSqrt (fAdd (fMul roll0 roll0) (fMul roll1 roll1))) ∧
      dH = fMul fPi (fAdd rot0 rot1) ∧ x = fAdd s.oa.posX (fMul dist (fcosOf s.params s.oa.heading)) ∧
      y = fAdd s.oa.posY (fMul dist (fsinOf s.params s.oa.heading)) ∧ h0 = fAdd s.oa.heading dH ∧
      h = (if fGe h0 fTwoPi then fSub h0 fTwoPi else if fLt h0 (fZero false) then fAdd h0 fTwoPi else h0) :=
  ⟨rfl, _, _, _, _, _, _, _, _, _, _, rfl, rfl, rfl, rfl, rfl, rfl, rfl, rfl, rfl, rfl, rfl⟩

/-- FreeBallTickCommits: V42, whose history has a second and a third place. -/
theorem witness_FreeBallTickCommits :
    let s := ball 0x408f400000000000 0x40631fdb22d0e560 0 0 0 30 40
    s.oa.mode = .freeBall ∧ calUsable s.oa = true ∧ fIsFinite (tickX s.params s.oa) = true ∧
    fIsFinite (tickY s.params s.oa) = true ∧ fIsFinite (tickHeading s.oa) = true ∧
    histCoord (tickX s.params s.oa) = some 15 ∧ histCoord (tickY s.params s.oa) = some 0 ∧
    0 < s.oa.hist.length ∧ 1 + 1 < s.oa.hist.length := by decide +kernel

/-- HeadingWrapsAtMostOnce: at TWO_PI, just below it, just below zero, at +0.0, and a NaN. -/
theorem witness_HeadingWrapsAtMostOnce :
    fGe fTwoPi fTwoPi = true ∧ fGe (fTwoPi - 1) fTwoPi = false ∧ fLt (fTwoPi - 1) (fZero false) = false ∧
    fGe 0x8000000000000001 fTwoPi = false ∧ fLt 0x8000000000000001 (fZero false) = true ∧
    fGe 0 fTwoPi = false ∧ fLt 0 (fZero false) = false ∧ fIsNaN fNaN = true := by decide

/-- TickDependsOnlyOnItsInputs: two states that agree on the inputs and differ elsewhere, the recorded errors
included; and two that agree on those too. -/
theorem witness_TickDependsOnlyOnItsInputs : ∀ e ∈ [0x00#8, 0x0F#8],
    let s := ball 0x408f400000000000 0x40631fdb22d0e560 0 10 10 0 0
    let t := { unread s with oa := { s.oa with absX := ⟨5, 5⟩, btnRel := true, oaErr := e } }
    s ≠ t ∧ s.oa.mode = t.oa.mode ∧ s.oa.lastDx = t.oa.lastDx ∧ s.oa.lastDy = t.oa.lastDy ∧
    s.oa.cal0 = t.oa.cal0 ∧ s.oa.cal1 = t.oa.cal1 ∧ s.oa.circ = t.oa.circ ∧
    s.oa.heading = t.oa.heading ∧ s.oa.posX = t.oa.posX ∧ s.oa.posY = t.oa.posY ∧
    s.oa.hist = t.oa.hist ∧ s.params.trig = t.params.trig ∧ (s.oa.oaErr = t.oa.oaErr ↔ e = 0) ∧
    (∃ s', exec .tick s = .next s') ∧ ∃ t', exec .tick t = .next t' := by
  intro e he
  simp only [List.mem_cons, List.not_mem_nil, or_false] at he
  rcases he with rfl | rfl <;>
    exact ⟨by decide, rfl, rfl, rfl, rfl, rfl, rfl, rfl, rfl, rfl, rfl, rfl, by decide, ⟨_, rfl⟩, ⟨_, rfl⟩⟩

/-- OdometryStaysFinite: before a committing tick. -/
theorem witness_OdometryStaysFinite :
    let s := turns [.oa ⟨2, 0⟩] (ball 0x408f400000000000 0x40631fdb22d0e560 0 0 0 30 40)
    OdometryOk s ∧ ∃ t, step s = .next t := ⟨⟨by decide, by decide, by decide, rfl⟩, _, rfl⟩

/-- ErrorBitsAreSticky: a set bit before a session reset (V61). -/
theorem witness_ErrorBitsAreSticky :
    let s := turns [.oa ⟨5, 0⟩] { base with oa := { base.oa with oaErr := 0x0F } }
    (∀ rest, s.env.agenda ≠ .powerOn :: rest) ∧ (∃ t, step s = .next t) ∧
    s.oa.oaErr.getLsbD 0 = true ∧ s.oa.oaErr.getLsbD 3 = true :=
  And.intro (by intro rest h; cases h) ⟨⟨_, rfl⟩, by decide, by decide⟩

/-- SnapshotCopiesAllOaState, in both modes. -/
theorem witness_SnapshotCopiesAllOaState :
    ((turns [.snapshot] base).env.agenda = .snapshot :: [] ∧ (turns [.snapshot] base).oa.mode = .perSensor) ∧
    ((turns [.snapshot] (ball 0 0 0 0 0 0 0)).env.agenda = .snapshot :: [] ∧
      (turns [.snapshot] (ball 0 0 0 0 0 0 0)).oa.mode = .freeBall) := by decide

/-- CommandsLeaveTheOaAlone: a routine, SEND, READ and EMIT answer; an unread packet, and none. -/
theorem witness_CommandsLeaveTheOaAlone :
    isCommand .cmdMotion = true ∧ (∃ t, exec .cmdMotion (unread (inRoutine 0x02 .m9 base)) = .next t) ∧
    (∃ t, exec (.send 0xBA) base = .next t) ∧ (∃ t, exec .read base = .next t) ∧
    (∃ t, exec (.emit [1, 2]) base = .next t) ∧ (unread (inRoutine 0x02 .m9 base)).tp.rspValid = true ∧
    answers (exec (.send 0xBA) base) (fun t => !t.tp.rspValid) = true :=
  ⟨rfl, ⟨_, rfl⟩, ⟨_, rfl⟩, ⟨_, rfl⟩, ⟨_, rfl⟩, rfl, by decide⟩

/-- OaOperationsLeaveTheBusAlone: an operation, and one that is no STORE_PIXEL_PAIR. -/
theorem witness_OaOperationsLeaveTheBusAlone :
    decode (.oa ⟨0x5, 0⟩) = .ok .sessionReset ∧ (∃ t, exec .sessionReset midPoll = .next t) ∧
    ∀ p0 p1, Instr.sessionReset ≠ .storePixelPair p0 p1 :=
  ⟨by decide, ⟨_, rfl⟩, by intro p0 p1 h; cases h⟩

/-- HostOperationsTouchOnlyTheMailboxes: a write that fills, a read that empties, a status read. -/
theorem witness_HostOperationsTouchOnlyTheMailboxes :
    answers (exec (.hostWrite [0x02]) base) (fun t => t.tp.cmdFull != base.tp.cmdFull) = true ∧
    answers (exec (.hostRead 2) (unread base)) (fun t => t.tp.rspValid != (unread base).tp.rspValid) = true ∧
    ∃ t, exec .hostStatus base = .next t := ⟨by decide, by decide, _, rfl⟩

end Sys2Proof.Tests
end

section
/-! SUPPORT. The invariant `Inv` is kept by every step (O4): what an operation of a port can do to each unit, then
one lemma per part of the invariant, then the whole. -/
namespace Sys2Proof.Machine

/-! ### What an operation of a port can do -/

/-- The terms the decoders give are well formed (41_dispatcher R92: `CMD_REG_READ` has none of the named bytes). -/
theorem decodeCommand_wf (c : Byte) : (decodeCommand c).wf = true := by
  unfold decodeCommand
  split_ifs with h1 h2 h3 h4
  case neg => simp [Instr.wf, namedCommandByte, h1, h2, h3, h4]
  all_goals rfl

theorem decodeOa_wf (w : OaWord) : (decodeOa w).wf = true := by
  unfold decodeOa
  split <;> rfl

theorem cdTurn_run_wf {s u : State} {i : Instr} (h : cdTurn s = .run i u) : i.wf = true := by
  unfold cdTurn cdOperation at h
  cases hs : s.cd.status with
  | busy => simp only [hs, Fetched.run.injEq] at h; rw [← h.1]; exact decodeCommand_wf _
  | idle =>
    cases hf : s.tp.cmdFull with
    | true => simp only [hs, hf, if_true, Fetched.run.injEq] at h; rw [← h.1]; exact decodeCommand_wf _
    | false => simp [hs, hf] at h

theorem queryReadTurn_run_wf {n : Nat} {s u : State} {i : Instr} (h : queryReadTurn n s = .run i u) :
    i.wf = true := by
  unfold queryReadTurn at h
  split at h
  · split at h
    · cases h; rfl
    · exact cdTurn_run_wf h
  · cases h

theorem motionOf_wf {q : Query} {i : Instr} (h : motionOf q = some i) : i.wf = true := by
  unfold motionOf at h
  split at h <;> cases h
  rfl

theorem pairOf_wf {k : Nat} {q : Query} {i : Instr} (h : pairOf k q = some i) : i.wf = true := by
  unfold pairOf at h
  split at h
  · split at h <;> cases h
    rfl
  · cases h

theorem issueFrom_run {o : Option Instr} {s u : State} {i : Instr} (h : issueFrom o s = .run i u) : o = some i := by
  cases o <;> cases h
  rfl

/-- A turn performs well-formed operations only. -/
theorem fetch_run_wf {s u : State} {i : Instr} (h : fetch s = .run i u) : i.wf = true := by
  unfold fetch at h
  split at h
  · exact cdTurn_run_wf h
  · rename_i t rest _
    unfold turnOf at h
    cases t with
    | cd => exact cdTurn_run_wf h
    | oa w => cases h; exact decodeOa_wf w
    | hostWrite _ | hostRead _ | hostStatus => cases h; rfl
    | snapshot | powerOn => cases h
    | awaitWrite _ =>
      simp only at h
      split at h
      · exact cdTurn_run_wf h
      · cases h; rfl
    | awaitRead _ =>
      simp only at h
      split at h
      · cases h; rfl
      · exact cdTurn_run_wf h
    | oaDecodeReply | oaStoreReply =>
      simp only at h
      split at h <;> cases h
      rfl
    | queryStart c =>
      simp only [queryStartTurn] at h
      split at h <;> cases h
      rfl
    | queryRead n => exact queryReadTurn_run_wf h
    | queryTimeout =>
      simp only [queryTimeoutTurn] at h
      split at h <;> cases h
    | oaDecodeQuery => exact motionOf_wf (issueFrom_run h)
    | oaStoreQuery k => exact pairOf_wf (issueFrom_run h)

/-- What an operation can do to the OA, said once: `OaMove ps o p` when p is the OA after it and o the OA before. -/
inductive OaMove (ps : Params) (o : Odometry) : Odometry → Prop
  | stay : OaMove ps o o
  | decoded (b0 b1 b2 b3 b4 b5 : Byte) : OaMove ps o (decodeMotionInto b0 b1 b2 b3 b4 b5 o)
  | stored (p0 p1 : Byte) : OaMove ps o (storePairInto p0 p1 o)
  | sessionReset : OaMove ps o (sessionResetInto o)
  | modeSet (m : Mode) : OaMove ps o { o with mode := m }
  | calSet (c0 c1 circ : F64) : OaMove ps o { o with cal0 := c0, cal1 := c1, circ := circ }
  | btnSet (b : Bool) : OaMove ps o { o with btnRel := b }
  | raised (code : OaErrorCode) : OaMove ps o { o with oaErr := setOaError o.oaErr code }
  | committed (e : Coord × Coord) (hx : fIsFinite (tickX ps o) = true) (hy : fIsFinite (tickY ps o) = true)
      (hh : fIsFinite (tickHeading o) = true) :
      OaMove ps o (commitTick (tickX ps o) (tickY ps o) (tickHeading o) e o)

/-- What an operation of a port other than a command row can do to the whole state, said once: it moves the OA
alone, or the host's operation leaves all but the mailboxes and the surroundings alone and places no packet. -/
theorem exec_noncommand_cases {i : Instr} {s t : State} (hp : isPortOperation i) (hc : isCommand i = false)
    (h : exec i s = .next t) :
    (∃ o, OaMove s.params s.oa o ∧ t = { s with oa := o }) ∨
    (∃ tp env, t = { s with tp := tp, env := env } ∧ tp.rspLen = s.tp.rspLen ∧
      (tp.rspValid = true → s.tp.rspValid = true)) := by
  obtain ⟨hsend, hread, hemit⟩ := hp
  cases i with
  | cmdChipReset | cmdNavCtrl2 | cmdPixelGrab | cmdMotion | cmdRegRead _ => cases hc
  | send v => exact absurd rfl (hsend v)
  | read => exact absurd rfl hread
  | emit bs => exact absurd rfl (hemit bs)
  | hostWrite bs =>
    simp only [exec] at h
    rcases execHostWrite_cases bs s with ⟨_, -, -, e⟩ | ⟨-, e⟩ <;> rw [e] at h <;> cases h <;>
      exact .inr ⟨_, _, rfl, rfl, id⟩
  | hostRead n =>
    simp only [exec] at h
    rcases execHostRead_cases n s with ⟨-, e⟩ | ⟨-, -, e⟩ | ⟨-, -, e⟩ <;> rw [e] at h <;> cases h
    · exact .inr ⟨_, _, rfl, rfl, id⟩
    · exact .inr ⟨_, _, rfl, rfl, id⟩
    · exact .inr ⟨_, _, rfl, rfl, fun hv => by cases hv⟩
  | hostStatus => cases h; exact .inr ⟨_, _, rfl, rfl, id⟩
  | decodeMotion b0 b1 b2 b3 b4 b5 _ => cases h; exact .inl ⟨_, .decoded b0 b1 b2 b3 b4 b5, rfl⟩
  | storePixelPair p0 p1 => cases h; exact .inl ⟨_, .stored p0 p1, rfl⟩
  | sessionReset => cases h; exact .inl ⟨_, .sessionReset, rfl⟩
  | setMode m => cases h; exact .inl ⟨_, .modeSet m, rfl⟩
  | setCal c0 c1 circ => cases h; exact .inl ⟨_, .calSet c0 c1 circ, rfl⟩
  | setBtn b => cases h; exact .inl ⟨_, .btnSet b, rfl⟩
  | reservedOa7 | reservedOa8F _ => cases h; exact .inl ⟨_, .raised .illegalOp, rfl⟩
  | tick =>
    rcases execTick_cases h with rfl | ⟨-, code, -, rfl⟩ | ⟨-, hx, hy, finX, finY, finH, rfl⟩
    · exact .inl ⟨_, .stay, rfl⟩
    · exact .inl ⟨_, .raised code, rfl⟩
    · exact .inl ⟨_, .committed _ finX finY finH, rfl⟩

/-- What a command row can do to the OA and to the parameters: nothing. -/
theorem exec_command_keeps {i : Instr} {s t : State} (hc : isCommand i = true) (h : exec i s = .next t) :
    t.oa = s.oa ∧ t.params = s.params := by
  rcases exec_command_shape hc h with k | ⟨-, -, l, -, -, rfl⟩
  · obtain ⟨ho, hps, -⟩ := k.keeps
    exact ⟨ho, hps⟩
  · exact ⟨rfl, rfl⟩

/-- What an operation of a port can do to the OA; the parameters stay. -/
theorem exec_oaMove {i : Instr} {s t : State} (hp : isPortOperation i) (h : exec i s = .next t) :
    OaMove s.params s.oa t.oa ∧ t.params = s.params := by
  cases hc : isCommand i with
  | true =>
    obtain ⟨ho, hps⟩ := exec_command_keeps hc h
    rw [ho]
    exact ⟨.stay, hps⟩
  | false =>
    rcases exec_noncommand_cases hp hc h with ⟨o, ho, rfl⟩ | ⟨tp, env, rfl, -, -⟩
    · exact ⟨ho, rfl⟩
    · exact ⟨.stay, rfl⟩

theorem LineShape.params {s t : State} (h : LineShape s t) : t.params = s.params := by
  obtain ⟨-, hps, -⟩ := h.keeps
  exact hps

/-! ### The clock, `CHSEL` and the settle count (40_shift_engine R72, 10_state R23, R24) -/

/-- One micro-phase puts the clock at the level of the next one. -/
theorem microPhase_clockOk {start : ShiftEngine → ShiftEngine} {s : State}
    (hstart : (start s.se).sclk = clockLevel (start s.se).phase) (h : ClockOk s) :
    ClockOk (microPhase start s) := by
  unfold ClockOk at *
  cases hp : s.se.phase with
  | idle => simpa [microPhase, hp] using hstart
  | txH => rcases phaseTxH_cases s.params.tSettle s.se with ⟨hc, ⟨-, hn, -⟩ | ⟨-, hn, -⟩⟩ <;>
      simp [microPhase, hp, hc, hn, clockLevel]
  | rxP => rcases phaseRxP_cases (misoNow s.env) s.se with ⟨hc, -, -, -, ⟨-, hn⟩ | ⟨-, hn, -⟩⟩ <;>
      simp [microPhase, hp, hc, hn, h, clockLevel]
  | settle =>
    simp only [microPhase, hp, phaseSettle, h]
    split <;> rfl
  | txA => simp [microPhase, hp, phaseTxA, h, clockLevel]
  | txL | rxL | rxH => simp [microPhase, hp, phaseTxL, phaseRxL, phaseRxH, clockLevel]

theorem EngineMoves.clockOk {s t : State} (h : EngineMoves s t) (hs : ClockOk s) : ClockOk t := by
  rcases h with e | ⟨v, e⟩ | e <;> rw [ClockOk, e]
  · exact hs
  · exact microPhase_clockOk rfl hs
  · exact microPhase_clockOk rfl hs

/-- `CHSEL` is static (D4): no micro-phase writes it. -/
theorem microPhase_chsel {start : ShiftEngine → ShiftEngine} {s : State}
    (hstart : (start s.se).chsel = s.se.chsel) : (microPhase start s).se.chsel = s.se.chsel := by
  unfold microPhase
  split
  case h_1 => exact hstart
  case h_4 => simp only [phaseTxH]; split <;> rfl
  case h_8 => simp only [phaseRxP]; split <;> rfl
  all_goals rfl

theorem EngineMoves.chsel {s t : State} (h : EngineMoves s t) : t.se.chsel = s.se.chsel := by
  rcases h with e | ⟨v, e⟩ | e <;> rw [e]
  · exact microPhase_chsel rfl
  · exact microPhase_chsel rfl

/-- One micro-phase keeps the settle count in its range; the delay begins with at least one step to go. -/
theorem microPhase_settleOk {start : ShiftEngine → ShiftEngine} {s : State} (hp : 1 ≤ s.params.tSettle)
    (hcnt : (start s.se).setCnt = s.se.setCnt) (hph : (start s.se).phase ≠ .settle) (h : SettleOk s) :
    SettleOk (microPhase start s) := by
  obtain ⟨hle, -⟩ := h
  unfold SettleOk
  rw [microPhase_params]
  unfold microPhase
  split
  case h_1 => exact ⟨by simpa [hcnt] using hle, fun e => absurd e hph⟩
  case h_4 =>
    simp only [phaseTxH]
    split
    · exact ⟨le_rfl, fun _ => hp⟩
    · exact ⟨hle, fun e => by cases e⟩
  case h_5 =>
    simp only [phaseSettle]
    split
    · exact ⟨by omega, fun e => by cases e⟩
    · exact ⟨by omega, fun _ => by omega⟩
  case h_8 =>
    simp only [phaseRxP]
    split <;> exact ⟨hle, fun e => by cases e⟩
  all_goals exact ⟨hle, fun e => by cases e⟩

theorem EngineMoves.settleOk {s t : State} (h : EngineMoves s t) (hps : t.params = s.params)
    (hp : 1 ≤ s.params.tSettle) (hs : SettleOk s) : SettleOk t := by
  rcases h with e | ⟨v, e⟩ | e <;> rw [SettleOk, e, hps]
  · exact hs
  · have := microPhase_settleOk (start := startSend v) hp rfl (by simp) hs
    rwa [SettleOk, microPhase_params] at this
  · have := microPhase_settleOk (start := startRead) hp rfl (by simp) hs
    rwa [SettleOk, microPhase_params] at this

/-! ### The sequencer (10_state R18, R26) -/

/-- With the Shift Engine idle, the sequencer is where it must be when its label is one of the routine. -/
theorem sequencerOk_of_idle {s : State} (hp : s.se.phase = .idle)
    (hl : s.cd.status = .busy → s.cd.label ∈ labelsOf s.cd.cmd) : SequencerOk s := by
  refine ⟨fun _ => hp, fun hb => ⟨hl hb, ?_⟩⟩
  rw [hp]; cases lineKind s.cd.label <;> rfl

/-- A micro-phase of SEND goes on to a micro-phase of SEND, or the SEND is complete. -/
theorem sendPhase_fits (v : Byte) {s : State} (h : phaseFits .send s.se.phase = true) :
    phaseFits .send (sendPhase v s).se.phase = true := by
  cases hp : s.se.phase with
  | idle | txL | txA => simp [sendPhase, microPhase, hp, phaseFits]
  | txH => rcases phaseTxH_cases s.params.tSettle s.se with ⟨-, ⟨-, hn, -⟩ | ⟨-, hn, -⟩⟩ <;>
      simp [sendPhase, microPhase, hp, hn, phaseFits]
  | settle =>
    simp only [sendPhase, microPhase, hp, phaseSettle]
    split <;> rfl
  | rxL | rxH | rxP => rw [hp] at h; cases h

/-- A micro-phase of READ goes on to a micro-phase of READ, or the READ is complete. -/
theorem readPhase_fits {s : State} (h : phaseFits .read s.se.phase = true) :
    phaseFits .read (readPhase s).se.phase = true := by
  cases hp : s.se.phase with
  | idle | rxL | rxH => simp [readPhase, microPhase, hp, phaseFits]
  | rxP => rcases phaseRxP_cases (misoNow s.env) s.se with ⟨-, -, -, -, ⟨-, hn⟩ | ⟨-, hn, -⟩⟩ <;>
      simp [readPhase, microPhase, hp, hn, phaseFits]
  | txL | txA | txH | settle => rw [hp] at h; cases h

theorem sendLine_sequencerOk {v : Byte} {after : State → State} {s : State} (hb : s.cd.status = .busy)
    (hk : lineKind s.cd.label = .send) (h : SequencerOk s)
    (ha : ∀ t, t.cd = s.cd → t.se.phase = .idle → SequencerOk (after t)) : SequencerOk (sendLine v after s) := by
  obtain ⟨hmem, hfit⟩ := h.2 hb
  rcases sendLine_cases v after s with ⟨hi, e⟩ | ⟨-, e⟩ <;> rw [e]
  · exact ha _ (by simp) hi
  · rw [hk] at hfit
    refine ⟨by simp [hb], fun _ => ?_⟩
    rw [sendPhase_cd, hk]
    exact ⟨hmem, sendPhase_fits v hfit⟩

theorem readLine_sequencerOk {after : State → State} {s : State} (hb : s.cd.status = .busy)
    (hk : lineKind s.cd.label = .read) (h : SequencerOk s)
    (ha : ∀ t, t.cd = s.cd → t.se.phase = .idle → SequencerOk (after t)) : SequencerOk (readLine after s) := by
  obtain ⟨hmem, hfit⟩ := h.2 hb
  rcases readLine_cases after s with ⟨hi, e⟩ | ⟨-, e⟩ <;> rw [e]
  · exact ha _ (by simp) hi
  · rw [hk] at hfit
    refine ⟨by simp [hb], fun _ => ?_⟩
    rw [readPhase_cd, hk]
    exact ⟨hmem, readPhase_fits hfit⟩

/-- In a line that does not call the Shift Engine, the engine is idle. -/
theorem SequencerOk.idle_of_other {s : State} (h : SequencerOk s) (hb : s.cd.status = .busy)
    (hk : lineKind s.cd.label = .other) : s.se.phase = .idle := by
  have hfit := (h.2 hb).2
  rw [hk] at hfit
  revert hfit
  cases s.se.phase <;> simp [phaseFits]

theorem emitLine_sequencerOk {bs : List Byte} {after : State → State} {s : State} (hb : s.cd.status = .busy)
    (hk : lineKind s.cd.label = .other) (h : SequencerOk s)
    (ha : ∀ t, t.cd = s.cd → t.se.phase = .idle → SequencerOk (after t)) : SequencerOk (emitLine bs after s) := by
  rcases emitLine_cases bs after s with ⟨-, e⟩ | ⟨-, e⟩ <;> rw [e]
  · exact h
  · exact ha _ rfl (h.idle_of_other hb hk)

theorem pixelNext_sequencerOk {t : State} (hc : t.cd.cmd = 0x0B#8) (hp : t.se.phase = .idle) :
    SequencerOk (pixelNext t) := by
  rcases pixelNext_cases t with ⟨-, e⟩ | ⟨-, e⟩ <;> rw [e]
  · exact sequencerOk_of_idle hp (by simp)
  · refine sequencerOk_of_idle hp fun _ => ?_
    simp only [hc]; decide

theorem pixelTest_sequencerOk {s : State} (hc : s.cd.cmd = 0x0B#8) (hp : s.se.phase = .idle) :
    SequencerOk (pixelTest s) := by
  have p3 : Label.p3 ∈ labelsOf 0x0B#8 := by decide
  have p7 : Label.p7 ∈ labelsOf 0x0B#8 := by decide
  rcases pixelTest_cases s with ⟨-, -, e⟩ | ⟨-, e⟩ <;> rw [e]
  · exact sequencerOk_of_idle hp fun _ => by simpa [pixelKeep, hc] using p7
  · unfold pixelDiscard
    split
    · exact sequencerOk_of_idle hp fun _ => by simpa [hc] using p3
    · split
      · exact sequencerOk_of_idle hp fun hb => by cases hb
      · exact sequencerOk_of_idle hp fun _ => by simpa [hc] using p3

/-- The labels of each routine are those of its lines (41_dispatcher R85 to R92). -/
theorem labelsOf_chipReset : labelsOf 0xBA#8 = [.w0, .w1] := by decide
theorem labelsOf_navCtrl2 : labelsOf 0xA2#8 = [.n0, .n1] := by decide
theorem labelsOf_pixelGrab : labelsOf 0x0B#8 = [.p0, .p1, .p3, .p4, .p5, .p7] := by decide
theorem labelsOf_motion : labelsOf 0x02#8 = [.m0, .m1, .m2, .m3, .m4, .m5, .m6, .m7, .m8, .m9] := by decide

theorem labelsOf_regRead {c : Byte} (hc : (Instr.cmdRegRead c).wf = true) : labelsOf c = [.g0, .g1, .g2] := by
  simp only [Instr.wf, namedCommandByte, Bool.not_eq_true', Bool.or_eq_false_iff, beq_eq_false_iff_ne] at hc
  obtain ⟨⟨⟨h1, h2⟩, h3⟩, h4⟩ := hc
  simp [labelsOf, decodeCommand, h1, h2, h3, h4, firstLabel]

/-- A line that goes on to another line of its routine, the engine idle. -/
theorem goto_sequencerOk {l : Label} {s t : State} (hl : l ∈ labelsOf s.cd.cmd) (hc : t.cd = s.cd)
    (hp : t.se.phase = .idle) : SequencerOk (goto l t) :=
  sequencerOk_of_idle hp fun _ => by simpa [hc] using hl

/-- The same when the line also writes the assembly buffer. -/
theorem keepGoto_sequencerOk {l : Label} {f : Bytes7 → Byte → Byte → Bytes7} {s t : State}
    (hl : l ∈ labelsOf s.cd.cmd) (hc : t.cd = s.cd) (hp : t.se.phase = .idle) :
    SequencerOk (goto l (keepPair f t)) :=
  sequencerOk_of_idle hp fun _ => by simpa [hc] using hl

theorem endRoutine_sequencerOk {t : State} (hp : t.se.phase = .idle) : SequencerOk (endRoutine t) :=
  sequencerOk_of_idle hp (by simp)

/-- A line of a BUSY routine keeps the sequencer inside it, and so does the acceptance of its command. -/
theorem runCommand_sequencerOk {c : Byte} {first : Label} {line : State → State} {s : State}
    (hfirst : first ∈ labelsOf c) (h : SequencerOk s)
    (hline : s.cd.status = .busy → s.cd.cmd = c → SequencerOk (line s)) :
    SequencerOk (runCommand c first line s) := by
  rcases runCommand_cases c first line s with e | ⟨hi, -, hc, e⟩ | ⟨hb, hc, e⟩ <;> rw [e]
  · exact h
  · exact sequencerOk_of_idle (h.1 hi) fun _ => by simpa [hc] using hfirst
  · exact hline hb hc

theorem chipResetLine_sequencerOk {s : State} (hb : s.cd.status = .busy) (hc : s.cd.cmd = 0xBA#8)
    (h : SequencerOk s) : SequencerOk (chipResetLine s) := by
  have mem : ∀ l ∈ [Label.w0, .w1], l ∈ labelsOf s.cd.cmd := by rw [hc, labelsOf_chipReset]; exact fun _ => id
  unfold chipResetLine
  split
  · rename_i hl; exact sendLine_sequencerOk hb (by rw [hl]; rfl) h fun _ => goto_sequencerOk (mem _ (by decide))
  · rename_i hl; exact sendLine_sequencerOk hb (by rw [hl]; rfl) h fun _ _ => endRoutine_sequencerOk
  · exact h

theorem navCtrl2Line_sequencerOk {s : State} (hb : s.cd.status = .busy) (hc : s.cd.cmd = 0xA2#8)
    (h : SequencerOk s) : SequencerOk (navCtrl2Line s) := by
  have mem : ∀ l ∈ [Label.n0, .n1], l ∈ labelsOf s.cd.cmd := by rw [hc, labelsOf_navCtrl2]; exact fun _ => id
  unfold navCtrl2Line
  split
  · rename_i hl; exact sendLine_sequencerOk hb (by rw [hl]; rfl) h fun _ => goto_sequencerOk (mem _ (by decide))
  · rename_i hl; exact sendLine_sequencerOk hb (by rw [hl]; rfl) h fun _ _ => endRoutine_sequencerOk
  · exact h

theorem pixelGrabLine_sequencerOk {s : State} (hb : s.cd.status = .busy) (hc : s.cd.cmd = 0x0B#8)
    (h : SequencerOk s) : SequencerOk (pixelGrabLine s) := by
  have mem : ∀ l ∈ [Label.p0, .p1, .p3, .p4, .p5, .p7], l ∈ labelsOf s.cd.cmd := by
    rw [hc, labelsOf_pixelGrab]; exact fun _ => id
  unfold pixelGrabLine
  split
  · rename_i hl; exact sendLine_sequencerOk hb (by rw [hl]; rfl) h fun _ => goto_sequencerOk (mem _ (by decide))
  · rename_i hl
    exact sendLine_sequencerOk hb (by rw [hl]; rfl) h fun _ ht hp => pixelNext_sequencerOk (by simp [ht, hc]) hp
  · rename_i hl; exact sendLine_sequencerOk hb (by rw [hl]; rfl) h fun _ => goto_sequencerOk (mem _ (by decide))
  · rename_i hl; exact readLine_sequencerOk hb (by rw [hl]; rfl) h fun _ => goto_sequencerOk (mem _ (by decide))
  · rename_i hl; exact pixelTest_sequencerOk hc (h.idle_of_other hb (by rw [hl]; rfl))
  · rename_i hl
    exact emitLine_sequencerOk hb (by rw [hl]; rfl) h fun _ ht hp => pixelNext_sequencerOk (by simp [ht, hc]) hp
  · exact h

theorem motionLine_sequencerOk {s : State} (hb : s.cd.status = .busy) (hc : s.cd.cmd = 0x02#8)
    (h : SequencerOk s) : SequencerOk (motionLine s) := by
  have mem : ∀ l ∈ [Label.m0, .m1, .m2, .m3, .m4, .m5, .m6, .m7, .m8, .m9], l ∈ labelsOf s.cd.cmd := by
    rw [hc, labelsOf_motion]; exact fun _ => id
  unfold motionLine
  split
  case h_1 hl | h_3 hl | h_5 hl | h_7 hl =>
    exact sendLine_sequencerOk hb (by rw [hl]; rfl) h fun _ => goto_sequencerOk (mem _ (by decide))
  case h_2 hl => exact readLine_sequencerOk hb (by rw [hl]; rfl) h fun _ => goto_sequencerOk (mem _ (by decide))
  case h_4 hl | h_6 hl | h_8 hl =>
    exact readLine_sequencerOk hb (by rw [hl]; rfl) h fun _ => keepGoto_sequencerOk (mem _ (by decide))
  case h_9 hl =>
    exact sequencerOk_of_idle (h.idle_of_other hb (by rw [hl]; rfl)) fun _ => mem .m9 (by decide)
  case h_10 hl => exact emitLine_sequencerOk hb (by rw [hl]; rfl) h fun _ _ => endRoutine_sequencerOk
  case h_11 => exact h

theorem regReadLine_sequencerOk {c : Byte} {s : State} (hw : (Instr.cmdRegRead c).wf = true)
    (hb : s.cd.status = .busy) (hc : s.cd.cmd = c) (h : SequencerOk s) : SequencerOk (regReadLine c s) := by
  have mem : ∀ l ∈ [Label.g0, .g1, .g2], l ∈ labelsOf s.cd.cmd := by
    rw [hc, labelsOf_regRead hw]; exact fun _ => id
  unfold regReadLine
  split
  · rename_i hl; exact sendLine_sequencerOk hb (by rw [hl]; rfl) h fun _ => goto_sequencerOk (mem _ (by decide))
  · rename_i hl; exact readLine_sequencerOk hb (by rw [hl]; rfl) h fun _ => keepGoto_sequencerOk (mem _ (by decide))
  · rename_i hl; exact emitLine_sequencerOk hb (by rw [hl]; rfl) h fun _ _ => endRoutine_sequencerOk
  · exact h

/-- Every step of a routine keeps the sequencer inside the routine of `CMD`. -/
theorem exec_command_sequencerOk {i : Instr} {s t : State} (hw : i.wf = true) (hi : isCommand i = true)
    (h : SequencerOk s) (he : exec i s = .next t) : SequencerOk t := by
  cases i with
  | cmdChipReset => cases he; exact runCommand_sequencerOk (by decide) h fun hb hc => chipResetLine_sequencerOk hb hc h
  | cmdNavCtrl2 => cases he; exact runCommand_sequencerOk (by decide) h fun hb hc => navCtrl2Line_sequencerOk hb hc h
  | cmdPixelGrab => cases he; exact runCommand_sequencerOk (by decide) h fun hb hc => pixelGrabLine_sequencerOk hb hc h
  | cmdMotion => cases he; exact runCommand_sequencerOk (by decide) h fun hb hc => motionLine_sequencerOk hb hc h
  | cmdRegRead c =>
    cases he
    exact runCommand_sequencerOk (by simp [labelsOf_regRead hw]) h fun hb hc => regReadLine_sequencerOk hw hb hc h
  | _ => cases hi

/-! ### The pixel grab (10_state R25, R26, 41_dispatcher R88) and `PTO` -/

/-- e is a dispatcher that has not counted, timed out or gone on to a poll since d. -/
def OffPixels (d e : Dispatcher) : Prop :=
  e.pixK = d.pixK ∧ e.pollCnt = d.pollCnt ∧ e.pto = d.pto ∧ pollLabel e.label = false

theorem goto_offPixels {l : Label} (hl : pollLabel l = false) {s t : State} (hc : t.cd = s.cd) :
    OffPixels s.cd (goto l t).cd := by simp [OffPixels, hc, hl]

theorem keepGoto_offPixels {l : Label} (hl : pollLabel l = false) {f : Bytes7 → Byte → Byte → Bytes7}
    {s t : State} (hc : t.cd = s.cd) : OffPixels s.cd (goto l (keepPair f t)).cd := by simp [OffPixels, hc, hl]

theorem endRoutine_offPixels {s t : State} (hl : pollLabel s.cd.label = false) (hc : t.cd = s.cd) :
    OffPixels s.cd (endRoutine t).cd := by simp [OffPixels, hc, hl]

theorem sendLine_offPixels {v : Byte} {after : State → State} {s : State} (hl : pollLabel s.cd.label = false)
    (ha : ∀ t, t.cd = s.cd → OffPixels s.cd (after t).cd) : OffPixels s.cd (sendLine v after s).cd := by
  rcases sendLine_cases v after s with ⟨-, e⟩ | ⟨-, e⟩ <;> rw [e]
  · exact ha _ (by simp)
  · simp [OffPixels, hl]

theorem readLine_offPixels {after : State → State} {s : State} (hl : pollLabel s.cd.label = false)
    (ha : ∀ t, t.cd = s.cd → OffPixels s.cd (after t).cd) : OffPixels s.cd (readLine after s).cd := by
  rcases readLine_cases after s with ⟨-, e⟩ | ⟨-, e⟩ <;> rw [e]
  · exact ha _ (by simp)
  · simp [OffPixels, hl]

theorem emitLine_offPixels {bs : List Byte} {after : State → State} {s : State} (hl : pollLabel s.cd.label = false)
    (ha : ∀ t, t.cd = s.cd → OffPixels s.cd (after t).cd) : OffPixels s.cd (emitLine bs after s).cd := by
  rcases emitLine_cases bs after s with ⟨-, e⟩ | ⟨-, e⟩ <;> rw [e]
  · simp [OffPixels, hl]
  · exact ha _ (by simp)

theorem chipResetLine_offPixels (s : State) : chipResetLine s = s ∨ OffPixels s.cd (chipResetLine s).cd := by
  unfold chipResetLine
  split
  · rename_i hl; exact .inr (sendLine_offPixels (by rw [hl]; rfl) fun _ => goto_offPixels rfl)
  · rename_i hl; exact .inr (sendLine_offPixels (by rw [hl]; rfl) fun _ => endRoutine_offPixels (by rw [hl]; rfl))
  · exact .inl rfl

theorem navCtrl2Line_offPixels (s : State) : navCtrl2Line s = s ∨ OffPixels s.cd (navCtrl2Line s).cd := by
  unfold navCtrl2Line
  split
  · rename_i hl; exact .inr (sendLine_offPixels (by rw [hl]; rfl) fun _ => goto_offPixels rfl)
  · rename_i hl; exact .inr (sendLine_offPixels (by rw [hl]; rfl) fun _ => endRoutine_offPixels (by rw [hl]; rfl))
  · exact .inl rfl

theorem motionLine_offPixels (s : State) : motionLine s = s ∨ OffPixels s.cd (motionLine s).cd := by
  unfold motionLine
  split
  case h_1 hl | h_3 hl | h_5 hl | h_7 hl =>
    exact .inr (sendLine_offPixels (by rw [hl]; rfl) fun _ => goto_offPixels rfl)
  case h_2 hl => exact .inr (readLine_offPixels (by rw [hl]; rfl) fun _ => goto_offPixels rfl)
  case h_4 hl | h_6 hl | h_8 hl => exact .inr (readLine_offPixels (by rw [hl]; rfl) fun _ => keepGoto_offPixels rfl)
  case h_9 => exact .inr ⟨rfl, rfl, rfl, rfl⟩
  case h_10 hl => exact .inr (emitLine_offPixels (by rw [hl]; rfl) fun _ => endRoutine_offPixels (by rw [hl]; rfl))
  case h_11 => exact .inl rfl

theorem regReadLine_offPixels (c : Byte) (s : State) :
    regReadLine c s = s ∨ OffPixels s.cd (regReadLine c s).cd := by
  unfold regReadLine
  split
  · rename_i hl; exact .inr (sendLine_offPixels (by rw [hl]; rfl) fun _ => goto_offPixels rfl)
  · rename_i hl; exact .inr (readLine_offPixels (by rw [hl]; rfl) fun _ => keepGoto_offPixels rfl)
  · rename_i hl; exact .inr (emitLine_offPixels (by rw [hl]; rfl) fun _ => endRoutine_offPixels (by rw [hl]; rfl))
  · exact .inl rfl

theorem PixelOk.polling {s : State} (h : PixelOk s) (hb : s.cd.status = .busy) (hl : pollLabel s.cd.label = true) :
    s.cd.pixK < 361 := by
  obtain ⟨-, -, hpoll, -⟩ := h
  exact (hpoll hb hl).1

/-- Outside a poll only the ranges of the counts are asked for. -/
theorem pixelOk_of_counts {s t : State} (h : PixelOk s) (hps : t.params = s.params)
    (hk : t.cd.pixK ≤ 361) (hpoll : t.cd.pollCnt = s.cd.pollCnt)
    (hoff : t.cd.status = .idle ∨ pollLabel t.cd.label = false) : PixelOk t := by
  obtain ⟨-, hcnt, -, -⟩ := h
  refine ⟨hk, by rwa [hps, hpoll], fun hb hl => ?_, fun hb hl => ?_⟩
  · rcases hoff with hi | hoff
    · rw [hi] at hb; cases hb
    · rw [hoff] at hl; cases hl
  · rcases hoff with hi | hoff
    · rw [hi] at hb; cases hb
    · rw [hl] at hoff; cases hoff

theorem OffPixels.pixelOk {s t : State} (h : OffPixels s.cd t.cd) (hps : t.params = s.params) (hs : PixelOk s) :
    PixelOk t := by
  obtain ⟨hk, hpoll, -, hoff⟩ := h
  exact pixelOk_of_counts hs hps (by rw [hk]; exact hs.1) hpoll (.inr hoff)

/-- The registers kept, the hand-over is kept too, where the line is not P7 or the READ's bytes are kept. -/
theorem pixelOk_of_cd {s t : State} (h : PixelOk s) (hc : t.cd = s.cd) (hps : t.params = s.params)
    (hrx : s.cd.label ≠ .p7 ∨ t.se = s.se) : PixelOk t := by
  obtain ⟨h1, h2, h3, h4⟩ := h
  refine ⟨by rwa [hc], by rwa [hc, hps], by rwa [hc, hps], fun hb hl => ?_⟩
  rw [hc] at hb hl ⊢
  rw [hrx.resolve_left (absurd hl)]
  exact h4 hb hl

/-- From one line of a poll to the next but P7. -/
theorem goto_pixelOk {l : Label} {s t : State} (h : PixelOk s) (hb : s.cd.status = .busy)
    (hl : pollLabel s.cd.label = true) (hc : t.cd = s.cd) (hps : t.params = s.params) (h7 : l ≠ .p7) :
    PixelOk (goto l t) := by
  obtain ⟨h1, h2, h3, -⟩ := h
  refine ⟨by simpa [hc], by simpa [hc, hps], fun _ _ => by simpa [hc, hps] using h3 hb hl, fun _ e => absurd e h7⟩

/-- `P2` with k pairs kept: the routine ends, or the next pixel's poll begins with its count at 0. -/
theorem pixelNext_pixelOk {k : Nat} {s t : State} (hwf : s.params.wf = true) (h : PixelOk s) (hk : k ≤ 361)
    (hc : t.cd = s.cd) (hps : t.params = s.params) : PixelOk (pixelNext (setPixK k t)) := by
  rcases pixelNext_cases (setPixK k t) with ⟨-, e⟩ | ⟨hne, e⟩ <;> rw [e]
  · exact pixelOk_of_counts h hps (by simpa using hk) (by simp [hc]) (.inl rfl)
  · have limit_pos : ∀ n, s.params.pixPollLimit = some n → 0 < n := by
      intro n hn
      simp only [Params.wf, hn, Option.all_some, Bool.and_eq_true, decide_eq_true_eq] at hwf
      exact hwf.2
    rw [setPixK_pixK] at hne
    refine ⟨hk, fun n _ => Nat.zero_le n, fun _ _ => ⟨?_, ?_⟩, fun _ hl => by cases hl⟩
    · simp only [setPixK_pixK]; omega
    · simpa [hps] using limit_pos

theorem pixelTest_pixelOk {s : State} (h : PixelOk s) (hb : s.cd.status = .busy) (hl : s.cd.label = .p5) :
    PixelOk (pixelTest s) := by
  obtain ⟨h1, h2, h3, -⟩ := h
  obtain ⟨hlt, hcnt⟩ := h3 hb (by rw [hl]; rfl)
  rcases pixelTest_cases s with ⟨hv0, hv1, e⟩ | ⟨-, e⟩ <;> rw [e]
  · exact ⟨h1, h2, fun _ _ => ⟨hlt, hcnt⟩, fun _ _ => ⟨hv0, hv1, rfl, rfl⟩⟩
  · unfold pixelDiscard
    split
    · exact ⟨h1, h2, fun _ _ => ⟨hlt, hcnt⟩, fun _ e => by cases e⟩
    · rename_i limit hlim
      have hcnt' := hcnt limit hlim
      split
      · refine ⟨h1, fun n hn => ?_, fun hb => by (cases hb), fun hb => by cases hb⟩
        have : limit = n := by simpa [hlim] using hn
        simp only; omega
      · have below : ∀ n, s.params.pixPollLimit = some n → s.cd.pollCnt + 1 < n := by
          intro n hn
          have : limit = n := by simpa [hlim] using hn
          omega
        exact ⟨h1, fun n hn => (below n hn).le, fun _ _ => ⟨hlt, below⟩, fun _ e => by cases e⟩

theorem pixelGrabLine_pixelOk {s : State} (hwf : s.params.wf = true) (hb : s.cd.status = .busy) (h : PixelOk s) :
    PixelOk (pixelGrabLine s) := by
  unfold pixelGrabLine
  split
  · rename_i hl
    exact (sendLine_offPixels (by rw [hl]; rfl) fun _ => goto_offPixels rfl).pixelOk
      (LineShape.sendLine (cdOnly_goto _) s).params h
  · rename_i hl
    rcases sendLine_cases 0x00#8 (fun t => pixelNext (setPixK 0 t)) s with ⟨-, e⟩ | ⟨-, e⟩ <;> rw [e]
    · exact pixelNext_pixelOk hwf h (by omega) (by simp) (by simp)
    · exact pixelOk_of_cd h (by simp) (by simp) (.inl (by simp [hl]))
  · rename_i hl
    rcases sendLine_cases (readAddress regPixelGrab) (goto .p4) s with ⟨-, e⟩ | ⟨-, e⟩ <;> rw [e]
    · exact goto_pixelOk h hb (by rw [hl]; rfl) (by simp) (by simp) (by decide)
    · exact pixelOk_of_cd h (by simp) (by simp) (.inl (by simp [hl]))
  · rename_i hl
    rcases readLine_cases (goto .p5) s with ⟨-, e⟩ | ⟨-, e⟩ <;> rw [e]
    · exact goto_pixelOk h hb (by rw [hl]; rfl) (by simp) (by simp) (by decide)
    · exact pixelOk_of_cd h (by simp) (by simp) (.inl (by simp [hl]))
  · rename_i hl; exact pixelTest_pixelOk h hb hl
  · rename_i hl
    rcases emitLine_cases (pairPacket s.cd.rb) (fun t => pixelNext (setPixK (t.cd.pixK + 1) t)) s with
      ⟨-, e⟩ | ⟨-, e⟩ <;> rw [e]
    · exact h
    · have hlt := h.polling hb (by rw [hl]; rfl)
      exact pixelNext_pixelOk hwf h (by simpa using hlt) rfl rfl
  · exact h

/-- `PTO` is set by a poll that reached its finite limit, and by nothing else (41_dispatcher R90). -/
def PtoFromLimit (s t : State) : Prop := t.cd.pto = true → s.cd.pto = true ∨ s.params.pixPollLimit ≠ none

theorem ptoFromLimit_of_eq {s t : State} (h : t.cd.pto = s.cd.pto) : PtoFromLimit s t :=
  fun e => .inl (by rw [← h]; exact e)

theorem OffPixels.pto {s t : State} (h : OffPixels s.cd t.cd) : PtoFromLimit s t := by
  obtain ⟨-, -, hpto, -⟩ := h
  exact ptoFromLimit_of_eq hpto

theorem pixelNext_pto (t : State) : (pixelNext t).cd.pto = t.cd.pto := by
  rcases pixelNext_cases t with ⟨-, e⟩ | ⟨-, e⟩
  · rw [e, endRoutine_pto]
  · rw [e]

theorem pixelTest_pto (s : State) : PtoFromLimit s (pixelTest s) := by
  rcases pixelTest_cases s with ⟨-, -, e⟩ | ⟨-, e⟩ <;> rw [e]
  · exact ptoFromLimit_of_eq rfl
  · unfold pixelDiscard
    split
    · exact ptoFromLimit_of_eq rfl
    · rename_i limit hlim
      exact fun _ => .inr (by simp [hlim])

theorem sendLine_pto {v : Byte} {after : State → State} (ha : ∀ t, (after t).cd.pto = t.cd.pto) (s : State) :
    (sendLine v after s).cd.pto = s.cd.pto := by
  rcases sendLine_cases v after s with ⟨-, e⟩ | ⟨-, e⟩ <;> simp [e, ha]

theorem pixelGrabLine_pto (s : State) : PtoFromLimit s (pixelGrabLine s) := by
  unfold pixelGrabLine
  split
  · exact ptoFromLimit_of_eq (sendLine_pto (goto_pto _) s)
  · exact ptoFromLimit_of_eq (sendLine_pto (fun t => pixelNext_pto (setPixK 0 t)) s)
  · exact ptoFromLimit_of_eq (sendLine_pto (goto_pto _) s)
  · exact ptoFromLimit_of_eq (by rcases readLine_cases (goto .p5) s with ⟨-, e⟩ | ⟨-, e⟩ <;> simp [e])
  · exact pixelTest_pto s
  · refine ptoFromLimit_of_eq ?_
    rcases emitLine_cases (pairPacket s.cd.rb) (fun t => pixelNext (setPixK (t.cd.pixK + 1) t)) s with
      ⟨-, e⟩ | ⟨-, e⟩ <;> rw [e]
    exact pixelNext_pto _
  · exact ptoFromLimit_of_eq rfl

/-- The acceptance of a command leaves the counts alone, and its first line is no poll. -/
theorem runCommand_pixelOk {c : Byte} {first : Label} {line : State → State} {s : State}
    (hfirst : pollLabel first = false) (h : PixelOk s) (hline : s.cd.status = .busy → PixelOk (line s)) :
    PixelOk (runCommand c first line s) := by
  rcases runCommand_cases c first line s with e | ⟨-, -, -, e⟩ | ⟨hb, -, e⟩ <;> rw [e]
  · exact h
  · exact pixelOk_of_counts h rfl h.1 rfl (.inr hfirst)
  · exact hline hb

theorem runCommand_pto {c : Byte} {first : Label} {line : State → State} {s : State}
    (hline : PtoFromLimit s (line s)) : PtoFromLimit s (runCommand c first line s) := by
  rcases runCommand_cases c first line s with e | ⟨-, -, -, e⟩ | ⟨-, -, e⟩ <;> rw [e]
  · exact ptoFromLimit_of_eq rfl
  · exact fun h => by cases h
  · exact hline

/-- The two facts about the pixel grab, for a routine whose lines have nothing to do with it. -/
theorem runCommand_offPixels {c : Byte} {first : Label} {line : State → State} {s : State}
    (hfirst : pollLabel first = false) (hshape : LineShape s (line s))
    (hline : line s = s ∨ OffPixels s.cd (line s).cd) (h : PixelOk s) :
    PixelOk (runCommand c first line s) ∧ PtoFromLimit s (runCommand c first line s) := by
  rcases hline with e | hoff
  · exact ⟨runCommand_pixelOk hfirst h fun _ => by rwa [e], runCommand_pto (ptoFromLimit_of_eq (by rw [e]))⟩
  · exact ⟨runCommand_pixelOk hfirst h fun _ => hoff.pixelOk hshape.params h, runCommand_pto hoff.pto⟩

theorem exec_command_pixelOk {i : Instr} {s t : State} (hwf : s.params.wf = true) (hi : isCommand i = true)
    (h : PixelOk s) (he : exec i s = .next t) : PixelOk t ∧ PtoFromLimit s t := by
  cases i with
  | cmdChipReset => cases he; exact runCommand_offPixels rfl (chipResetLine_shape s) (chipResetLine_offPixels s) h
  | cmdNavCtrl2 => cases he; exact runCommand_offPixels rfl (navCtrl2Line_shape s) (navCtrl2Line_offPixels s) h
  | cmdPixelGrab =>
    cases he
    exact ⟨runCommand_pixelOk rfl h fun hb => pixelGrabLine_pixelOk hwf hb h, runCommand_pto (pixelGrabLine_pto s)⟩
  | cmdMotion => cases he; exact runCommand_offPixels rfl (motionLine_shape s) (motionLine_offPixels s) h
  | cmdRegRead c => cases he; exact runCommand_offPixels rfl (regReadLine_shape c s) (regReadLine_offPixels c s) h
  | _ => cases hi

/-! ### The response mailbox (10_state R27) -/

/-- The packet waiting has 2 or 7 bytes. -/
def PacketOk (tp : Transport) : Prop := tp.rspValid = true → tp.rspLen = 2 ∨ tp.rspLen = 7

theorem LineShape.packetOk {s t : State} (h : LineShape s t) (hs : PacketOk s.tp) : PacketOk t.tp := by
  obtain ⟨d, -, rfl | ⟨v, rfl⟩ | rfl | ⟨bs, -, hl, rfl⟩ | rfl⟩ := h
  · exact hs
  · simpa using hs
  · simpa using hs
  · exact fun _ => by simpa [packetLength] using hl
  · exact hs

theorem exec_command_packetOk {i : Instr} {s t : State} (hi : isCommand i = true) (he : exec i s = .next t)
    (h : PacketOk s.tp) : PacketOk t.tp := by
  rcases exec_command_shape hi he with k | ⟨-, -, l, -, -, rfl⟩
  · exact k.packetOk h
  · exact h

/-! ### The OA (10_state R29 to R33, 44_odometry R116) -/

theorem byteRange_zero : byteRange 0 := by unfold byteRange; decide
theorem qualityRange_zero : qualityRange 0 := by unfold qualityRange; decide

/-- A signed byte held in an accumulator word stays in its range. -/
theorem wrapAcc_s8_range (b : Byte) : byteRange (wrapAcc (s8 b)) := by
  have h1 := b.toInt_lt
  have h2 := b.le_toInt
  unfold byteRange wrapAcc s8
  rw [BitVec.toInt_ofInt, Int.bmod_eq_of_le (by omega) (by omega)]
  omega

theorem wrapAcc_u8_range (b : Byte) : qualityRange (wrapAcc (u8 b)) := by
  have h := b.isLt
  unfold qualityRange wrapAcc u8
  rw [BitVec.toInt_ofInt, Int.bmod_eq_of_le (by simp) (by simp; omega)]
  simp; omega

/-- The bits of `OA_ERR` are the four low ones (60_exceptions R120). -/
theorem setOaError_lt {v : BitVec 8} (h : v.toNat < 16) (code : OaErrorCode) : (setOaError v code).toNat < 16 := by
  rw [setOaError, BitVec.toNat_or]
  exact Nat.or_lt_two_pow (n := 4) h (by cases code <;> decide)

theorem OaMove.framesOk {s t : State} (h : OaMove s.params s.oa t.oa) (hs : FramesOk s) : FramesOk t := by
  unfold FramesOk at *
  obtain ⟨h0, h1⟩ := hs
  generalize t.oa = p at *
  cases h with
  | stored p0 p1 => exact ⟨memWrite_wf _ _ _ h0, memWrite_wf _ _ _ h1⟩
  | _ => exact ⟨h0, h1⟩

theorem OaMove.odometryOk {s t : State} (h : OaMove s.params s.oa t.oa) (hps : t.params = s.params)
    (hs : OdometryOk s) : OdometryOk t := by
  unfold OdometryOk at *
  rw [hps]
  obtain ⟨heading, posX, posY, hlen⟩ := hs
  generalize t.oa = p at *
  cases h with
  | committed e hx hy hh => exact ⟨hh, hx, hy, by simpa using hlen⟩
  | _ => exact ⟨heading, posX, posY, hlen⟩

theorem OaMove.bufferOk {s t : State} (h : OaMove s.params s.oa t.oa) (hs : BufferOk s) : BufferOk t := by
  unfold BufferOk at *
  obtain ⟨dx0, dx1, dy0, dy1, q0, q1, herr⟩ := hs
  generalize t.oa = p at *
  cases h with
  | decoded b0 b1 b2 b3 b4 b5 =>
    exact ⟨wrapAcc_s8_range b0, wrapAcc_s8_range b1, wrapAcc_s8_range b2, wrapAcc_s8_range b3,
      wrapAcc_u8_range b4, wrapAcc_u8_range b5, herr⟩
  | sessionReset =>
    exact ⟨byteRange_zero, byteRange_zero, byteRange_zero, byteRange_zero, qualityRange_zero, qualityRange_zero,
      herr⟩
  | raised code => exact ⟨dx0, dx1, dy0, dy1, q0, q1, setOaError_lt herr code⟩
  | _ => exact ⟨dx0, dx1, dy0, dy1, q0, q1, herr⟩

/-! ### The whole invariant -/

/-- The surroundings take no part in the invariant. -/
theorem Inv.of_block {s t : State} (h : Inv s) (hse : t.se = s.se) (hcd : t.cd = s.cd) (htp : t.tp = s.tp)
    (hoa : t.oa = s.oa) (hps : t.params = s.params) : Inv t := by
  obtain ⟨se, cd, tp, oa, params, env⟩ := t
  cases hse; cases hcd; cases htp; cases hoa; cases hps
  exact h

/-- The parts of the invariant that are about the CD/SE agent and its mailboxes. -/
theorem exec_keeps_dispatcher {i : Instr} {s t : State} (hp : isPortOperation i) (hw : i.wf = true) (h : Inv s)
    (he : exec i s = .next t) : SequencerOk t ∧ PixelOk t ∧ TransportOk t := by
  obtain ⟨⟨hwf, -⟩, -, -, hseq, hpix, ⟨hpack, hpto⟩, -⟩ := h
  cases hc : isCommand i with
  | true =>
    obtain ⟨hpix', hfrom⟩ := exec_command_pixelOk hwf hc hpix he
    refine ⟨exec_command_sequencerOk hw hc hseq he, hpix', exec_command_packetOk hc he hpack, fun e => ?_⟩
    rw [(exec_command_keeps hc he).2]
    exact (hfrom e).elim hpto id
  | false =>
    rcases exec_noncommand_cases hp hc he with ⟨o, -, rfl⟩ | ⟨tp, env, rfl, hlen, hval⟩
    · exact ⟨hseq, hpix, hpack, hpto⟩
    · exact ⟨hseq, hpix, fun hv => by simpa [hlen] using hpack (hval hv), hpto⟩

theorem exec_keeps_inv {i : Instr} {s t : State} (hp : isPortOperation i) (hw : i.wf = true) (h : Inv s)
    (he : exec i s = .next t) : Inv t := by
  obtain ⟨hseq, hpix, htp⟩ := exec_keeps_dispatcher hp hw h he
  obtain ⟨⟨hwf, hch⟩, hclk, hset, -, -, -, hfr, hodo, hbuf⟩ := h
  have engine := exec_engine he
  obtain ⟨move, hps⟩ := exec_oaMove hp he
  have settle_pos : 1 ≤ s.params.tSettle := by
    simp only [Params.wf, Bool.and_eq_true, decide_eq_true_eq] at hwf
    exact hwf.1.1
  exact ⟨⟨by rwa [hps], by rw [engine.chsel, hps, hch]⟩, engine.clockOk hclk, engine.settleOk hps settle_pos hset,
    hseq, hpix, htp, move.framesOk hfr, move.odometryOk hps hodo, move.bufferOk hbuf⟩

/-- A power-on reset gives a state with the invariant whenever the parameters are in range. -/
theorem powerOn_inv {p : Params} (h : p.wf = true) : Inv (State.powerOn p) := by
  have zero_finite : fIsFinite 0 = true := by decide
  exact ⟨⟨h, rfl⟩, rfl, ⟨Nat.zero_le _, fun e => by cases e⟩, ⟨fun _ => rfl, fun e => by cases e⟩,
    ⟨Nat.zero_le _, fun n _ => Nat.zero_le n, fun e => by (cases e), fun e => by cases e⟩,
    ⟨fun e => by (cases e), fun e => by cases e⟩, powerOn_frames_wf p,
    ⟨zero_finite, zero_finite, zero_finite, List.length_replicate⟩,
    ⟨byteRange_zero, byteRange_zero, byteRange_zero, byteRange_zero, qualityRange_zero, qualityRange_zero,
      Nat.zero_lt_succ 15⟩⟩

theorem Turned.inv {s u : State} (hu : Turned s u) (h : Inv s) : Inv u := by
  obtain ⟨hse, hcd, htp, hoa, hps⟩ := hu.block
  exact h.of_block hse hcd htp hoa hps

theorem step_keeps_inv {s t : State} (h : Inv s) (hstep : step s = .next t) : Inv t := by
  obtain ⟨⟨hwf, -⟩, -⟩ := id h
  rcases fetch_cases s with ⟨i, u, e, hi, hu⟩ | ⟨u, e, hu⟩ | ⟨e, -⟩ | ⟨e, -⟩
  · rw [step_of_run e] at hstep
    exact exec_keeps_inv hi (fetch_run_wf e) (hu.inv h) hstep
  all_goals rw [step_of_quiet e] at hstep; cases hstep
  · exact hu.inv h
  · exact h.of_block rfl rfl rfl rfl rfl
  · exact (powerOn_inv hwf).of_block rfl rfl rfl rfl rfl

end Sys2Proof.Machine

open Sys2Proof.Machine in
/-- Settles O4: each operation of a port keeps each part of the invariant, and so does every turn. -/
theorem everyStepKeepsInvariant : Obligations.EveryStepKeepsInvariant := by
  unfold Obligations.EveryStepKeepsInvariant
  exact fun _ _ => step_keeps_inv
end

section
/-! SUPPORT. Further laws of the binary64 patterns: the kinds of a pattern, its value as an integer at a place,
`roundHalfAway` (O55), the order of the values and the conversion of integers (O56). -/
namespace Sys2Proof.Machine

/-! ### Finite, infinite, NaN, zero -/

@[simp] theorem fIsNaN_fNegate (x : F64) : fIsNaN (fNegate x) = fIsNaN x := by
  rw [Bool.eq_iff_iff, fIsNaN_iff, fIsNaN_iff, fMagField_fNegate]

@[simp] theorem fIsInf_fNegate (x : F64) : fIsInf (fNegate x) = fIsInf x := by
  rw [Bool.eq_iff_iff, fIsInf_iff, fIsInf_iff, fMagField_fNegate]

@[simp] theorem fIsFinite_fNegate (x : F64) : fIsFinite (fNegate x) = fIsFinite x := by
  rw [Bool.eq_iff_iff, fIsFinite_iff, fIsFinite_iff, fMagField_fNegate]

theorem fIsNaN_eq_false_iff (x : F64) : fIsNaN x = false ↔ fMagField x ≤ fInfMag := by
  rw [← Bool.not_eq_true, fIsNaN_iff, not_lt]

/-- A finite value is no NaN and no infinity. -/
theorem finite_kind {x : F64} (h : fIsFinite x = true) : fIsNaN x = false ∧ fIsInf x = false := by
  rw [fIsFinite_iff] at h
  rw [fIsNaN_eq_false_iff, ← Bool.not_eq_true, fIsInf_iff]
  omega

/-- An infinity is no NaN, not zero, and one of the two patterns `fInf`. -/
theorem inf_kind {x : F64} (h : fIsInf x = true) :
    fIsNaN x = false ∧ fIsZero x = false ∧ x = fInf (fNeg x) := by
  rw [fIsInf_iff] at h
  refine ⟨by rw [fIsNaN_eq_false_iff, h], ?_, ?_⟩
  · rw [fIsZero, h]; decide
  · rw [fInf, ← h, fPattern_eta]

/-- The magnitude field counts the significands from zero on. -/
theorem fMagField_eq (x : F64) : fMagField x = (fScale x - 1) * 2 ^ 52 + fMant x := by
  have he := fExpField_eq x
  have hf := fFracField_eq x
  unfold fScale fMant
  split <;> omega

theorem fIsZero_iff (x : F64) : fIsZero x = true ↔ fMant x = 0 := by
  obtain ⟨-, hs, hm⟩ := fMant_bounds x
  rw [fIsZero, decide_eq_true_eq, fMagField_eq]
  omega

theorem fVal_eq_zero_iff (x : F64) : fVal x = 0 ↔ fIsZero x = true := by
  have hp : (2 : ℚ) ^ ((fScale x : Int) - 1075) ≠ 0 := by positivity
  rw [fIsZero_iff, fVal, mul_eq_zero, or_iff_left hp, Int.cast_eq_zero, fSignedMant]
  split <;> omega

theorem fVal_ne_zero_iff (x : F64) : fVal x ≠ 0 ↔ fIsZero x = false := by
  rw [ne_eq, fVal_eq_zero_iff, Bool.not_eq_true]

/-! ### The value at a place -/

/-- The value of x in units of any place up to its own. -/
theorem fVal_at (x : F64) {low : Nat} (h : low ≤ fScale x) :
    fVal x = (fSignedMant x * 2 ^ (fScale x - low) : Int) * 2 ^ ((low : Int) - 1075) := by
  unfold fVal
  push_cast
  rw [mul_assoc, ← zpow_natCast, ← zpow_add₀ (by norm_num)]
  congr 2
  omega

/-- The value in units of 2^(-1075), an integer. -/
def fUnits (x : F64) : Int := fSignedMant x * 2 ^ fScale x

theorem fVal_eq_units (x : F64) : fVal x = fUnits x / 2 ^ 1075 := by
  rw [fVal_at x (Nat.zero_le _), fUnits, Nat.sub_zero, Nat.cast_zero, zero_sub, zpow_neg, zpow_ofNat, div_eq_mul_inv]

theorem fVal_lt_iff (a b : F64) : fVal a < fVal b ↔ fUnits a < fUnits b := by
  rw [fVal_eq_units, fVal_eq_units, div_lt_div_iff_of_pos_right (by positivity), Int.cast_lt]

theorem fVal_eq_int_iff (a : F64) (z : Int) : fVal a = z ↔ fUnits a = z * 2 ^ 1075 := by
  rw [fVal_eq_units, div_eq_iff (by positivity), ← Int.cast_inj (α := ℚ), Int.cast_mul, Int.cast_pow, Int.cast_ofNat]

/-! ### `roundHalfAway` (00_scope R16) -/

/-- The magnitude that `roundHalfAway` answers: the value itself, or half the place added and the rest cut off. -/
theorem fRoundHalfAway_natAbs (a : F64) : (fRoundHalfAway a).natAbs =
    if 1075 ≤ fScale a then fMant a * 2 ^ (fScale a - 1075)
    else (fMant a + 2 ^ (1074 - fScale a)) / 2 ^ (1075 - fScale a) := by
  unfold fRoundHalfAway
  cases fNeg a
  · simp only [Bool.false_eq_true, if_false, Int.natAbs_natCast]
  · simp only [if_true, Int.natAbs_neg, Int.natAbs_natCast]

/-- The answer has the value's sign. -/
theorem fRoundHalfAway_sign (a : F64) :
    fRoundHalfAway a = if fNeg a then -((fRoundHalfAway a).natAbs : Int) else (fRoundHalfAway a).natAbs := by
  rw [fRoundHalfAway_natAbs, fRoundHalfAway]

/-- Half the place added and the rest cut off: the nearest multiple of the place, a tie going up. -/
theorem half_added_bounds (m d : Nat) {place : Nat} (h : place = 2 * d) (hd : 0 < d) :
    2 * ((m + d) / place) * place ≤ 2 * m + place ∧ 2 * m + place < (2 * ((m + d) / place) + 2) * place := by
  have e := Nat.div_add_mod (m + d) place
  have hlt := Nat.mod_lt (m + d) (show 0 < place by omega)
  generalize (m + d) / place = q at *
  have e1 : 2 * q * place = 2 * (place * q) := by ring
  have e2 : (2 * q + 2) * place = 2 * (place * q) + 2 * place := by ring
  rw [e1, e2]
  omega

/-- The significand of a whole number, with no fraction bits and with some. -/
theorem fMant_of_int {a : F64} {z : Int} (h : fVal a = z) :
    (1075 ≤ fScale a → fMant a * 2 ^ (fScale a - 1075) = z.natAbs) ∧
    (fScale a < 1075 → fMant a = z.natAbs * 2 ^ (1075 - fScale a)) := by
  have habs : (fMant a : ℚ) * 2 ^ ((fScale a : Int) - 1075) = z.natAbs := by
    have hm : |(fSignedMant a : ℚ)| = fMant a := by
      unfold fSignedMant
      split <;> simp
    have hp : (0 : ℚ) < 2 ^ ((fScale a : Int) - 1075) := by positivity
    rw [← hm, Nat.cast_natAbs, Int.cast_abs, ← h, fVal, abs_mul, abs_of_pos hp]
  constructor <;> intro hs
  · rw [show (fScale a : Int) - 1075 = ((fScale a - 1075 : Nat) : Int) by omega, zpow_natCast] at habs
    exact_mod_cast habs
  · rw [show (fScale a : Int) - 1075 = -((1075 - fScale a : Nat) : Int) by omega, zpow_neg, zpow_natCast,
      mul_inv_eq_iff_eq_mul₀ (by positivity)] at habs
    exact_mod_cast habs

theorem fVal_sign (x : F64) : if fNeg x then fVal x ≤ 0 else 0 ≤ fVal x := by
  have hp : (0 : ℚ) < 2 ^ ((fScale x : Int) - 1075) := by positivity
  unfold fVal fSignedMant
  split
  · exact mul_nonpos_of_nonpos_of_nonneg (by simp) hp.le
  · exact mul_nonneg (by simp) hp.le

/-- Of a whole number `roundHalfAway` answers that number. -/
theorem fRoundHalfAway_of_int {a : F64} {z : Int} (h : fVal a = z) : fRoundHalfAway a = z := by
  obtain ⟨whole, fraction⟩ := fMant_of_int h
  have hnat : (fRoundHalfAway a).natAbs = z.natAbs := by
    rw [fRoundHalfAway_natAbs]
    split
    · rename_i hs; exact whole hs
    · rename_i hs
      rw [fraction (by omega), add_comm, Nat.add_mul_div_right _ _ (by positivity),
        Nat.div_eq_of_lt (Nat.pow_lt_pow_right (by norm_num) (by omega)), zero_add]
  have hsign := fVal_sign a
  rw [h] at hsign
  rw [fRoundHalfAway_sign, hnat]
  split at hsign
  · rename_i hn
    have : z ≤ 0 := by exact_mod_cast hsign
    rw [if_pos hn]; omega
  · rename_i hn
    have : 0 ≤ z := by exact_mod_cast hsign
    rw [if_neg hn]; omega

/-! ### The order of the values (44_odometry R112, R113) -/

/-- The magnitude of the value in units of 2^(-1075). -/
def fMagUnits (x : F64) : Nat := fMant x * 2 ^ fScale x

theorem fUnits_eq (x : F64) : fUnits x = if fNeg x then -(fMagUnits x : Int) else fMagUnits x := by
  unfold fUnits fSignedMant fMagUnits
  split <;> push_cast <;> ring

theorem fMagUnits_eq_zero_iff (x : F64) : fMagUnits x = 0 ↔ fMagField x = 0 := by
  have hz := fIsZero_iff x
  rw [fIsZero, decide_eq_true_eq] at hz
  rw [fMagUnits, Nat.mul_eq_zero, or_iff_left (by positivity), hz]

/-- A greater magnitude field is a greater magnitude. -/
theorem fMagUnits_lt {a b : F64} (h : fMagField a < fMagField b) : fMagUnits a < fMagUnits b := by
  obtain ⟨ha, ha', ha''⟩ := fMant_bounds a
  obtain ⟨hb, hb', hb''⟩ := fMant_bounds b
  rw [fMagField_eq, fMagField_eq] at h
  unfold fMagUnits
  rcases Nat.lt_or_ge (fScale a) (fScale b) with hs | hs
  · calc fMant a * 2 ^ fScale a < 2 ^ 53 * 2 ^ fScale a := by gcongr
      _ = 2 ^ 52 * 2 ^ (fScale a + 1) := by ring
      _ ≤ fMant b * 2 ^ fScale b := by
        have : 2 ^ 52 ≤ fMant b := by omega
        have : 2 ^ (fScale a + 1) ≤ 2 ^ fScale b := Nat.pow_le_pow_right (by norm_num) hs
        gcongr
  · have heq : fScale a = fScale b := by omega
    have hm : fMant a < fMant b := by omega
    rw [heq]
    gcongr

theorem fMagUnits_lt_iff (a b : F64) : fMagUnits a < fMagUnits b ↔ fMagField a < fMagField b := by
  refine ⟨fun h => ?_, fMagUnits_lt⟩
  by_contra hc
  rcases Nat.eq_or_lt_of_le (not_lt.mp hc) with he | hl
  · have hs : fScale a = fScale b := by simp [fScale, fExpField_eq, he]
    have hm : fMant a = fMant b := by simp [fMant, fExpField_eq, fFracField_eq, he]
    rw [fMagUnits, fMagUnits, hs, hm] at h
    exact lt_irrefl _ h
  · exact lt_asymm h (fMagUnits_lt hl)

/-- Signed magnitudes are in the order of the values. -/
theorem fOrder_lt_iff (a b : F64) : fOrder a < fOrder b ↔ fVal a < fVal b := by
  have hab := fMagUnits_lt_iff a b
  have hba := fMagUnits_lt_iff b a
  have ha := fMagUnits_eq_zero_iff a
  have hb := fMagUnits_eq_zero_iff b
  rw [fVal_lt_iff, fUnits_eq, fUnits_eq]
  unfold fOrder
  cases fNeg a <;> cases fNeg b <;> simp only [Bool.false_eq_true, if_true, if_false] <;> omega

/-- The infinities are the ends of the order. -/
theorem fOrder_eq_fInfMag_iff (x : F64) : fOrder x = fInfMag ↔ x = fInf false := by
  constructor
  · intro h
    have hpos : 0 < fInfMag := by decide
    unfold fOrder at h
    rw [← fPattern_eta x, fInf]
    split at h
    · omega
    · rename_i hn
      rw [Bool.not_eq_true] at hn
      rw [hn, show fMagField x = fInfMag by omega]
  · rintro rfl
    decide

theorem fOrder_eq_neg_fInfMag_iff (x : F64) : fOrder x = -(fInfMag : Int) ↔ x = fInf true := by
  constructor
  · intro h
    have hpos : 0 < fInfMag := by decide
    unfold fOrder at h
    rw [← fPattern_eta x, fInf]
    split at h
    · rename_i hn
      rw [hn, show fMagField x = fInfMag by omega]
    · omega
  · rintro rfl
    decide

theorem fOrder_natAbs (x : F64) : (fOrder x).natAbs = fMagField x := by
  unfold fOrder
  split <;> omega

/-- Of values that are no NaN, the order of the patterns is the order of the values with both infinities. -/
theorem valueBelow_iff {a b : F64} (ha : fIsNaN a = false) (hb : fIsNaN b = false) :
    ValueBelow a b ↔ fOrder a < fOrder b := by
  rw [fIsNaN_eq_false_iff, ← fOrder_natAbs] at ha hb
  unfold ValueBelow
  rw [fIsFinite_iff, fIsFinite_iff, ← fOrder_natAbs, ← fOrder_natAbs, ← fOrder_lt_iff, ne_eq, ne_eq,
    ← fOrder_eq_neg_fInfMag_iff, ← fOrder_eq_neg_fInfMag_iff, ← fOrder_eq_fInfMag_iff, ← fOrder_eq_fInfMag_iff]
  omega

theorem fLt_iff (a b : F64) : fLt a b = true ↔ fIsNaN a = false ∧ fIsNaN b = false ∧ ValueBelow a b := by
  simp only [fLt, Bool.and_eq_true, Bool.not_eq_true', decide_eq_true_eq, and_assoc]
  exact and_congr_right fun ha => and_congr_right fun hb => (valueBelow_iff ha hb).symm

theorem fGe_iff (a b : F64) : fGe a b = true ↔ fIsNaN a = false ∧ fIsNaN b = false ∧ ¬ValueBelow a b := by
  simp only [fGe, Bool.and_eq_true, Bool.not_eq_true', decide_eq_true_eq, and_assoc]
  refine and_congr_right fun ha => and_congr_right fun hb => ?_
  rw [valueBelow_iff ha hb, not_lt]

/-! ### `toF` (00_scope R15) -/

/-- Of a value that is not zero, the sign asked for a zero plays no part. -/
theorem IsRounded.of_ne_zero {v : ℝ} {z z' : Bool} {r : F64} (h : IsRounded v z r) (hv : v ≠ 0) :
    IsRounded v z' r := by
  obtain ⟨nan, neg, pos, -, fin, near⟩ := h
  exact ⟨nan, neg, pos, fun e => absurd e hv, fin, near⟩

/-- An integer at a place, rounded; an exact zero is +0.0. -/
theorem fRound_int_isRounded (z k : Int) : IsRounded (z * 2 ^ k) false (fRound (decide (z < 0)) z.natAbs 1 k) := by
  have h := fRound_isRounded (decide (z < 0)) z.natAbs one_pos k
  have hv : (if decide (z < 0) = true then -((z.natAbs : ℝ) / (1 : Nat) * 2 ^ k) else z.natAbs / (1 : Nat) * 2 ^ k) =
      z * 2 ^ k := by
    rw [Nat.cast_natAbs, Int.cast_abs, Nat.cast_one, div_one]
    split <;> rename_i hz <;> simp only [decide_eq_true_eq] at hz
    · rw [abs_of_neg (by exact_mod_cast hz)]; ring
    · rw [abs_of_nonneg (by exact_mod_cast not_lt.mp hz)]
  rw [hv] at h
  rcases eq_or_ne z 0 with rfl | hz
  · simpa using h
  · exact h.of_ne_zero (mul_ne_zero (by exact_mod_cast hz) (by positivity))

theorem fOfInt_isRounded (z : Int) : IsRounded z false (fOfInt z) := by
  simpa [fOfInt] using fRound_int_isRounded z 0

/-- The pattern of a significand at a place is finite and has that value. -/
theorem fVal_grid (neg : Bool) {n m : Nat} (hm : m ≤ 2 ^ 53) (h : n = 0 ∨ 2 ^ 52 ≤ m) (hn : n < 2045) :
    fIsFinite (fPattern neg (n * 2 ^ 52 + m)) = true ∧
    (fVal (fPattern neg (n * 2 ^ 52 + m)) : ℝ) = (if neg then -1 else 1) * (m * 2 ^ ((n : Int) - 1074)) := by
  have hlt : n * 2 ^ 52 + m < 2 ^ 63 := by omega
  constructor
  · rw [fIsFinite_iff, fMagField_fPattern neg hlt, fInfMag]; omega
  · rw [fVal_eq, fNeg_fPattern neg hlt, mag_value neg hm h (by omega)]

/-- Every integer up to 2^53 in magnitude is the value of a finite pattern. -/
theorem exists_fVal_eq_int {z : Int} (hz : z.natAbs ≤ 2 ^ 53) : ∃ y, fIsFinite y = true ∧ (fVal y : ℝ) = z := by
  rcases Nat.eq_zero_or_pos z.natAbs with h0 | hpos
  · obtain ⟨hf, hv⟩ := fVal_grid false (n := 0) (m := 0) (by norm_num) (.inl rfl) (by norm_num)
    exact ⟨_, hf, by rw [hv, Int.natAbs_eq_zero.mp h0]; simp⟩
  · obtain ⟨up, hup⟩ : ∃ up, up = 52 - z.natAbs.log2 := ⟨_, rfl⟩
    have lo := Nat.log2_self_le hpos.ne'
    have hi : z.natAbs < 2 ^ (z.natAbs.log2 + 1) := Nat.lt_log2_self
    have bounds : z.natAbs * 2 ^ up ≤ 2 ^ 53 ∧ 2 ^ 52 ≤ z.natAbs * 2 ^ up := by
      rcases Nat.lt_or_ge z.natAbs.log2 52 with hl | hl
      · have e1 : 2 ^ 52 = 2 ^ z.natAbs.log2 * 2 ^ up := by rw [← pow_add]; congr 1; omega
        have e2 : 2 ^ 53 = 2 ^ (z.natAbs.log2 + 1) * 2 ^ up := by rw [← pow_add]; congr 1; omega
        rw [e1, e2]
        exact ⟨Nat.mul_le_mul_right _ hi.le, Nat.mul_le_mul_right _ lo⟩
      · have h1 : up = 0 := by omega
        have h2 : 2 ^ 52 ≤ 2 ^ z.natAbs.log2 := Nat.pow_le_pow_right (by norm_num) hl
        rw [h1]; omega
    obtain ⟨hf, hv⟩ := fVal_grid (decide (z < 0)) (n := 1074 - up) bounds.1 (.inr bounds.2) (by omega)
    refine ⟨_, hf, ?_⟩
    have hmag : (z.natAbs * 2 ^ up : Nat) * (2 : ℝ) ^ (((1074 - up : Nat) : Int) - 1074) = |(z : ℝ)| := by
      rw [show ((1074 - up : Nat) : Int) - 1074 = -(up : Int) by omega, zpow_neg, zpow_natCast]
      push_cast
      rw [mul_inv_cancel_right₀ (by positivity), Nat.cast_natAbs, Int.cast_abs]
    rw [hv, hmag]
    split <;> rename_i hs <;> simp only [decide_eq_true_eq] at hs
    · rw [abs_of_neg (by exact_mod_cast hs)]; ring
    · rw [abs_of_nonneg (by exact_mod_cast not_lt.mp hs), one_mul]

/-- A value that a finite pattern has, and that is below the largest ones, is rounded to itself. -/
theorem IsRounded.exact {v : ℝ} {z : Bool} {r y : F64} (h : IsRounded v z r) (hb : |v| ≤ 2 ^ 53)
    (hy : fIsFinite y = true) (hv : (fVal y : ℝ) = v) : fIsFinite r = true ∧ (fVal r : ℝ) = v := by
  obtain ⟨-, -, -, -, overflow, near⟩ := h
  have hf : fIsFinite r = true := by
    rw [← Bool.not_eq_false, overflow, not_le]
    refine lt_of_le_of_lt hb ?_
    rw [show (2 : ℝ) ^ 1024 = 2 ^ 54 * 2 ^ 970 by rw [← pow_add]]
    have hu : (1 : ℝ) ≤ 2 ^ 970 := one_le_pow₀ (by norm_num)
    generalize (2 : ℝ) ^ 970 = u at *
    linarith
  obtain ⟨hle, -⟩ := near hf y hy
  rw [hv, sub_self, abs_zero] at hle
  exact ⟨hf, sub_eq_zero.mp (abs_nonpos_iff.mp hle)⟩

/-- `toF` is exact up to 2^53. -/
theorem fOfInt_exact {z : Int} (hz : z.natAbs ≤ 2 ^ 53) : fIsFinite (fOfInt z) = true ∧ fVal (fOfInt z) = z := by
  obtain ⟨y, hy, hv⟩ := exists_fVal_eq_int hz
  have hb : |(z : ℝ)| ≤ 2 ^ 53 := by
    rw [← Int.cast_abs, ← Nat.cast_natAbs]
    exact_mod_cast hz
  obtain ⟨hf, hval⟩ := (fOfInt_isRounded z).exact hb hy hv
  exact ⟨hf, by exact_mod_cast hval⟩

theorem fVal_fTwoPi : fVal fTwoPi = 2 * fVal fPi := by
  have hm : fSignedMant fTwoPi = fSignedMant fPi := by decide
  have hs : ((fScale fTwoPi : Int) - 1075) = 1 + ((fScale fPi : Int) - 1075) := by decide
  rw [fVal, fVal, hm, hs, zpow_add₀ (by norm_num)]
  ring

end Sys2Proof.Machine

open Sys2Proof.Machine in
/-- Settles O55: the sign, and half the place added and the rest cut off. -/
theorem roundHalfAwayIsNearestTiesAway : Obligations.RoundHalfAwayIsNearestTiesAway := by
  unfold Obligations.RoundHalfAwayIsNearestTiesAway
  intro a
  have hs := fRoundHalfAway_sign a
  refine ⟨fun hn => ?_, fun hn => ?_, fun h => ?_, fun h => ?_⟩
  · rw [hn] at hs; simp only [if_true] at hs; omega
  · rw [hn] at hs; simp only [Bool.false_eq_true, if_false] at hs; omega
  · rw [fRoundHalfAway_natAbs, if_pos h]
  · rw [fRoundHalfAway_natAbs, if_neg (by omega)]
    refine half_added_bounds _ _ ?_ (by positivity)
    rw [← pow_succ', show 1074 - fScale a + 1 = 1075 - fScale a by omega]

open Sys2Proof.Machine in
/-- Settles O56: an integer up to 2^53 is itself the nearest value, and the patterns are in the order of the values. -/
theorem conversionsAndComparisonsAreExact : Obligations.ConversionsAndComparisonsAreExact := by
  unfold Obligations.ConversionsAndComparisonsAreExact
  refine ⟨fun b => ?_, fun _ => fOfInt_exact, fOfInt_isRounded, fLt_iff, fGe_iff, fVal_fTwoPi⟩
  have small : b.toInt.natAbs ≤ 2 ^ 53 := by
    have := b.toInt_lt
    have := b.le_toInt
    omega
  obtain ⟨hf, hv⟩ := fOfInt_exact small
  exact ⟨hf, (fVal_eq_int_iff _ _).mp hv, fRoundHalfAway_of_int hv⟩
end

section
/-! SUPPORT. The binary64 operations are the IEEE 754 ones, rounded to nearest, ties to even (O54): the two integer
steps, then each operation on finite operands, then the infinities, the zero divisors and the NaN. -/
namespace Sys2Proof.Machine

/-! ### The integer steps -/

/-- The rounded quotient is a nearest integer; of two equally near it is the even one. -/
theorem divNearestEven_spec (num : Nat) {den : Nat} (h : 0 < den) :
    2 * num ≤ (2 * divNearestEven num den + 1) * den ∧ 2 * divNearestEven num den * den ≤ 2 * num + den ∧
    (2 * num = (2 * divNearestEven num den + 1) * den ∨ 2 * divNearestEven num den * den = 2 * num + den →
      divNearestEven num den % 2 = 0) := by
  have hdiv := Nat.div_add_mod num den
  have hlt := Nat.mod_lt num h
  have above : ∀ m, (2 * m + 1) * den = 2 * (den * m) + den := fun m => by ring
  have below : ∀ m, 2 * m * den = 2 * (den * m) := fun m => by ring
  rw [above, below]
  simp only [divNearestEven]
  split
  · rw [Nat.mul_succ]; omega
  · omega

/-- The root built bit by bit stays the greatest whose square is at most n, with i bits still open. -/
theorem isqrtBits_spec {n : Nat} (i : Nat) {r : Nat} (hlo : r * r ≤ n) (hhi : n < (r + 2 ^ i) * (r + 2 ^ i)) :
    isqrtBits i n r * isqrtBits i n r ≤ n ∧ n < (isqrtBits i n r + 1) * (isqrtBits i n r + 1) := by
  induction i generalizing r with
  | zero => exact ⟨hlo, hhi⟩
  | succ i ih =>
    unfold isqrtBits
    split
    · rename_i h
      refine ih h ?_
      rwa [add_assoc, ← two_mul, ← pow_succ']
    · rename_i h
      exact ih hlo (not_le.mp h)

theorem isqrt_spec {n : Nat} (h : n < 2 ^ 180) :
    isqrtBits 90 n 0 * isqrtBits 90 n 0 ≤ n ∧ n < (isqrtBits 90 n 0 + 1) * (isqrtBits 90 n 0 + 1) :=
  isqrtBits_spec 90 (Nat.zero_le n) (by simpa [← pow_add] using h)

/-! ### The exact results of finite operands, rounded -/

/-- A finite sum, rounded; an exact zero is +0.0 unless both operands are negative. -/
theorem fAdd_isRounded {a b : F64} (ha : fIsFinite a = true) (hb : fIsFinite b = true) :
    IsRounded (fVal a + fVal b) (fNeg a && fNeg b) (fAdd a b) := by
  obtain ⟨na, ia⟩ := finite_kind ha
  obtain ⟨nb, ib⟩ := finite_kind hb
  simp only [fAdd, na, nb, ia, ib, Bool.or_self, Bool.false_eq_true, if_false]
  have hlow : min (fScale a) (fScale b) ≤ fScale a ∧ min (fScale a) (fScale b) ≤ fScale b := by omega
  generalize min (fScale a) (fScale b) = low at *
  generalize hz : fSignedMant a * 2 ^ (fScale a - low) + fSignedMant b * 2 ^ (fScale b - low) = z
  have sum : (fVal a : ℝ) + fVal b = z * 2 ^ ((low : Int) - 1075) := by
    rw [fVal_at a hlow.1, fVal_at b hlow.2, ← hz]
    push_cast
    ring
  rw [sum]
  split
  · rename_i h0
    rw [h0, Int.cast_zero, zero_mul]
    exact fZero_isRounded _
  · rename_i h0
    exact (fRound_int_isRounded z _).of_ne_zero (mul_ne_zero (by exact_mod_cast h0) (by positivity))

theorem fSub_isRounded {a b : F64} (ha : fIsFinite a = true) (hb : fIsFinite b = true) :
    IsRounded (fVal a - fVal b) (fNeg a && !fNeg b) (fSub a b) := by
  have h := fAdd_isRounded ha (show fIsFinite (fNegate b) = true by simpa using hb)
  rwa [fVal_fNegate, fNeg_fNegate, ← sub_eq_add_neg] at h

/-- The sign of a product and of a quotient: negative when the signs differ. -/
theorem signs_mul (p q : Bool) (x y : ℝ) :
    (if p then -1 else 1) * x * ((if q then -1 else 1) * y) = if (p != q) = true then -(x * y) else x * y := by
  cases p <;> cases q <;> simp

theorem fMul_isRounded {a b : F64} (ha : fIsFinite a = true) (hb : fIsFinite b = true) :
    IsRounded (fVal a * fVal b) (fNeg a != fNeg b) (fMul a b) := by
  obtain ⟨na, ia⟩ := finite_kind ha
  obtain ⟨nb, ib⟩ := finite_kind hb
  simp only [fMul, na, nb, ia, ib, Bool.or_self, Bool.false_eq_true, if_false]
  have h := fRound_isRounded (fNeg a != fNeg b) (fMant a * fMant b) one_pos ((fScale a : Int) + fScale b - 2150)
  have prod : (fMant a : ℝ) * 2 ^ ((fScale a : Int) - 1075) * (fMant b * 2 ^ ((fScale b : Int) - 1075)) =
      (fMant a * fMant b : Nat) / (1 : Nat) * 2 ^ ((fScale a : Int) + fScale b - 2150) := by
    rw [show (fScale a : Int) + fScale b - 2150 = (fScale a - 1075) + (fScale b - 1075) by ring,
      zpow_add₀ (by norm_num)]
    push_cast
    ring
  rwa [fVal_eq, fVal_eq, signs_mul, prod]

theorem fDiv_isRounded {a b : F64} (ha : fIsFinite a = true) (hb : fIsFinite b = true) (h0 : fVal b ≠ 0) :
    IsRounded (fVal a / fVal b) (fNeg a != fNeg b) (fDiv a b) := by
  obtain ⟨na, ia⟩ := finite_kind ha
  obtain ⟨nb, ib⟩ := finite_kind hb
  have zb := (fVal_ne_zero_iff b).mp h0
  have hm : 0 < fMant b := Nat.pos_of_ne_zero fun e => by rw [(fIsZero_iff b).mpr e] at zb; cases zb
  simp only [fDiv, na, nb, ia, ib, zb, Bool.or_self, Bool.false_eq_true, if_false]
  have h := fRound_isRounded (fNeg a != fNeg b) (fMant a) hm ((fScale a : Int) - fScale b)
  have quot : (fMant a : ℝ) * 2 ^ ((fScale a : Int) - 1075) * ((fMant b : ℝ) * 2 ^ ((fScale b : Int) - 1075))⁻¹ =
      fMant a / fMant b * 2 ^ ((fScale a : Int) - fScale b) := by
    rw [show (fScale a : Int) - fScale b = ((fScale a : Int) - 1075) - ((fScale b : Int) - 1075) by ring]
    generalize (fScale a : Int) - 1075 = p
    generalize (fScale b : Int) - 1075 = q
    rw [zpow_sub₀ (by norm_num)]
    ring
  have inv_sign : ((if fNeg b then (-1 : ℝ) else 1))⁻¹ = if fNeg b then -1 else 1 := by split <;> norm_num
  rwa [div_eq_mul_inv, fVal_eq, fVal_eq, mul_inv, inv_sign, signs_mul, quot]

/-! ### The square root -/

theorem quotLog2_one {N : Nat} (h : 0 < N) : quotLog2 N 1 = N.log2 := by
  have reaches : 1 <<< N.log2 ≤ N := by
    rw [Nat.shiftLeft_eq, one_mul]
    exact Nat.log2_self_le h.ne'
  simp [quotLog2, show Nat.log2 1 = 0 by decide, reaches]

/-- An odd integer lies on no boundary that is even: what is near it in units of `4 * h` is strictly near a value
strictly less than 1 away. -/
theorem near_of_odd {N m h : Nat} {x : ℝ} (hodd : N % 2 = 1) (hlo : (N : ℝ) - 1 < x) (hhi : x < N + 1)
    (near : |(m : ℝ) * (4 * h) - N| ≤ 2 * h) : |(m : ℝ) * (4 * h) - x| < 2 * h := by
  rw [abs_le] at near
  have up : N ≤ 4 * (m * h) + 2 * h := by
    have : (N : ℝ) ≤ 4 * (m * h) + 2 * h := by linarith
    exact_mod_cast this
  have down : 4 * (m * h) ≤ N + 2 * h := by
    have : (4 : ℝ) * (m * h) ≤ N + 2 * h := by linarith
    exact_mod_cast this
  have up' : (N : ℝ) + 1 ≤ 4 * (m * h) + 2 * h := by exact_mod_cast (show N + 1 ≤ 4 * (m * h) + 2 * h by omega)
  have down' : (4 : ℝ) * (m * h) + 1 ≤ N + 2 * h := by exact_mod_cast (show 4 * (m * h) + 1 ≤ N + 2 * h by omega)
  rw [abs_lt]
  constructor <;> linarith

/-- A value strictly between two even integers, rounded as the odd integer between them: with two bits or more
below the place of rounding, neither a finite value nor a midpoint of two lies between. -/
theorem fRound_odd_isRounded {N : Nat} (hodd : N % 2 = 1) (hbig : 2 ^ 54 ≤ N) (k : Int) {x : ℝ}
    (hlo : (N : ℝ) - 1 < x) (hhi : x < N + 1) (z : Bool) : IsRounded (x * 2 ^ k) z (fRound false N 1 k) := by
  have hN : 0 < N := by omega
  have hk : (0 : ℝ) < 2 ^ k := by positivity
  have hL : 54 ≤ N.log2 := (Nat.le_log2 hN.ne').mpr hbig
  obtain ⟨n, he⟩ : ∃ n : Nat, (n : Int) = max (quotLog2 N 1 + k) (-1022) + 1022 :=
    ⟨(max (quotLog2 N 1 + k) (-1022) + 1022).toNat, by omega⟩
  obtain ⟨m, hm, near, -⟩ := place_near N one_pos k n
  rw [fRound, if_neg hN.ne', roundMag_eq N 1 k he hm]
  rw [quotLog2_one hN] at he
  obtain ⟨j, hj⟩ : ∃ j : Nat, (n : Int) - 1074 = (j + 2 : Nat) + k := ⟨((n : Int) - 1076 - k).toNat, by omega⟩
  have unit : (2 : ℝ) ^ ((n : Int) - 1074) = 4 * (2 ^ j : Nat) * 2 ^ k := by
    rw [hj, zpow_add₀ (by norm_num), zpow_natCast, pow_add]
    push_cast
    ring
  have strict : |(m : ℝ) * 2 ^ ((n : Int) - 1074) - x * 2 ^ k| < 2 ^ ((n : Int) - 1074) / 2 := by
    have scaled : ∀ y : ℝ,
        |(m : ℝ) * (4 * (2 ^ j : Nat) * 2 ^ k) - y * 2 ^ k| = |m * (4 * (2 ^ j : Nat)) - y| * 2 ^ k := by
      intro y
      rw [← mul_assoc, ← sub_mul, abs_mul, abs_of_pos hk]
    have half : (4 * (2 ^ j : Nat) * 2 ^ k : ℝ) / 2 = 2 * (2 ^ j : Nat) * 2 ^ k := by ring
    rw [Nat.cast_one, div_one, unit, scaled, half] at near
    rw [unit, scaled, half]
    exact mul_lt_mul_of_pos_right (near_of_odd hodd hlo hhi (le_of_mul_le_mul_right near hk)) hk
  have lead_lo : (2 : ℝ) ^ N.log2 ≤ x := by
    have even : 2 ^ N.log2 = 2 * 2 ^ (N.log2 - 1) := by rw [← pow_succ']; congr 1; omega
    have := Nat.log2_self_le hN.ne'
    have : (2 : ℝ) ^ N.log2 + 1 ≤ N := by exact_mod_cast (show 2 ^ N.log2 + 1 ≤ N by omega)
    linarith
  have lead_hi : x < 2 ^ (N.log2 + 1) := by
    have : (N : ℝ) + 1 ≤ 2 ^ (N.log2 + 1) := by exact_mod_cast (Nat.lt_log2_self : N < 2 ^ (N.log2 + 1))
    linarith
  have hx : 0 < x := lt_of_lt_of_le (by positivity) lead_lo
  refine isRounded_of_grid (by positivity) ?_ ?_ strict.le (fun e => absurd e strict.ne) false z
  · rcases Nat.eq_zero_or_pos n with h | h
    · exact .inl h
    · refine .inr ?_
      calc (2 : ℝ) ^ 52 * 2 ^ ((n : Int) - 1074) = 2 ^ N.log2 * 2 ^ k := by
            rw [← zpow_natCast, ← zpow_natCast, ← zpow_add₀ (by norm_num), ← zpow_add₀ (by norm_num)]
            congr 1; push_cast; omega
        _ ≤ x * 2 ^ k := by gcongr
  · calc x * 2 ^ k < 2 ^ (N.log2 + 1) * 2 ^ k := by gcongr
      _ = 2 ^ ((N.log2 : Int) + 1 + k) := by
            rw [← zpow_natCast, ← zpow_add₀ (by norm_num)]; congr 1
      _ ≤ 2 ^ ((n : Int) - 1021) := zpow_le_zpow_right₀ (by norm_num) (by omega)
      _ = 2 ^ 53 * 2 ^ ((n : Int) - 1074) := by
            rw [← zpow_natCast, ← zpow_add₀ (by norm_num)]; congr 1; push_cast; ring

/-- The integer root of n and the bit below it that says whether it is exact: as good as the root of n. -/
theorem fRound_root_isRounded {n r : Nat} (hbig : 2 ^ 110 ≤ n) (hlo : r * r ≤ n) (hhi : n < (r + 1) * (r + 1))
    (k : Int) (z : Bool) :
    IsRounded (2 * Real.sqrt n * 2 ^ k) z (fRound false (2 * r + if r * r = n then 0 else 1) 1 k) := by
  have hr : 2 ^ 54 ≤ r := by
    by_contra hc
    have : (r + 1) * (r + 1) ≤ 2 ^ 54 * 2 ^ 54 := Nat.mul_le_mul (by omega) (by omega)
    omega
  split
  · rename_i h
    have root : Real.sqrt n = r := by
      rw [← h]; push_cast
      exact Real.sqrt_mul_self (Nat.cast_nonneg r)
    have hr' : (0 : ℝ) < r := by exact_mod_cast (show 0 < r by omega)
    have hv : 2 * (r : ℝ) * 2 ^ k ≠ 0 := by positivity
    have hround := fRound_isRounded false (2 * r) one_pos k
    rw [root, add_zero]
    simp only [Bool.false_eq_true, if_false, Nat.cast_one, div_one, Nat.cast_mul, Nat.cast_ofNat] at hround
    exact hround.of_ne_zero hv
  · rename_i h
    have lo : (r : ℝ) < Real.sqrt n := Real.lt_sqrt_of_sq_lt (by exact_mod_cast (show r ^ 2 < n by rw [sq]; omega))
    have hi : Real.sqrt n < r + 1 := by
      rw [Real.sqrt_lt' (by positivity), sq]
      exact_mod_cast hhi
    refine fRound_odd_isRounded (by omega) (by omega) k ?_ ?_ z <;> push_cast <;> linarith

/-- A positive finite value under the root: the significand widened to an even place is a whole number. -/
theorem sqrt_fVal {a : F64} (hn : fNeg a = false) {odd : Nat} (ho : odd = (fScale a + 1) % 2) :
    Real.sqrt (fVal a) = 2 * Real.sqrt ((fMant a * 2 ^ odd) <<< 120 : Nat) *
      2 ^ (((fScale a : Int) - 1075 - odd) / 2 - 61) := by
  obtain ⟨h, hh⟩ : ∃ h, ((fScale a : Int) - 1075 - odd) / 2 = h := ⟨_, rfl⟩
  have heven : (fScale a : Int) - 1075 = odd + 2 * h := by omega
  have hpow : (0 : ℝ) ≤ 2 ^ (h - 60) := by positivity
  have hval : (fVal a : ℝ) = ((fMant a * 2 ^ odd) <<< 120 : Nat) * (2 ^ (h - 60) * 2 ^ (h - 60)) := by
    rw [fVal_eq, hn, heven, Nat.shiftLeft_eq, ← zpow_add₀ (by norm_num),
      show h - 60 + (h - 60) = 2 * h - (120 : Nat) by push_cast; ring, zpow_sub₀ (by norm_num), zpow_natCast,
      zpow_add₀ (by norm_num), zpow_natCast]
    push_cast
    field_simp
    norm_num
  rw [hval, Real.sqrt_mul (Nat.cast_nonneg _), Real.sqrt_mul_self hpow, hh,
    show h - 60 = (h - 61) + 1 by ring, zpow_add₀ (by norm_num), zpow_one]
  ring

theorem fSqrt_isRounded {a : F64} (ha : fIsFinite a = true) (hpos : 0 < fVal a) :
    IsRounded (Real.sqrt (fVal a)) false (fSqrt a) := by
  obtain ⟨na, ia⟩ := finite_kind ha
  have za := (fVal_ne_zero_iff a).mp hpos.ne'
  have hn : fNeg a = false := by
    have hs := fVal_sign a
    by_contra hc
    rw [Bool.not_eq_false] at hc
    rw [if_pos hc] at hs
    exact absurd hpos (not_lt.mpr hs)
  have hm : 0 < fMant a := Nat.pos_of_ne_zero fun e => by rw [(fIsZero_iff a).mpr e] at za; cases za
  obtain ⟨hm53, -, -⟩ := fMant_bounds a
  obtain ⟨odd, ho⟩ : ∃ odd, odd = (fScale a + 1) % 2 := ⟨_, rfl⟩
  have widened : 2 ^ 120 ≤ (fMant a * 2 ^ odd) <<< 120 ∧ (fMant a * 2 ^ odd) <<< 120 < 2 ^ 180 := by
    have : odd = 0 ∨ odd = 1 := by omega
    rw [Nat.shiftLeft_eq]
    rcases this with rfl | rfl <;> omega
  obtain ⟨lo, hi⟩ := isqrt_spec widened.2
  simp only [fSqrt, na, za, hn, ia, Bool.false_eq_true, if_false, ← ho]
  rw [sqrt_fVal hn ho]
  exact fRound_root_isRounded (by omega) lo hi _ _

/-! ### Infinities, zero divisors and NaN -/

theorem fIsNaN_fNaN : fIsNaN fNaN = true := by decide

@[simp] theorem fNegate_fInf (neg : Bool) : fNegate (fInf neg) = fInf !neg := by cases neg <;> decide

/-- A NaN operand gives a NaN. -/
theorem nan_operand {a b : F64} (h : fIsNaN a = true ∨ fIsNaN b = true) :
    fIsNaN (fAdd a b) = true ∧ fIsNaN (fSub a b) = true ∧ fIsNaN (fMul a b) = true ∧ fIsNaN (fDiv a b) = true := by
  have hor : (fIsNaN a || fIsNaN b) = true := by rwa [Bool.or_eq_true]
  refine ⟨?_, ?_, ?_, ?_⟩ <;> simp [fAdd, fSub, fMul, fDiv, hor, fIsNaN_fNaN]

/-- Division by zero. -/
theorem fDiv_zero {a b : F64} (ha : fIsFinite a = true) (hb : fIsFinite b = true) (h0 : fVal b = 0) :
    fDiv a b = if fIsZero a then fNaN else fInf (fNeg a != fNeg b) := by
  obtain ⟨na, ia⟩ := finite_kind ha
  obtain ⟨nb, ib⟩ := finite_kind hb
  simp [fDiv, na, ia, nb, ib, (fVal_eq_zero_iff b).mp h0]

/-- An infinity added to a value that is no NaN and no infinity of the other sign. -/
theorem fAdd_inf {a b : F64} (ha : fIsInf a = true) (hb : fIsNaN b = false)
    (h : fIsInf b = false ∨ fNeg a = fNeg b) : fAdd a b = a := by
  obtain ⟨na, -, -⟩ := inf_kind ha
  rcases h with h | h <;> simp [fAdd, na, hb, ha, h]

/-- An infinity added to a finite value. -/
theorem fAdd_finite_inf {a b : F64} (ha : fIsInf a = true) (hb : fIsFinite b = true) : fAdd b a = a := by
  obtain ⟨na, -, -⟩ := inf_kind ha
  obtain ⟨nb, ib⟩ := finite_kind hb
  simp [fAdd, na, nb, ib, ha]

/-- Infinities of both signs have no sum. -/
theorem fAdd_opposite_inf {a b : F64} (ha : fIsInf a = true) (hb : fIsInf b = true) (h : fNeg a ≠ fNeg b) :
    fIsNaN (fAdd a b) = true := by
  obtain ⟨na, -, -⟩ := inf_kind ha
  obtain ⟨nb, -, -⟩ := inf_kind hb
  simp [fAdd, na, nb, ha, hb, h, fIsNaN_fNaN]

/-- Two infinities. -/
theorem inf_inf {a b : F64} (ha : fIsInf a = true) (hb : fIsInf b = true) :
    fMul a b = fInf (fNeg a != fNeg b) ∧ fIsNaN (fDiv a b) = true ∧
    (fNeg a = fNeg b → fAdd a b = a ∧ fIsNaN (fSub a b) = true) ∧
    (fNeg a ≠ fNeg b → fIsNaN (fAdd a b) = true ∧ fSub a b = a) := by
  obtain ⟨na, za, -⟩ := inf_kind ha
  obtain ⟨nb, zb, -⟩ := inf_kind hb
  have hb' : fIsInf (fNegate b) = true := by rwa [fIsInf_fNegate]
  refine ⟨by simp [fMul, na, nb, ha, za, zb], by simp [fDiv, na, nb, ha, hb, fIsNaN_fNaN], fun h => ⟨?_, ?_⟩,
    fun h => ⟨fAdd_opposite_inf ha hb h, ?_⟩⟩
  · exact fAdd_inf ha nb (.inr h)
  · exact fAdd_opposite_inf ha hb' (by simp [h])
  · exact fAdd_inf ha (by rwa [fIsNaN_fNegate]) (.inr (by cases hna : fNeg a <;> simp_all))

/-- An infinity and a finite value. -/
theorem inf_finite {a b : F64} (ha : fIsInf a = true) (hb : fIsFinite b = true) :
    fAdd a b = a ∧ fAdd b a = a ∧ fSub a b = a ∧ fSub b a = fInf (!fNeg a) ∧
    fDiv a b = fInf (fNeg a != fNeg b) ∧ fDiv b a = fZero (fNeg a != fNeg b) ∧
    (fVal b = 0 → fIsNaN (fMul a b) = true ∧ fIsNaN (fMul b a) = true) ∧
    (fVal b ≠ 0 → fMul a b = fInf (fNeg a != fNeg b) ∧ fMul b a = fInf (fNeg a != fNeg b)) := by
  obtain ⟨na, za, ea⟩ := inf_kind ha
  obtain ⟨nb, ib⟩ := finite_kind hb
  have ha' : fIsInf (fNegate a) = true := by rwa [fIsInf_fNegate]
  have hb' : fIsFinite (fNegate b) = true := by rwa [fIsFinite_fNegate]
  have hneg : fNegate a = fInf (!fNeg a) := by conv_lhs => rw [ea, fNegate_fInf]
  have hcomm : (fNeg b != fNeg a) = (fNeg a != fNeg b) := bne_comm
  refine ⟨fAdd_inf ha nb (.inl ib), fAdd_finite_inf ha hb, fAdd_inf ha (finite_kind hb').1 (.inl (finite_kind hb').2),
    (fAdd_finite_inf ha' hb).trans hneg, ?_, ?_, fun h0 => ?_, fun h0 => ?_⟩
  · simp [fDiv, na, nb, ha, ib]
  · simp [fDiv, na, nb, ha, ib, hcomm]
  · simp [fMul, na, nb, ha, (fVal_eq_zero_iff b).mp h0, fIsNaN_fNaN]
  · simp [fMul, na, nb, ha, za, (fVal_ne_zero_iff b).mp h0, hcomm]

/-- The radicands that are no positive finite value. -/
theorem fSqrt_special (a : F64) :
    (fIsNaN a = true → fIsNaN (fSqrt a) = true) ∧ (fIsZero a = true → fSqrt a = a) ∧
    (fIsZero a = false → fNeg a = true → fIsNaN (fSqrt a) = true) ∧ (a = fInf false → fSqrt a = a) := by
  refine ⟨fun h => ?_, fun h => ?_, fun hz hn => ?_, ?_⟩
  · simp [fSqrt, h, fIsNaN_fNaN]
  · have nan : fIsNaN a = false := by
      rw [fIsZero, decide_eq_true_eq] at h
      rw [fIsNaN_eq_false_iff, h]
      exact Nat.zero_le _
    simp [fSqrt, nan, h]
  · cases nan : fIsNaN a <;> simp [fSqrt, nan, hz, hn, fIsNaN_fNaN]
  · rintro rfl
    decide

end Sys2Proof.Machine

open Sys2Proof.Machine in
/-- Settles O54: every result is `fRound` of the exact one, and under the root a bit below the integer root stands for
what the root leaves. -/
theorem roundingIsToNearestEven : Obligations.RoundingIsToNearestEven := by
  unfold Obligations.RoundingIsToNearestEven
  refine ⟨fun num _ => divNearestEven_spec num, fun _ => isqrt_spec, fun _ _ => nan_operand, fun a b ha hb => ?_,
    fun _ _ => inf_inf, fun _ _ => inf_finite, fun a => ?_⟩
  · refine ⟨fAdd_isRounded ha hb, fSub_isRounded ha hb, fMul_isRounded ha hb, fDiv_isRounded ha hb,
      fun h0 hne => ?_, fun h0 hz => ?_⟩
    · rw [fDiv_zero ha hb h0, (fVal_ne_zero_iff a).mp hne]; rfl
    · rw [fDiv_zero ha hb h0, (fVal_eq_zero_iff a).mp hz]; exact fIsNaN_fNaN
  · obtain ⟨nan, zero, neg, inf⟩ := fSqrt_special a
    exact ⟨nan, zero, neg, inf, fSqrt_isRounded⟩
end

section
/-! SUPPORT. The state at reset: the power-on values (O1) and the invariant (O3), each for every block at power-on
before the machine's own parameters; and the bits of `TSTAT`, which `HOST_STATUS` returns (O37). -/
namespace Sys2Proof.Machine

/-! ### Power-on (70_reset_and_hazards R136) -/

/-- No element of a frame holds a byte at power-on (10_state R33). -/
theorem powerOn_frames_unset (p : Params) (j : Nat) :
    frame0At (State.powerOn p) j = none ∧ frame1At (State.powerOn p) j = none := ⟨rfl, rfl⟩

theorem powerOn_powerOnValues (p : Params) : PowerOnValues (State.powerOn p) := by
  have frames := powerOn_frames_unset p
  refine ⟨?sclk, ?mosi, ?chsel, ?phase, ?status, ?pto, ?cmdFull, ?rspValid, ?absX, ?absY, ?lastDx, ?lastDy, ?quality,
    ?btnRel, ?mode, ?cal0, ?cal1, ?circ, ?oaErr, ?heading, ?posX, ?posY, ?hist, frames, ?pixIdx⟩
  all_goals rfl

/-- The parameters of this machine are in range, whatever its OPEN ones are (00_scope R9). -/
theorem configParams_wf : Config.params.wf = true := by
  have settle : 1 ≤ Config.params.tSettle := Nat.le_add_left 1 _
  have hist : 1 ≤ Config.params.histN := Nat.le_add_left 1 _
  have limit : Config.params.pixPollLimit = none := rfl
  simp [Params.wf, settle, hist, limit]

/-! ### `TSTAT` and `HOST_STATUS` (10_state R28, 42_transport R96) -/

/-- `TSTAT` as its bits from bit 0 up; every bit above the four fields reads as 0. -/
theorem tstat_getLsbD (s : State) (k : Nat) :
    (tstat s).getLsbD k = [s.tp.cmdFull, s.tp.rspValid, cdBusy s, s.cd.pto].getD k false := by
  have outer : (tstat s).getLsbD k = _ := BitVec.getLsbD_append
  simp only [outer, BitVec.getLsbD_append, BitVec.getLsbD_ofBool, BitVec.getLsbD_zero]
  match k with
  | 0 | 1 | 2 | 3 => simp
  | _ + 4 => simp

theorem tstat_reserved (s : State) : (tstat s).extractLsb' 4 4 = 0#4 := by
  ext i hi
  simp [BitVec.getElem_extractLsb', tstat_getLsbD]

theorem cdBusy_iff (s : State) : cdBusy s = true ↔ s.cd.status = .busy := decide_eq_true_iff

/-- With both mailboxes empty, the CD idle and no poll timeout recorded, `TSTAT` reads 0x00. -/
theorem tstat_eq_zero {s : State} (hq : Quiescent s) (hpto : s.cd.pto = false) : tstat s = 0x00#8 := by
  obtain ⟨idle, empty, unanswered⟩ := hq
  simp [tstat, cdBusy, idle, empty, unanswered, hpto]

theorem exec_hostStatus (s : State) : exec .hostStatus s = .next (answerHost (.status (tstat s)) s) := rfl

end Sys2Proof.Machine

open Sys2Proof.Machine in
/-- Settles O1: the state at reset is the power-on state of a block with the machine's parameters, and that block is
quiescent. -/
theorem resetHoldsPowerOnValues : Obligations.ResetHoldsPowerOnValues := by
  unfold Obligations.ResetHoldsPowerOnValues
  have quiescent : Quiescent State.reset := ⟨rfl, rfl, rfl⟩
  exact ⟨powerOn_powerOnValues _, rfl, tstat_eq_zero quiescent rfl⟩

open Sys2Proof.Machine in
/-- Settles O3: every block with parameters in range has the invariant at power-on, and the machine's are. -/
theorem invariantHoldsAtReset : Obligations.InvariantHoldsAtReset := by
  unfold Obligations.InvariantHoldsAtReset
  exact powerOn_inv configParams_wf

open Sys2Proof.Machine in
/-- Settles O37: `HOST_STATUS` writes the reply alone, and each field of `TSTAT` stands at its bit. -/
theorem hostStatusReturnsTstat : Obligations.HostStatusReturnsTstat := by
  unfold Obligations.HostStatusReturnsTstat
  intro s
  have busy : (tstat s).getLsbD 2 = cdBusy s := tstat_getLsbD s 2
  exact ⟨exec_hostStatus s, tstat_getLsbD s 0, tstat_getLsbD s 1, by rw [busy, cdBusy_iff], tstat_getLsbD s 3,
    tstat_reserved s⟩
end

section
/-! SUPPORT. The snapshot port: the turn it takes, and the output each mode selects (O57). -/
namespace Sys2Proof.Machine

/-- R118 with `MODE` per sensor. -/
theorem derivedOutput_perSensor {o : Odometry} (h : o.mode = .perSensor) :
    derivedOutput o = .perSensor (o.absX.s0, o.absY.s0) (o.absX.s1, o.absY.s1) := by
  rw [derivedOutput, h]

/-- R118 with `MODE` free-ball. -/
theorem derivedOutput_freeBall {o : Odometry} (h : o.mode = .freeBall) :
    derivedOutput o = .freeBall o.heading o.posX o.posY o.hist := by
  rw [derivedOutput, h]

theorem fetch_of_agenda_snapshot {s : State} {rest : List Turn} (h : s.env.agenda = .snapshot :: rest) :
    fetch s = .quiet (takeSnapshot (dropTurn s)) := by
  simp [fetch, turnOf, h]

/-- The turn leaves the agenda, the view is delivered, and every other field stays. -/
theorem takeSnapshot_dropTurn {s : State} {t : Turn} {rest : List Turn} (h : s.env.agenda = t :: rest) :
    takeSnapshot (dropTurn s) = { s with env := { s.env with agenda := rest, view := some (snapshotOf s) } } := by
  have tail : s.env.agenda.tail = rest := by rw [h, List.tail_cons]
  rw [← tail]
  rfl

end Sys2Proof.Machine

open Sys2Proof.Machine in
/-- Settles O57: the snapshot delivered is `snapshotOf s`, whose output is R118's in either mode. -/
theorem snapshotCopiesAllOaState : Obligations.SnapshotCopiesAllOaState := by
  unfold Obligations.SnapshotCopiesAllOaState
  intro s rest h
  refine ⟨snapshotOf s, ?_, rfl, derivedOutput_perSensor, derivedOutput_freeBall⟩
  rw [step_of_quiet (fetch_of_agenda_snapshot h), takeSnapshot_dropTurn h]
end

section
/-! SUPPORT. The encoded ports: what a command byte and an operation code decode to, and that decoding undoes
encoding (O6 to O10). -/
namespace Sys2Proof

/-! ### The command port (30_encoding R55 to R57) -/

/-- What a command byte can select, said once. -/
theorem decodeCommand_cases (c : Byte) :
    (c = 0xBA#8 ∧ decodeCommand c = .cmdChipReset) ∨ (c = 0xA2#8 ∧ decodeCommand c = .cmdNavCtrl2) ∨
    (c = 0x0B#8 ∧ decodeCommand c = .cmdPixelGrab) ∨ (c = 0x02#8 ∧ decodeCommand c = .cmdMotion) ∨
    (namedCommandByte c = false ∧ decodeCommand c = .cmdRegRead c) := by
  unfold decodeCommand
  split_ifs with chipReset navCtrl2 pixelGrab motion
  · exact .inl ⟨chipReset, rfl⟩
  · exact .inr (.inl ⟨navCtrl2, rfl⟩)
  · exact .inr (.inr (.inl ⟨pixelGrab, rfl⟩))
  · exact .inr (.inr (.inr (.inl ⟨motion, rfl⟩)))
  · exact .inr (.inr (.inr (.inr ⟨by simp [namedCommandByte, *], rfl⟩)))

theorem decodeCommand_of_unnamed {c : Byte} (h : namedCommandByte c = false) : decodeCommand c = .cmdRegRead c := by
  rcases decodeCommand_cases c with ⟨rfl, -⟩ | ⟨rfl, -⟩ | ⟨rfl, -⟩ | ⟨rfl, -⟩ | ⟨-, regRead⟩
  · cases h
  · cases h
  · cases h
  · cases h
  · exact regRead

theorem decodeCommand_isCommand (c : Byte) : Machine.isCommand (decodeCommand c) = true := by
  rcases decodeCommand_cases c with ⟨-, e⟩ | ⟨-, e⟩ | ⟨-, e⟩ | ⟨-, e⟩ | ⟨-, e⟩ <;> rw [e] <;> rfl

theorem encode_decodeCommand (c : Byte) : encode (decodeCommand c) = some (.command [c]) := by
  rcases decodeCommand_cases c with ⟨rfl, e⟩ | ⟨rfl, e⟩ | ⟨rfl, e⟩ | ⟨rfl, e⟩ | ⟨-, e⟩ <;> rw [e] <;> rfl

/-! ### The OA port (30_encoding R64 to R66) -/

/-- The codes 0x8 to 0xF are the ones with bit 3 set. -/
theorem decodeOa_reserved8F {op : BitVec 4} (h : 8 ≤ op.toNat) (opnd : BitVec 192) :
    decodeOa ⟨op, opnd⟩ = .reservedOa8F (op.extractLsb' 0 3) := by
  unfold decodeOa
  split
  case h_9 => rfl
  all_goals
    rename_i code
    dsimp only at code
    omega

theorem decodeOa_bit3_append (low : BitVec 3) (opnd : BitVec 192) :
    decodeOa ⟨1#1 ++ low, opnd⟩ = .reservedOa8F low := by
  have code : (1#1 ++ low).toNat = 8 + low.toNat := by
    rw [BitVec.toNat_append, ← Nat.shiftLeft_add_eq_or_of_lt low.isLt]
    rfl
  rw [decodeOa_reserved8F (by omega), BitVec.extractLsb'_append_eq_right]

/-! The widths of the appended operands are numerals in `encode`, so the law on a field of an append is given at
the widths of each append. -/

theorem decodeOa_motionWord (b0 b1 b2 b3 b4 b5 b6 : Byte) :
    decodeOa ⟨0x0#4, 0#136 ++ (b6 ++ (b5 ++ (b4 ++ (b3 ++ (b2 ++ (b1 ++ b0))))))⟩ =
      .decodeMotion b0 b1 b2 b3 b4 b5 b6 := by
  have field {v w start : Nat} (hi : BitVec v) (lo : BitVec w) := @BitVec.extractLsb'_append_eq_ite v w hi lo start 8
  simp [decodeOa, opndByte, @field 136 56, @field 8 48, @field 8 40, @field 8 32, @field 8 24, @field 8 16,
    @field 8 8]

theorem decodeOa_pairWord (p0 p1 : Byte) :
    decodeOa ⟨0x1#4, 0#176 ++ (p1 ++ p0)⟩ = .storePixelPair p0 p1 := by
  simp [decodeOa, opndByte, @BitVec.extractLsb'_append_eq_ite 176 16, @BitVec.extractLsb'_append_eq_ite 8 8]

theorem decodeOa_calWord (c0 c1 circ : F64) :
    decodeOa ⟨0x4#4, circ ++ (c1 ++ c0)⟩ = .setCal c0 c1 circ := by
  simp [decodeOa, opndF64, @BitVec.extractLsb'_append_eq_ite 64 128, @BitVec.extractLsb'_append_eq_ite 64 64]

/-- An operand of one bit stands at bit 0. -/
theorem bitOperand_getLsbD (b : Bool) : (0#191 ++ BitVec.ofBool b : BitVec 192).getLsbD 0 = b := by
  rw [@BitVec.getLsbD_append 191 1, if_pos Nat.one_pos, BitVec.getLsbD_ofBool, decide_eq_true rfl, Bool.true_and]

theorem modeOfBit_bitOfMode (m : Mode) : modeOfBit (bitOfMode m) = m := by cases m <;> rfl

theorem decodeOa_modeWord (m : Mode) :
    decodeOa ⟨0x3#4, 0#191 ++ BitVec.ofBool (bitOfMode m)⟩ = .setMode m :=
  congrArg Instr.setMode ((congrArg modeOfBit (bitOperand_getLsbD _)).trans (modeOfBit_bitOfMode m))

theorem decodeOa_btnWord (b : Bool) : decodeOa ⟨0x6#4, 0#191 ++ BitVec.ofBool b⟩ = .setBtn b :=
  congrArg Instr.setBtn (bitOperand_getLsbD b)

theorem decode_encode {i : Instr} {p : PortWord} (hwf : i.wf = true) (h : encode i = some p) :
    decode p = .ok i := by
  cases i with
  | cmdChipReset | cmdNavCtrl2 | cmdPixelGrab | cmdMotion => cases h; rfl
  | cmdRegRead c =>
    have unnamed : namedCommandByte c = false := by simpa [Instr.wf] using hwf
    cases h
    exact congrArg Except.ok (decodeCommand_of_unnamed unnamed)
  | decodeMotion b0 b1 b2 b3 b4 b5 b6 => cases h; exact congrArg Except.ok (decodeOa_motionWord b0 b1 b2 b3 b4 b5 b6)
  | storePixelPair p0 p1 => cases h; exact congrArg Except.ok (decodeOa_pairWord p0 p1)
  | setMode m => cases h; exact congrArg Except.ok (decodeOa_modeWord m)
  | setCal c0 c1 circ => cases h; exact congrArg Except.ok (decodeOa_calWord c0 c1 circ)
  | setBtn b => cases h; exact congrArg Except.ok (decodeOa_btnWord b)
  | reservedOa8F low => cases h; exact congrArg Except.ok (decodeOa_bit3_append low _)
  | tick | sessionReset | reservedOa7 => cases h; rfl
  | send _ | read | emit _ | hostWrite _ | hostRead _ | hostStatus => cases h

end Sys2Proof

open Sys2Proof in
/-- Settles O9: each port's decoder gives back the row and the operands that `encode` wrote. -/
theorem decodeOfEncodeIsIdentity : Obligations.DecodeOfEncodeIsIdentity := by
  unfold Obligations.DecodeOfEncodeIsIdentity
  exact fun _ _ => decode_encode

open Sys2Proof in
/-- Settles O6: the four named bytes, and the register read of any other. -/
theorem everyCommandByteSelectsItsRoutine : Obligations.EveryCommandByteSelectsItsRoutine := by
  unfold Obligations.EveryCommandByteSelectsItsRoutine
  refine ⟨rfl, rfl, rfl, rfl, ?unnamed, decodeCommand_isCommand⟩
  intro c chipReset navCtrl2 pixelGrab motion
  have unnamed : namedCommandByte c = false := by simp [namedCommandByte, *]
  exact congrArg Except.ok (decodeCommand_of_unnamed unnamed)

open Sys2Proof in
/-- Settles O7: each code below 8 has its row in `decodeOa`; the codes with bit 3 set share the last one. -/
theorem operationCodesSelectOperations : Obligations.OperationCodesSelectOperations := by
  unfold Obligations.OperationCodesSelectOperations
  intro opnd
  refine ⟨?motion, ?pair, ?tick, ?mode, ?cal, ?sessionReset, ?btn, ?reserved7, ?reserved8F⟩
  case reserved8F => exact fun low => congrArg Except.ok (decodeOa_bit3_append low opnd)
  all_goals rfl

open Sys2Proof in
/-- Settles O8: the words of the vectors, each decoded. -/
theorem sampleWordsDecode : Obligations.SampleWordsDecode := by
  unfold Obligations.SampleWordsDecode
  refine ⟨?s2, ?v31, ?cal, ?mode, ?navCtrl2⟩
  all_goals decide

open Sys2Proof Sys2Proof.Machine in
/-- Settles O10: of the five rows a byte can select, each encodes to the byte that selected it. -/
theorem commandBytesReencode : Obligations.CommandBytesReencode := by
  unfold Obligations.CommandBytesReencode
  exact fun c => ⟨decodeCommand_wf c, encode_decodeCommand c⟩
end

section
/-! SUPPORT. The turns of the host: the operation each issues, the query it notes, and the step they make (O12). -/
namespace Sys2Proof.Machine

/-! ### The turn at the head of the agenda -/

theorem fetch_of_agenda_cons {s : State} {t : Turn} {rest : List Turn} (h : s.env.agenda = t :: rest) :
    fetch s = turnOf t s := by
  simp [fetch, h]

theorem dropTurn_of_agenda {s : State} {t : Turn} {rest : List Turn} (h : s.env.agenda = t :: rest) :
    dropTurn s = { s with env := { s.env with agenda := rest } } := by
  rw [dropTurn, h, List.tail_cons]

theorem noteQuery_dropTurn {s : State} {t : Turn} {rest : List Turn} (h : s.env.agenda = t :: rest) (q : Query) :
    noteQuery q (dropTurn s) = { s with env := { s.env with agenda := rest, query := q } } := by
  rw [dropTurn_of_agenda h]
  rfl

section
variable {s : State} {t : Turn} {rest : List Turn} {i : Instr} {q : Query} (h : s.env.agenda = t :: rest)
include h

/-- A turn that issues an operation and no more. -/
theorem step_of_issued (e : turnOf t s = .run i (dropTurn s)) :
    step s = exec i { s with env := { s.env with agenda := rest } } := by
  rw [step_of_run ((fetch_of_agenda_cons h).trans e), dropTurn_of_agenda h]

/-- A turn that issues nothing. -/
theorem step_of_passed (e : turnOf t s = .quiet (dropTurn s)) :
    step s = .next { s with env := { s.env with agenda := rest } } := by
  rw [step_of_quiet ((fetch_of_agenda_cons h).trans e), dropTurn_of_agenda h]

/-- A turn that issues an operation of the query. -/
theorem step_of_issued_noted (e : turnOf t s = .run i (noteQuery q (dropTurn s))) :
    step s = exec i { s with env := { s.env with agenda := rest, query := q } } := by
  rw [step_of_run ((fetch_of_agenda_cons h).trans e), noteQuery_dropTurn h]

/-- A turn that issues nothing and notes where the query stands. -/
theorem step_of_passed_noted (e : turnOf t s = .quiet (noteQuery q (dropTurn s))) :
    step s = .next { s with env := { s.env with agenda := rest, query := q } } := by
  rw [step_of_quiet ((fetch_of_agenda_cons h).trans e), noteQuery_dropTurn h]

end

/-! ### The query's turns (42_transport R97, R98, R101) -/

theorem queryIsRunning_iff (q : Query) : queryIsRunning q = true ↔ ∃ left got, q = .running left got := by
  cases q <;> simp [queryIsRunning]

theorem queryIsRunning_eq_false_iff (q : Query) : queryIsRunning q = false ↔ ∀ left got, q ≠ .running left got := by
  simp [← Bool.not_eq_true, queryIsRunning_iff]

theorem mayQuery_eq_false {s : State} (h : s.tp.rspValid = true ∨ ∃ left got, s.env.query = .running left got) :
    mayQuery s = false := by
  rcases h with unread | running
  · simp [mayQuery, unread]
  · simp [mayQuery, (queryIsRunning_iff _).mpr running]

theorem mayQuery_eq_true {s : State} (unread : s.tp.rspValid = false)
    (ended : ∀ left got, s.env.query ≠ .running left got) : mayQuery s = true := by
  simp [mayQuery, unread, (queryIsRunning_eq_false_iff _).mpr ended]

theorem queryStart_refused {c : Byte} {s : State} (h : mayQuery s = false) :
    turnOf (.queryStart c) s = .quiet (noteQuery .notBegun (dropTurn s)) := by
  simp [turnOf, queryStartTurn, h]

theorem queryStart_full {c : Byte} {s : State} (h : mayQuery s = true) (full : s.tp.cmdFull = true) :
    turnOf (.queryStart c) s = .run (.hostWrite [c]) (noteQuery .transportFault (dropTurn s)) := by
  simp [turnOf, queryStartTurn, h, full]

theorem queryStart_free {c : Byte} {s : State} (h : mayQuery s = true) (free : s.tp.cmdFull = false) :
    turnOf (.queryStart c) s =
      .run (.hostWrite [c]) (noteQuery (queryWaits (responseShape c).1 []) (dropTurn s)) := by
  simp [turnOf, queryStartTurn, h, free]

/-- Every byte but the two writes and the pixel grab is answered with one packet. -/
theorem responseShape_one {c : Byte} (chipReset : c ≠ 0xBA#8) (navCtrl2 : c ≠ 0xA2#8) (pixelGrab : c ≠ 0x0B#8) :
    (responseShape c).1 = 1 := by
  rcases decodeCommand_cases c with ⟨e, -⟩ | ⟨e, -⟩ | ⟨e, -⟩ | ⟨-, motion⟩ | ⟨-, regRead⟩
  · exact absurd e chipReset
  · exact absurd e navCtrl2
  · exact absurd e pixelGrab
  · rw [responseShape, motion]
  · rw [responseShape, regRead]

theorem queryWaits_of_le_one {left : Nat} (h : left ≤ 1) (got : List Byte) :
    queryWaits (left - 1) got = .returned got := by
  rw [queryWaits, if_pos (by omega)]

theorem queryWaits_of_one_lt {left : Nat} (h : 1 < left) (got : List Byte) :
    queryWaits (left - 1) got = .running (left - 1) got := by
  rw [queryWaits, if_neg (by omega)]

section
variable {n left : Nat} {got : List Byte} {s : State} (running : s.env.query = .running left got)
  (unread : s.tp.rspValid = true)
include running unread

theorem queryRead_tooLong (long : n < s.tp.rspLen) :
    turnOf (.queryRead n) s = .run (.hostRead n) (noteQuery .transportFault (dropTurn s)) := by
  simp [turnOf, queryReadTurn, running, unread, long]

theorem queryRead_whole (fits : s.tp.rspLen ≤ n) :
    turnOf (.queryRead n) s =
      .run (.hostRead n) (noteQuery (queryWaits (left - 1) (got ++ packetBytes s.tp)) (dropTurn s)) := by
  simp [turnOf, queryReadTurn, running, unread, Nat.not_lt.mpr fits]

end

theorem queryRead_ended {n : Nat} {s : State} (h : ∀ left got, s.env.query ≠ .running left got) :
    turnOf (.queryRead n) s = .quiet (dropTurn s) := by
  cases query : s.env.query with
  | running left got => exact absurd query (h left got)
  | none | returned _ | transportFault | timedOut | notBegun => simp [turnOf, queryReadTurn, query]

theorem queryTimeout_running {s : State} (h : ∃ left got, s.env.query = .running left got) :
    turnOf .queryTimeout s = .quiet (noteQuery .timedOut (dropTurn s)) := by
  simp [turnOf, queryTimeoutTurn, (queryIsRunning_iff _).mpr h]

theorem queryTimeout_ended {s : State} (h : ∀ left got, s.env.query ≠ .running left got) :
    turnOf .queryTimeout s = .quiet (dropTurn s) := by
  simp [turnOf, queryTimeoutTurn, (queryIsRunning_eq_false_iff _).mpr h]

/-! ### What the host passes on (42_transport R102, 30_encoding R70) -/

theorem motionOf_eq_none {q : Query} (h : ∀ bytes, q = .returned bytes → bytes.length ≠ 7) : motionOf q = none := by
  unfold motionOf
  split
  · exact absurd rfl (h _ rfl)
  · rfl

theorem pairOf_returned {k : Nat} {bytes : List Byte} {p0 p1 : Byte} (h0 : bytes[2 * k]? = some p0)
    (h1 : bytes[2 * k + 1]? = some p1) : pairOf k (.returned bytes) = some (.storePixelPair p0 p1) := by
  simp only [pairOf, h0, h1]

theorem pairOf_eq_none {k : Nat} {q : Query} (h : ∀ bytes, q = .returned bytes → bytes.length ≤ 2 * k + 1) :
    pairOf k q = none := by
  unfold pairOf
  split
  · rename_i bytes
    have second : bytes[2 * k + 1]? = none := List.getElem?_eq_none (h bytes rfl)
    simp [second]
  · rfl

theorem oaDecodeReply_otherLength {s : State} (h : ∀ bytes, s.env.reply = .bytes bytes → bytes.length ≠ 7) :
    turnOf .oaDecodeReply s = .quiet (dropTurn s) := by
  simp only [turnOf]
  split
  · rename_i reply
    exact absurd rfl (h _ reply)
  · rfl

theorem oaStoreReply_otherLength {s : State} (h : ∀ bytes, s.env.reply = .bytes bytes → bytes.length ≠ 2) :
    turnOf .oaStoreReply s = .quiet (dropTurn s) := by
  simp only [turnOf]
  split
  · rename_i reply
    exact absurd rfl (h _ reply)
  · rfl

end Sys2Proof.Machine

open Sys2Proof Sys2Proof.Machine in
/-- Settles O12: turn by turn, what the turn issues and the query it notes. -/
theorem stepRunsTheIssuedOperation : Obligations.StepRunsTheIssuedOperation := by
  unfold Obligations.StepRunsTheIssuedOperation
  intro s rest
  refine ⟨?oa, ?hostWrite, ?hostRead, ?hostStatus, ?queryStart, ?queryRead, ?queryReadEnded, ?queryTimeout,
    ?oaDecodeQuery, ?oaStoreQuery, ?awaitWrite, ?awaitRead, ?oaDecodeReply, ?oaStoreReply⟩
  case oa =>
    intro w i h decoded
    cases decoded
    exact step_of_issued h rfl
  case hostWrite => exact fun _ h => step_of_issued h rfl
  case hostRead => exact fun _ h => step_of_issued h rfl
  case hostStatus => exact fun h => step_of_issued h rfl
  case queryStart =>
    intro c h
    refine ⟨fun refused => step_of_passed_noted h (queryStart_refused (mayQuery_eq_false refused)), ?_⟩
    intro unread ended
    have may := mayQuery_eq_true unread ended
    refine ⟨?full, ?write, ?grab, ?one⟩
    case full => exact fun full => step_of_issued_noted h (queryStart_full may full)
    case write =>
      rintro free (rfl | rfl)
      · exact step_of_issued_noted h (queryStart_free may free)
      · exact step_of_issued_noted h (queryStart_free may free)
    case grab =>
      rintro free rfl
      exact step_of_issued_noted h (queryStart_free may free)
    case one =>
      intro free chipReset navCtrl2 pixelGrab
      have start := queryStart_free (c := c) may free
      rw [responseShape_one chipReset navCtrl2 pixelGrab] at start
      exact step_of_issued_noted h start
  case queryRead =>
    intro n left got h running unread
    refine ⟨fun long => step_of_issued_noted h (queryRead_tooLong running unread long), ?_, ?_⟩
    · intro fits last
      have read := queryRead_whole running unread fits
      rw [queryWaits_of_le_one last] at read
      exact step_of_issued_noted h read
    · intro fits more
      have read := queryRead_whole running unread fits
      rw [queryWaits_of_one_lt more] at read
      exact step_of_issued_noted h read
  case queryReadEnded => exact fun n h ended => step_of_passed h (queryRead_ended ended)
  case queryTimeout =>
    exact fun h => ⟨fun running => step_of_passed_noted h (queryTimeout_running running),
      fun ended => step_of_passed h (queryTimeout_ended ended)⟩
  case oaDecodeQuery =>
    refine fun h => ⟨fun b0 b1 b2 b3 b4 b5 b6 returned => ?_, fun other => ?_⟩
    · exact step_of_issued h (by rw [turnOf, returned]; rfl)
    · exact step_of_passed h (by rw [turnOf, motionOf_eq_none other]; rfl)
  case oaStoreQuery =>
    refine fun k h => ⟨fun bytes p0 p1 returned h0 h1 => ?_, fun tooFew => ?_⟩
    · exact step_of_issued h (by rw [turnOf, returned, pairOf_returned h0 h1]; rfl)
    · exact step_of_passed h (by rw [turnOf, pairOf_eq_none tooFew]; rfl)
  case awaitWrite => exact fun bs h free => step_of_issued h (by simp [turnOf, free])
  case awaitRead => exact fun n h unread => step_of_issued h (by simp [turnOf, unread])
  case oaDecodeReply =>
    refine fun h => ⟨fun b0 b1 b2 b3 b4 b5 b6 reply => ?_, fun other => ?_⟩
    · exact step_of_issued h (by simp only [turnOf, reply])
    · exact step_of_passed h (oaDecodeReply_otherLength other)
  case oaStoreReply =>
    refine fun h => ⟨fun p0 p1 reply => ?_, fun other => ?_⟩
    · exact step_of_issued h (by simp only [turnOf, reply])
    · exact step_of_passed h (oaStoreReply_otherLength other)
end

section
/-! SUPPORT. The micro-phases of SEND and READ one by one (40_shift_engine R73, R76; O13, O14). -/
namespace Sys2Proof.Machine

theorem exec_send (v : Byte) (s : State) : exec (.send v) s = .next (sendPhase v s) := rfl

theorem exec_read (s : State) : exec .read s = .next (readPhase s) := rfl

/-! ### The state after each micro-phase -/

section
variable {start : ShiftEngine → ShiftEngine} {s : State}

theorem microPhase_idle (h : s.se.phase = .idle) : microPhase start s = { s with se := start s.se } := by
  simp only [microPhase, h]

theorem microPhase_txL (h : s.se.phase = .txL) :
    microPhase start s = { s with se := { s.se with sclk := false, mosi := false, phase := .txA } } := by
  simp only [microPhase, h, phaseTxL]

theorem microPhase_txA (h : s.se.phase = .txA) :
    microPhase start s = { s with se :=
      { s.se with mosi := s.se.txSr.getLsbD s.se.bitCnt.val, phase := .txH } } := by
  simp only [microPhase, h, phaseTxA]

theorem microPhase_txH_last (h : s.se.phase = .txH) (hb : s.se.bitCnt = 0) :
    microPhase start s = { s with se :=
      { s.se with sclk := true, setCnt := s.params.tSettle, phase := .settle } } := by
  simp [microPhase, h, phaseTxH, hb]

theorem microPhase_txH_next (h : s.se.phase = .txH) (hb : s.se.bitCnt ≠ 0) :
    microPhase start s = { s with se :=
      { s.se with sclk := true, bitCnt := s.se.bitCnt - 1, phase := .txL } } := by
  simp [microPhase, h, phaseTxH, hb]

theorem microPhase_settle_last (h : s.se.phase = .settle) (hc : s.se.setCnt - 1 = 0) :
    microPhase start s = { s with se := { s.se with setCnt := s.se.setCnt - 1, phase := .idle } } := by
  simp only [microPhase, h, phaseSettle, if_pos hc]

theorem microPhase_settle_next (h : s.se.phase = .settle) (hc : s.se.setCnt - 1 ≠ 0) :
    microPhase start s = { s with se := { s.se with setCnt := s.se.setCnt - 1 } } := by
  simp only [microPhase, h, phaseSettle, if_neg hc]

theorem microPhase_rxL (h : s.se.phase = .rxL) :
    microPhase start s = { s with se := { s.se with sclk := false, phase := .rxH } } := by
  simp only [microPhase, h, phaseRxL]

theorem microPhase_rxH (h : s.se.phase = .rxH) :
    microPhase start s = { s with se := { s.se with sclk := true, phase := .rxP } } := by
  simp only [microPhase, h, phaseRxH]

theorem microPhase_rxP_last (h : s.se.phase = .rxP) (hb : s.se.bitCnt = 0) :
    microPhase start s = { s with
      se := { s.se with rx0 := shiftIn s.se.rx0 (misoNow s.env).1, rx1 := shiftIn s.se.rx1 (misoNow s.env).2,
                        phase := .idle },
      env := misoTaken s.env } := by
  simp [microPhase, h, phaseRxP, hb]

theorem microPhase_rxP_next (h : s.se.phase = .rxP) (hb : s.se.bitCnt ≠ 0) :
    microPhase start s = { s with
      se := { s.se with rx0 := shiftIn s.se.rx0 (misoNow s.env).1, rx1 := shiftIn s.se.rx1 (misoNow s.env).2,
                        bitCnt := s.se.bitCnt - 1, phase := .rxL },
      env := misoTaken s.env } := by
  simp [microPhase, h, phaseRxP, hb]

end

end Sys2Proof.Machine

open Sys2Proof.Machine in
/-- Settles O13: SEND performs the micro-phase that the engine is at. -/
theorem sendGoesThroughItsPhases : Obligations.SendGoesThroughItsPhases := by
  unfold Obligations.SendGoesThroughItsPhases
  intro v s
  simp only [exec_send, sendPhase, Host.Outcome.next.injEq]
  exact ⟨microPhase_idle, microPhase_txL, microPhase_txA, microPhase_txH_last, microPhase_txH_next,
    microPhase_settle_last, microPhase_settle_next⟩

open Sys2Proof.Machine in
/-- Settles O14: READ performs the micro-phase that the engine is at. -/
theorem readGoesThroughItsPhases : Obligations.ReadGoesThroughItsPhases := by
  unfold Obligations.ReadGoesThroughItsPhases
  intro s
  simp only [exec_read, readPhase, Host.Outcome.next.injEq]
  exact ⟨microPhase_idle, microPhase_rxL, microPhase_rxH, microPhase_rxP_last, microPhase_rxP_next⟩
end

section
/-! SUPPORT. When the clock can rise (40_shift_engine R72; O17). -/
namespace Sys2Proof.Machine

/-- A low clock that one micro-phase raises was in `TX_H` or `RX_H`. -/
theorem microPhase_rises {start : ShiftEngine → ShiftEngine} {s : State} (hstart : (start s.se).sclk = false)
    (low : s.se.sclk = false) (high : (microPhase start s).se.sclk = true) :
    s.se.phase = .txH ∨ s.se.phase = .rxH := by
  have stays_low (h : (microPhase start s).se.sclk = false) : s.se.phase = .txH ∨ s.se.phase = .rxH := by
    simp [h] at high
  cases hp : s.se.phase with
  | txH => exact .inl rfl
  | rxH => exact .inr rfl
  | idle => simp [microPhase_idle hp, hstart] at high
  | txL => simp [microPhase_txL hp] at high
  | txA => simp [microPhase_txA hp, low] at high
  | settle => simp [microPhase, hp, phaseSettle, low] at high
  | rxL => simp [microPhase_rxL hp] at high
  | rxP =>
    obtain ⟨same, -⟩ := phaseRxP_cases (misoNow s.env) s.se
    simp [microPhase, hp, same, low] at high

theorem EngineMoves.rises {s t : State} (h : EngineMoves s t) (low : s.se.sclk = false)
    (high : t.se.sclk = true) : s.se.phase = .txH ∨ s.se.phase = .rxH := by
  rcases h with e | ⟨v, e⟩ | e <;> rw [e] at high
  · simp [low] at high
  · exact microPhase_rises rfl low high
  · exact microPhase_rises rfl low high

/-- What a step can do to the Shift Engine: one of its moves from the same engine, or a power-on reset. -/
theorem step_engine {s t : State} (h : step s = .next t) :
    (∃ u, u.se = s.se ∧ EngineMoves u t) ∨
    (t.se = (State.powerOn s.params).se ∧ ∃ rest, s.env.agenda = .powerOn :: rest) := by
  rcases step_cases h with ⟨i, u, he, -, hu⟩ | hu | rfl | ⟨rfl, hr⟩
  · obtain ⟨same, -⟩ := hu.block
    exact .inl ⟨u, same, exec_engine he⟩
  · obtain ⟨same, -⟩ := hu.block
    exact .inl ⟨s, rfl, .inl same⟩
  · exact .inl ⟨s, rfl, .inl rfl⟩
  · exact .inr ⟨rfl, hr⟩

theorem step_clockOk {s t : State} (hs : ClockOk s) (h : step s = .next t) : ClockOk t := by
  rcases step_engine h with ⟨u, hu, move⟩ | ⟨e, -⟩
  · exact move.clockOk (by rwa [ClockOk, hu])
  · rw [ClockOk, e]; rfl

theorem ClockOk.high_between_bytes {s : State} (h : ClockOk s) (hp : s.se.phase = .idle ∨ s.se.phase = .settle) :
    s.se.sclk = true := by
  rw [h]
  rcases hp with hp | hp <;> rw [hp] <;> rfl

end Sys2Proof.Machine

open Sys2Proof.Machine in
/-- Settles O17: every step moves the engine by one micro-phase at most, or is a power-on reset. -/
theorem clockRisesOnlyInsideAByte : Obligations.ClockRisesOnlyInsideAByte := by
  unfold Obligations.ClockRisesOnlyInsideAByte
  intro s t hs h
  have ht := step_clockOk hs h
  refine ⟨ht, ht.high_between_bytes, fun low high => ?_⟩
  rcases step_engine h with ⟨u, hu, move⟩ | ⟨-, reset⟩
  · rw [← hu] at low ⊢
    exact (move.rises low high).imp_right .inl
  · exact .inr (.inr reset)
end

section
/-! SUPPORT. A SEND and a READ from start to end: the bits one by one, the events of R80 beside them
(40_shift_engine R74, R75, R78, R79; O15, O16). -/
namespace Sys2Proof.Machine

/-! ### A primitive runs to its end -/

/-- From s the micro-phases `move` of a line of kind k run to their end: they make the events es, one each,
and t is the first state in which the engine is idle again. -/
inductive RunsToEnd (k : LineKind) (move : State → State) : State → List BusEvent → State → Prop
  | last {s t : State} {e : BusEvent} (event : phaseEvent k s = some e) (next : move s = t)
      (idle : t.se.phase = .idle) : RunsToEnd k move s [e] t
  | more {s u t : State} {e : BusEvent} {es : List BusEvent} (event : phaseEvent k s = some e)
      (next : move s = u) (busy : u.se.phase ≠ .idle) (rest : RunsToEnd k move u es t) :
      RunsToEnd k move s (e :: es) t

section
variable {k : LineKind} {move : State → State} {s t : State} {es : List BusEvent}

/-- There is one micro-phase for each event. -/
theorem RunsToEnd.iterate (h : RunsToEnd k move s es t) : move^[es.length] s = t := by
  induction h with
  | last _ next _ => exact next
  | more _ next _ _ ih => rw [List.length_cons, Function.iterate_succ_apply, next, ih]

/-- The engine is busy until the last micro-phase. -/
theorem RunsToEnd.busy_before_end (h : RunsToEnd k move s es t) {n : Nat} (pos : 0 < n) (lt : n < es.length) :
    (move^[n] s).se.phase ≠ .idle := by
  induction h generalizing n with
  | last _ _ _ => rw [List.length_singleton] at lt; omega
  | more _ next busy _ ih =>
    obtain ⟨n, rfl⟩ : ∃ m, n = m + 1 := ⟨n - 1, by omega⟩
    rw [Function.iterate_succ_apply, next]
    cases n with
    | zero => exact busy
    | succ n => exact ih n.succ_pos (Nat.lt_of_succ_lt_succ lt)

/-- A run to the end goes by its first micro-phase alone. -/
theorem RunsToEnd.of_first_eq {s' : State} (h : RunsToEnd k move s' es t) (same : move s = move s')
    (event : phaseEvent k s = phaseEvent k s') : RunsToEnd k move s es t := by
  cases h with
  | last event' next idle => exact .last (event.trans event') (same.trans next) idle
  | more event' next busy rest => exact .more (event.trans event') (same.trans next) busy rest

end

theorem RunsToEnd.sendTrace_eq {v : Byte} {s t : State} {es : List BusEvent}
    (h : RunsToEnd .send (sendPhase v) s es t) : sendTrace v es.length s = es := by
  induction h with
  | last event _ _ => simp [sendTrace, event]
  | more event next _ _ ih => simp [sendTrace, event, next, ih]

theorem RunsToEnd.readTrace_eq {s t : State} {es : List BusEvent}
    (h : RunsToEnd .read readPhase s es t) : readTrace es.length s = es := by
  induction h with
  | last event _ _ => simp [readTrace, event]
  | more event next _ _ ih => simp [readTrace, event, next, ih]

/-! ### The bit count -/

theorem bitCnt_ne_zero {i : Fin 8} {b : Nat} (h : i.val = b + 1) : i ≠ 0 := by
  rintro rfl
  cases h

theorem bitCnt_pred {i : Fin 8} {b : Nat} (h : i.val = b + 1) : (i - 1).val = b := by
  rw [Fin.val_sub_one_of_ne_zero (bitCnt_ne_zero h), h, Nat.add_sub_cancel]

/-! ### SEND -/

/-- The n lowest bits of v, highest first. -/
def lowBits (v : Byte) : Nat → List Bool
  | 0 => []
  | n + 1 => v.getLsbD n :: lowBits v n

theorem wireBits_eq_lowBits (v : Byte) : wireBits v = lowBits v 8 := rfl

/-- The events of the given bits on MOSI and of p settle steps. -/
def bitEvents (bits : List Bool) (p : Nat) : List BusEvent :=
  bits.flatMap (fun b => [.fall, .drive b, .rise]) ++ List.replicate p .settle

theorem sendEvents_eq (v : Byte) (p : Nat) : sendEvents v p = bitEvents (wireBits v) p := rfl

theorem bitEvents_cons (b : Bool) (bits : List Bool) (p : Nat) :
    bitEvents (b :: bits) p = .fall :: .drive b :: .rise :: bitEvents bits p := rfl

theorem bitEvents_length (bits : List Bool) (p : Nat) : (bitEvents bits p).length = 3 * bits.length + p := by
  induction bits with
  | nil => simp [bitEvents]
  | cons b bits ih => simp only [bitEvents_cons, List.length_cons, ih]; omega

/-- Three micro-phases for each of the eight bits, and the settle steps (R75). -/
theorem sendEvents_length (v : Byte) (p : Nat) : (sendEvents v p).length = 24 + p :=
  bitEvents_length (wireBits v) p

theorem settle_runsToEnd (v : Byte) (p : Nat) {s : State} (hp : s.se.phase = .settle) (hc : s.se.setCnt = p + 1) :
    RunsToEnd .send (sendPhase v) s (List.replicate (p + 1) .settle)
      { s with se := { s.se with setCnt := 0, phase := .idle } } := by
  have event : phaseEvent .send s = some .settle := by rw [phaseEvent, hp]
  induction p generalizing s with
  | zero =>
    refine .last event ?_ rfl
    rw [sendPhase, microPhase_settle_last hp (by omega), hc]
  | succ p ih =>
    have next : sendPhase v s = _ := microPhase_settle_next hp (by omega)
    refine .more event next (by simp [hp]) (ih hp ?_ ?_)
    · simp [hc]
    · simp [phaseEvent, hp]

/-- From the `TX_L` of bit b a SEND shows the bits b to 0 and then settles. -/
theorem bits_runToEnd (v : Byte) (b : Nat) {s : State} (hset : 1 ≤ s.params.tSettle) (hp : s.se.phase = .txL)
    (hb : s.se.bitCnt.val = b) :
    RunsToEnd .send (sendPhase v) s (bitEvents (lowBits s.se.txSr (b + 1)) s.params.tSettle)
      { s with se := { s.se with sclk := true, mosi := s.se.txSr.getLsbD 0, bitCnt := 0, setCnt := 0,
                                 phase := .idle } } := by
  induction b generalizing s with
  | zero =>
    obtain ⟨p, hset⟩ := Nat.exists_eq_add_of_le' hset
    have zero : s.se.bitCnt = 0 := Fin.ext hb
    refine .more (by rw [phaseEvent, hp]) (microPhase_txL hp) (by simp) ?_
    refine .more (by simp [phaseEvent, hb]) (microPhase_txA rfl) (by simp) ?_
    refine .more rfl (microPhase_txH_last rfl zero) (by simp) ?_
    rw [hset, show s.se.txSr.getLsbD 0 = s.se.txSr.getLsbD s.se.bitCnt.val by rw [hb], ← zero]
    exact settle_runsToEnd v p rfl rfl
  | succ b ih =>
    refine .more (by rw [phaseEvent, hp]) (microPhase_txL hp) (by simp) ?_
    refine .more (by simp [phaseEvent, hb]) (microPhase_txA rfl) (by simp) ?_
    refine .more rfl (microPhase_txH_next rfl (bitCnt_ne_zero hb)) (by simp) ?_
    exact ih hset rfl (bitCnt_pred hb)

/-- A SEND's start is part of its first `TX_L`, that of bit 7 (R73). -/
theorem send_runsToEnd (v : Byte) {s : State} (hset : 1 ≤ s.params.tSettle) (hp : s.se.phase = .idle) :
    RunsToEnd .send (sendPhase v) s (sendEvents v s.params.tSettle)
      { s with se := { s.se with sclk := true, mosi := v.getLsbD 0, txSr := v, bitCnt := 0, setCnt := 0 } } := by
  have bits := bits_runToEnd v 7 (s := { s with se := { s.se with txSr := v, bitCnt := 7, phase := .txL } })
    hset rfl rfl
  rw [← hp] at bits
  rw [sendEvents_eq, wireBits_eq_lowBits]
  refine bits.of_first_eq ?_ ?_
  · rw [sendPhase, microPhase_idle hp, sendPhase, microPhase_txL rfl]; rfl
  · simp [phaseEvent, hp]

theorem risingLevels_settle (m : Bool) (p : Nat) : risingLevels m (List.replicate p .settle) = [] := by
  induction p with
  | zero => rfl
  | succ p ih => rw [List.replicate_succ, risingLevels, ih]

/-- What a sensor sees at the rising edges are the bits, whatever MOSI was (R74). -/
theorem risingLevels_bitEvents (m : Bool) (bits : List Bool) (p : Nat) : risingLevels m (bitEvents bits p) = bits := by
  induction bits generalizing m with
  | nil => exact risingLevels_settle m p
  | cons b bits ih => simp only [bitEvents_cons, risingLevels, ih]

/-! ### READ -/

theorem upcomingMiso_length (n : Nat) (e : Env) : (upcomingMiso n e).length = n := by
  induction n generalizing e with
  | zero => rfl
  | succ n ih => rw [upcomingMiso, List.length_cons, ih]

theorem readEvents_length (ms : List (Bool × Bool)) : (readEvents ms).length = 3 * ms.length := by
  simp [readEvents, Nat.mul_comm]

/-- From the `RX_L` of bit b a READ shifts in the next b + 1 samples of both lines. -/
theorem samples_runToEnd (b : Nat) {s : State} (hp : s.se.phase = .rxL) (hb : s.se.bitCnt.val = b) :
    RunsToEnd .read readPhase s (readEvents (upcomingMiso (b + 1) s.env))
      { s with
        se := { s.se with sclk := true, bitCnt := 0, phase := .idle,
                          rx0 := ((upcomingMiso (b + 1) s.env).map Prod.fst).foldl shiftIn s.se.rx0,
                          rx1 := ((upcomingMiso (b + 1) s.env).map Prod.snd).foldl shiftIn s.se.rx1 }
        env := afterMiso (b + 1) s.env } := by
  induction b generalizing s with
  | zero =>
    have zero : s.se.bitCnt = 0 := Fin.ext hb
    refine .more (by rw [phaseEvent, hp]) (microPhase_rxL hp) (by simp) ?_
    refine .more rfl (microPhase_rxH rfl) (by simp) ?_
    refine .last rfl ?_ rfl
    rw [← zero]
    exact microPhase_rxP_last rfl zero
  | succ b ih =>
    refine .more (by rw [phaseEvent, hp]) (microPhase_rxL hp) (by simp) ?_
    refine .more rfl (microPhase_rxH rfl) (by simp) ?_
    refine .more rfl (microPhase_rxP_next rfl (bitCnt_ne_zero hb)) (by simp) ?_
    exact ih rfl (bitCnt_pred hb)

/-- A READ's start is part of its first `RX_L`, that of bit 7 (R76). -/
theorem read_runsToEnd {s : State} (hp : s.se.phase = .idle) :
    RunsToEnd .read readPhase s (readEvents (upcomingMiso 8 s.env))
      { s with
        se := { s.se with sclk := true, bitCnt := 0, rx0 := (upcomingPair s.env).1, rx1 := (upcomingPair s.env).2 }
        env := afterMiso 8 s.env } := by
  have samples := samples_runToEnd 7
    (s := { s with se := { s.se with rx0 := 0, rx1 := 0, bitCnt := 7, phase := .rxL } }) rfl rfl
  rw [← hp] at samples
  refine samples.of_first_eq ?_ ?_
  · rw [readPhase, microPhase_idle hp, readPhase, microPhase_rxL rfl]; rfl
  · simp [phaseEvent, hp]

/-- The bit shifted in is the lowest (R76). -/
theorem shiftIn_getLsbD_zero (r : Byte) (b : Bool) : (shiftIn r b).getLsbD 0 = b :=
  BitVec.getLsbD_append.trans (by simp)

/-- Shifting in moves every other bit up by one (R76). -/
theorem shiftIn_getLsbD_succ (r : Byte) (b : Bool) {k : Nat} (hk : k < 7) :
    (shiftIn r b).getLsbD (k + 1) = r.getLsbD k :=
  BitVec.getLsbD_append.trans (by simp [hk])

theorem lowBits_shiftIn (r : Byte) (b : Bool) {n : Nat} (hn : n ≤ 7) :
    lowBits (shiftIn r b) (n + 1) = lowBits r n ++ [b] := by
  induction n with
  | zero => simp only [lowBits, shiftIn_getLsbD_zero, List.nil_append]
  | succ n ih => rw [lowBits, shiftIn_getLsbD_succ r b hn, ih (by omega), lowBits, List.cons_append]

/-- Up to eight bits shifted in stand lowest in the byte, in the order they came. -/
theorem lowBits_foldl_shiftIn (r : Byte) (bits : List Bool) (h : bits.length ≤ 8) :
    lowBits (bits.foldl shiftIn r) bits.length = bits := by
  induction bits using List.reverseRecOn with
  | nil => rfl
  | append_singleton bits b ih =>
    rw [List.length_append, List.length_singleton] at h ⊢
    rw [List.foldl_append, List.foldl_cons, List.foldl_nil, lowBits_shiftIn _ b (by omega), ih (by omega)]

theorem wireBits_byteOfWire {bits : List Bool} (h : bits.length = 8) : wireBits (byteOfWire bits) = bits := by
  have low := lowBits_foldl_shiftIn 0 bits h.le
  rw [h] at low
  rwa [wireBits_eq_lowBits]

end Sys2Proof.Machine

open Sys2Proof.Machine in
/-- Settles O15: the run of a SEND to its end, counted by its events. -/
theorem sendClocksItsByteOutMsbFirst : Obligations.SendClocksItsByteOutMsbFirst := by
  unfold Obligations.SendClocksItsByteOutMsbFirst
  intro v s hp hset
  have run := send_runsToEnd v hset hp
  rw [← sendEvents_length v s.params.tSettle, run.sendTrace_eq]
  refine ⟨run.iterate, fun _ => run.busy_before_end, rfl, fun m => ?_⟩
  rw [sendEvents_eq, risingLevels_bitEvents]

open Sys2Proof.Machine in
/-- Settles O16: the run of a READ to its end, counted by its events. -/
theorem readReturnsTheSampledPair : Obligations.ReadReturnsTheSampledPair := by
  unfold Obligations.ReadReturnsTheSampledPair
  intro s hp
  have run := read_runsToEnd hp
  have count : (readEvents (upcomingMiso 8 s.env)).length = 24 := by
    rw [readEvents_length, upcomingMiso_length]
  rw [← count]
  exact ⟨run.iterate, fun _ => run.busy_before_end, run.readTrace_eq,
    wireBits_byteOfWire (by simp [upcomingMiso_length]), wireBits_byteOfWire (by simp [upcomingMiso_length])⟩
end

section
/-! SUPPORT. The turns of the CD/SE agent: whose turn it is, and what the agent's move is while IDLE and while BUSY
(41_dispatcher R82; O11, O18, O19, O20). -/
namespace Sys2Proof.Machine

/-! ### Whose turn it is -/

@[simp] theorem cdState_cd (s : State) : (cdState s).cd = s.cd := by
  unfold cdState
  split <;> rfl

@[simp] theorem cdState_tp (s : State) : (cdState s).tp = s.tp := by
  unfold cdState
  split <;> rfl

/-- With nothing on the agenda the agent moves, from the state itself. -/
theorem cdMoves_of_agenda_nil {s : State} (h : s.env.agenda = []) : cdMoves s = true ∧ cdState s = s := by
  simp [cdMoves, cdState, h]

/-- A `.cd` turn is the agent's and is used up. -/
theorem cdMoves_of_cd {s : State} {rest : List Turn} (h : s.env.agenda = .cd :: rest) :
    cdMoves s = true ∧ cdState s = { s with env := { s.env with agenda := rest } } := by
  rw [← dropTurn_of_agenda h]
  simp [cdMoves, cdState, h]

/-- While the host waits for a free command mailbox the agent moves and the wait stays. -/
theorem cdMoves_of_awaitWrite {s : State} {bytes : List Byte} {rest : List Turn}
    (h : s.env.agenda = .awaitWrite bytes :: rest) (full : s.tp.cmdFull = true) :
    cdMoves s = true ∧ cdState s = s := by
  simp [cdMoves, cdState, h, full]

/-- While the host waits for a packet the agent moves and the wait stays. -/
theorem cdMoves_of_awaitRead {s : State} {n : Nat} {rest : List Turn}
    (h : s.env.agenda = .awaitRead n :: rest) (unanswered : s.tp.rspValid = false) :
    cdMoves s = true ∧ cdState s = s := by
  simp [cdMoves, cdState, h, unanswered]

/-- While the host waits for a packet of its query the agent moves and the wait stays. -/
theorem cdMoves_of_queryRead {s : State} {n left : Nat} {got : List Byte} {rest : List Turn}
    (h : s.env.agenda = .queryRead n :: rest) (running : s.env.query = .running left got)
    (unanswered : s.tp.rspValid = false) : cdMoves s = true ∧ cdState s = s := by
  simp [cdMoves, cdState, h, running, queryIsRunning, unanswered]

/-! ### The agent's move -/

section
variable {s : State} (h : cdMoves s = true)
include h

theorem step_of_cdMoves_waiting (idle : s.cd.status = .idle) (full : s.tp.cmdFull = true) :
    step s = exec (decodeCommand s.tp.cmdByte) (cdState s) := by
  have turn := cdTurn_waiting (s := cdState s) (by rwa [cdState_cd]) (by rwa [cdState_tp])
  rw [step_of_run ((fetch_of_cdMoves h).trans turn), cdState_tp]

theorem step_of_cdMoves_empty (idle : s.cd.status = .idle) (empty : s.tp.cmdFull = false) :
    step s = .next (cdState s) :=
  step_of_quiet ((fetch_of_cdMoves h).trans (cdTurn_empty (by rwa [cdState_cd]) (by rwa [cdState_tp])))

theorem step_of_cdMoves_busy (busy : s.cd.status = .busy) :
    step s = exec (decodeCommand s.cd.cmd) (cdState s) := by
  have turn := cdTurn_busy (s := cdState s) (by rwa [cdState_cd])
  rw [step_of_run ((fetch_of_cdMoves h).trans turn), cdState_cd]

end

/-! ### Acceptance and the lines of a BUSY routine -/

section
variable {c : Byte} {first : Label} {line : State → State} {s : State}

theorem runCommand_accepts (idle : s.cd.status = .idle) (full : s.tp.cmdFull = true) (hc : s.tp.cmdByte = c) :
    runCommand c first line s = acceptCommand first s := by
  simp [runCommand, idle, full, hc]

theorem runCommand_performs (busy : s.cd.status = .busy) (hc : s.cd.cmd = c) :
    runCommand c first line s = line s := by
  simp [runCommand, busy, hc]

end

/-- The lines of the routine of command byte c (R56). -/
def lineOf (c : Byte) : State → State :=
  match decodeCommand c with
  | .cmdChipReset => chipResetLine
  | .cmdNavCtrl2 => navCtrl2Line
  | .cmdPixelGrab => pixelGrabLine
  | .cmdMotion => motionLine
  | _ => regReadLine c

theorem lineOf_pixelGrab : lineOf 0x0B#8 = pixelGrabLine := rfl

theorem lineOf_motion : lineOf 0x02#8 = motionLine := rfl

theorem lineOf_unnamed {c : Byte} (h : namedCommandByte c = false) : lineOf c = regReadLine c := by
  simp only [lineOf, decodeCommand_of_unnamed h]

/-- What the lines of a command byte can be, said once. -/
theorem lineOf_cases (c : Byte) :
    lineOf c = chipResetLine ∨ lineOf c = navCtrl2Line ∨ lineOf c = pixelGrabLine ∨ lineOf c = motionLine ∨
      lineOf c = regReadLine c := by
  unfold lineOf
  split
  · exact .inl rfl
  · exact .inr (.inl rfl)
  · exact .inr (.inr (.inl rfl))
  · exact .inr (.inr (.inr (.inl rfl)))
  · exact .inr (.inr (.inr (.inr rfl)))

/-- The operation of a command byte is a step of its routine. -/
theorem exec_decodeCommand {c : Byte} {first : Label} (h : firstLabel (decodeCommand c) = some first) (s : State) :
    exec (decodeCommand c) s = .next (runCommand c first (lineOf c) s) := by
  unfold lineOf
  rcases decodeCommand_cases c with ⟨rfl, e⟩ | ⟨rfl, e⟩ | ⟨rfl, e⟩ | ⟨rfl, e⟩ | ⟨-, e⟩ <;>
    rw [e] at h ⊢ <;> cases h <;> rfl

theorem exists_firstLabel (c : Byte) : ∃ first, firstLabel (decodeCommand c) = some first :=
  Option.isSome_iff_exists.mp (decodeCommand_isCommand c)

/-- The five routines are accepted alike (R82). -/
theorem exec_accepts {s : State} {first : Label} (idle : s.cd.status = .idle) (full : s.tp.cmdFull = true)
    (h : firstLabel (decodeCommand s.tp.cmdByte) = some first) :
    exec (decodeCommand s.tp.cmdByte) s = .next (acceptCommand first s) := by
  rw [exec_decodeCommand h, runCommand_accepts idle full rfl]

/-- A BUSY dispatcher performs a line of the routine of `CMD`. -/
theorem exec_of_busy {s : State} (busy : s.cd.status = .busy) :
    exec (decodeCommand s.cd.cmd) s = .next (lineOf s.cd.cmd s) := by
  obtain ⟨first, h⟩ := exists_firstLabel s.cd.cmd
  rw [exec_decodeCommand h, runCommand_performs busy rfl]

/-- What a BUSY dispatcher does has the shape of a line: it accepts nothing. -/
theorem exec_busy_shape {s t : State} (busy : s.cd.status = .busy)
    (h : exec (decodeCommand s.cd.cmd) s = .next t) : LineShape s t := by
  rcases exec_command_shape (decodeCommand_isCommand _) h with shape | ⟨idle, -⟩
  · exact shape
  · rw [busy] at idle; cases idle

end Sys2Proof.Machine

open Sys2Proof Sys2Proof.Machine in
/-- Settles O11: each of the five turns is the CD/SE agent's, and `cdState` is the state it moves from. -/
theorem stepRunsTheRoutineOfTheCommandByte : Obligations.StepRunsTheRoutineOfTheCommandByte := by
  unfold Obligations.StepRunsTheRoutineOfTheCommandByte
  intro s u turn
  have agent : cdMoves s = true ∧ cdState s = u := by
    rcases turn with ⟨h, rfl⟩ | ⟨rest, h, rfl⟩ | ⟨bytes, rest, h, full, rfl⟩ | ⟨n, rest, h, unanswered, rfl⟩ |
      ⟨n, rest, left, got, h, running, unanswered, rfl⟩
    · exact cdMoves_of_agenda_nil h
    · exact cdMoves_of_cd h
    · exact cdMoves_of_awaitWrite h full
    · exact cdMoves_of_awaitRead h unanswered
    · exact cdMoves_of_queryRead h running unanswered
  obtain ⟨moves, rfl⟩ := agent
  exact ⟨step_of_cdMoves_waiting moves, step_of_cdMoves_busy moves⟩

open Sys2Proof.Machine in
/-- Settles O18: the acceptance of each of the five routines. -/
theorem acceptanceTakesTheWaitingCommand : Obligations.AcceptanceTakesTheWaitingCommand := by
  unfold Obligations.AcceptanceTakesTheWaitingCommand
  exact fun _ _ => exec_accepts

open Sys2Proof.Machine in
/-- Settles O19: with no command waiting the agent's turn performs no operation. -/
theorem idleDispatcherStallsWithoutCommand : Obligations.IdleDispatcherStallsWithoutCommand := by
  unfold Obligations.IdleDispatcherStallsWithoutCommand
  exact fun _ => step_of_cdMoves_empty

open Sys2Proof.Machine in
/-- Settles O20: the step of a BUSY dispatcher has the shape of a line, which leaves the command mailbox and `CMD`
alone. -/
theorem busyDispatcherTakesNoCommand : Obligations.BusyDispatcherTakesNoCommand := by
  unfold Obligations.BusyDispatcherTakesNoCommand
  intro s t moves busy h
  rw [step_of_cdMoves_busy moves busy, ← cdState_cd] at h
  obtain ⟨cmd, full, byte, -⟩ := (exec_busy_shape (by rwa [cdState_cd]) h).mailboxes
  rw [cdState_tp] at full byte
  rw [cdState_cd] at cmd
  exact ⟨full, byte, cmd⟩
end

section
/-! SUPPORT. The lines of the five routines (41_dispatcher R85 to R92) and the emission (R83): what the step at each
label is (O21 to O24, O26, O27). -/
namespace Sys2Proof.Machine

/-! ### The emission (41_dispatcher R83) -/

theorem exec_emit (bs : List Byte) (s : State) : exec (.emit bs) s = .next (emitLine bs id s) := rfl

theorem emitLine_waits {bs : List Byte} {after : State → State} {s : State} (unread : s.tp.rspValid = true) :
    emitLine bs after s = s := by
  simp [emitLine, unread]

theorem emitLine_places {bs : List Byte} {after : State → State} {s : State} (free : s.tp.rspValid = false) :
    emitLine bs after s = after (placePacket bs s) := by
  simp [emitLine, free]

/-- A list of the length of a packet, its bytes named. -/
theorem packetLength_cases {bs : List Byte} (h : packetLength bs.length = true) :
    (∃ b0 b1, bs = [b0, b1]) ∨ ∃ b0 b1 b2 b3 b4 b5 b6, bs = [b0, b1, b2, b3, b4, b5, b6] := by
  match bs with
  | [b0, b1] => exact .inl ⟨b0, b1, rfl⟩
  | [b0, b1, b2, b3, b4, b5, b6] => exact .inr ⟨b0, b1, b2, b3, b4, b5, b6, rfl⟩
  | [] | [_] | [_, _, _] | [_, _, _, _] | [_, _, _, _, _] | [_, _, _, _, _, _] => cases h
  | _ :: _ :: _ :: _ :: _ :: _ :: _ :: _ :: _ => simp [packetLength] at h

/-- The packet placed is the bytes emitted. -/
theorem packetBytes_placePacket {bs : List Byte} (h : packetLength bs.length = true) (s : State) :
    packetBytes (placePacket bs s).tp = bs := by
  rcases packetLength_cases h with ⟨b0, b1, rfl⟩ | ⟨b0, b1, b2, b3, b4, b5, b6, rfl⟩ <;> rfl

/-- The bytes of `RSP_DATA` after those emitted stay. -/
theorem placePacket_drop {bs : List Byte} (h : packetLength bs.length = true) (s : State) :
    (placePacket bs s).tp.rspData.toList.drop bs.length = s.tp.rspData.toList.drop bs.length := by
  rcases packetLength_cases h with ⟨b0, b1, rfl⟩ | ⟨b0, b1, b2, b3, b4, b5, b6, rfl⟩ <;> rfl

/-! ### The lines by their labels -/

/-- The first bus bytes of the lines (20_memory R38). -/
theorem writeAddress_chipReset : writeAddress regChipReset = 0xBA#8 := rfl
theorem writeAddress_navCtrl2 : writeAddress regNavCtrl2 = 0xA2#8 := rfl
theorem writeAddress_pixelGrab : writeAddress regPixelGrab = 0x8B#8 := rfl
theorem readAddress_pixelGrab : readAddress regPixelGrab = 0x0B#8 := rfl
theorem readAddress_motionStatus : readAddress regMotionStatus = 0x02#8 := rfl
theorem readAddress_deltaX : readAddress regDeltaX = 0x03#8 := rfl
theorem readAddress_deltaY : readAddress regDeltaY = 0x04#8 := rfl
theorem readAddress_surfaceQuality : readAddress regSurfaceQuality = 0x05#8 := rfl

section
variable {s : State}

theorem chipResetLine_w0 (h : s.cd.label = .w0) : chipResetLine s = sendLine 0xBA#8 (goto .w1) s := by
  simp only [chipResetLine, h, writeAddress_chipReset]

theorem chipResetLine_w1 (h : s.cd.label = .w1) :
    chipResetLine s = sendLine s.params.resetPayload endRoutine s := by
  simp only [chipResetLine, h]

theorem navCtrl2Line_n0 (h : s.cd.label = .n0) : navCtrl2Line s = sendLine 0xA2#8 (goto .n1) s := by
  simp only [navCtrl2Line, h, writeAddress_navCtrl2]

theorem navCtrl2Line_n1 (h : s.cd.label = .n1) :
    navCtrl2Line s = sendLine s.params.navCtrl2Payload endRoutine s := by
  simp only [navCtrl2Line, h]

theorem pixelGrabLine_p0 (h : s.cd.label = .p0) : pixelGrabLine s = sendLine 0x8B#8 (goto .p1) s := by
  simp only [pixelGrabLine, h, writeAddress_pixelGrab]

theorem pixelGrabLine_p1 (h : s.cd.label = .p1) :
    pixelGrabLine s = sendLine 0x00#8 (fun t => pixelNext (setPixK 0 t)) s := by
  simp only [pixelGrabLine, h]

theorem pixelGrabLine_p3 (h : s.cd.label = .p3) : pixelGrabLine s = sendLine 0x0B#8 (goto .p4) s := by
  simp only [pixelGrabLine, h, readAddress_pixelGrab]

theorem pixelGrabLine_p4 (h : s.cd.label = .p4) : pixelGrabLine s = readLine (goto .p5) s := by
  simp only [pixelGrabLine, h]

theorem pixelGrabLine_p5 (h : s.cd.label = .p5) : pixelGrabLine s = pixelTest s := by
  simp only [pixelGrabLine, h]

theorem pixelGrabLine_p7 (h : s.cd.label = .p7) :
    pixelGrabLine s =
      emitLine (pairPacket s.cd.rb) (fun t => pixelNext (setPixK (t.cd.pixK + 1) t)) s := by
  simp only [pixelGrabLine, h]

/-- The four registers of a motion query, each sent in its line (R91). -/
theorem motionLine_send {l l' : Label} {v : Byte} (h : s.cd.label = l)
    (hv : (l, v, l') ∈ [(Label.m0, 0x02#8, Label.m1), (.m2, 0x03#8, .m3), (.m4, 0x04#8, .m5), (.m6, 0x05#8, .m7)]) :
    motionLine s = sendLine v (goto l') s := by
  simp only [List.mem_cons, Prod.mk.injEq, List.not_mem_nil, or_false] at hv
  rcases hv with ⟨rfl, rfl, rfl⟩ | ⟨rfl, rfl, rfl⟩ | ⟨rfl, rfl, rfl⟩ | ⟨rfl, rfl, rfl⟩
  · simp only [motionLine, h, readAddress_motionStatus]
  · simp only [motionLine, h, readAddress_deltaX]
  · simp only [motionLine, h, readAddress_deltaY]
  · simp only [motionLine, h, readAddress_surfaceQuality]

theorem motionLine_m1 (h : s.cd.label = .m1) : motionLine s = readLine (goto .m2) s := by
  simp only [motionLine, h]

theorem motionLine_m3 (h : s.cd.label = .m3) :
    motionLine s = readLine (fun t => goto .m4 (keepPair (fun d r0 r1 => { d with b0 := r0, b1 := r1 }) t)) s := by
  simp only [motionLine, h]

theorem motionLine_m5 (h : s.cd.label = .m5) :
    motionLine s = readLine (fun t => goto .m6 (keepPair (fun d r0 r1 => { d with b2 := r0, b3 := r1 }) t)) s := by
  simp only [motionLine, h]

theorem motionLine_m7 (h : s.cd.label = .m7) :
    motionLine s = readLine (fun t => goto .m8 (keepPair (fun d r0 r1 => { d with b4 := r0, b5 := r1 }) t)) s := by
  simp only [motionLine, h]

theorem motionLine_m8 (h : s.cd.label = .m8) : motionLine s = goto .m9 (sampleAux s) := by
  simp only [motionLine, h]

theorem motionLine_m9 (h : s.cd.label = .m9) : motionLine s = emitLine s.cd.rb.toList endRoutine s := by
  simp only [motionLine, h]

theorem regReadLine_g0 (h : s.cd.label = .g0) (c : Byte) : regReadLine c s = sendLine c (goto .g1) s := by
  simp only [regReadLine, h]

theorem regReadLine_g1 (h : s.cd.label = .g1) (c : Byte) :
    regReadLine c s =
      readLine (fun t => goto .g2 (keepPair (fun d r0 r1 => { d with b0 := r0, b1 := r1 }) t)) s := by
  simp only [regReadLine, h]

theorem regReadLine_g2 (h : s.cd.label = .g2) (c : Byte) :
    regReadLine c s = emitLine (pairPacket s.cd.rb) endRoutine s := by
  simp only [regReadLine, h]

/-! ### What follows a line in the step that completes it -/

/-- A SEND line that ends with the dispatcher at d. -/
theorem sendLine_eq_ite {v : Byte} {after : State → State} {d : Dispatcher}
    (h : after (sendPhase v s) = { sendPhase v s with cd := d }) :
    sendLine v after s =
      if (sendPhase v s).se.phase = .idle then { sendPhase v s with cd := d } else sendPhase v s := by
  simp only [sendLine, primitiveDone, decide_eq_true_iff, h]

theorem sendLine_goto (v : Byte) (l : Label) :
    sendLine v (goto l) s =
      if (sendPhase v s).se.phase = .idle then { sendPhase v s with cd := { s.cd with label := l } }
      else sendPhase v s :=
  sendLine_eq_ite (by rw [goto, sendPhase_cd])

theorem sendLine_endRoutine (v : Byte) :
    sendLine v endRoutine s =
      if (sendPhase v s).se.phase = .idle then { sendPhase v s with cd := { s.cd with status := .idle } }
      else sendPhase v s :=
  sendLine_eq_ite (by rw [endRoutine, sendPhase_cd])

theorem readLine_busy {after : State → State} (h : (readPhase s).se.phase ≠ .idle) :
    readLine after s = readPhase s := by
  simp [readLine, primitiveDone, h]

theorem readLine_done {after : State → State} (h : (readPhase s).se.phase = .idle) :
    readLine after s = after (readPhase s) := by
  simp [readLine, primitiveDone, h]

/-- The pair a READ returned is kept and the routine goes on to l. -/
theorem goto_keepPair_readPhase (l : Label) (f : Bytes7 → Byte → Byte → Bytes7) :
    goto l (keepPair f (readPhase s)) = { readPhase s with cd :=
      { s.cd with label := l, rb := f s.cd.rb (readPhase s).se.rx0 (readPhase s).se.rx1 } } := by
  rw [goto, keepPair, readPhase_cd]

theorem pixelNext_more (h : s.cd.pixK ≠ 361) :
    pixelNext s = { s with cd := { s.cd with pollCnt := 0, label := .p3 } } := by
  rw [pixelNext, if_neg h]

theorem pixelNext_last (h : s.cd.pixK = 361) : pixelNext s = endRoutine s := by
  rw [pixelNext, if_pos h]

theorem pixelTest_keeps (h0 : s.se.rx0.getLsbD 7 = true) (h1 : s.se.rx1.getLsbD 7 = true) :
    pixelTest s = pixelKeep s := by
  simp only [pixelTest, pixelValid, h0, h1, Bool.and_self, if_true]

theorem pixelTest_discards (h : s.se.rx0.getLsbD 7 = false ∨ s.se.rx1.getLsbD 7 = false) :
    pixelTest s = pixelDiscard s := by
  have invalid : (pixelValid s.se.rx0 && pixelValid s.se.rx1) = false := Bool.and_eq_false_iff.mpr h
  rw [pixelTest, invalid, if_neg Bool.false_ne_true]

theorem pixelDiscard_unlimited (h : s.params.pixPollLimit = none) : pixelDiscard s = goto .p3 s := by
  simp only [pixelDiscard, h]

theorem pixelDiscard_counts {limit : Nat} (h : s.params.pixPollLimit = some limit) (hn : s.cd.pollCnt + 1 ≠ limit) :
    pixelDiscard s = { s with cd := { s.cd with pollCnt := s.cd.pollCnt + 1, label := .p3 } } := by
  simp only [pixelDiscard, h, if_neg hn]

theorem pixelDiscard_timesOut {limit : Nat} (h : s.params.pixPollLimit = some limit) (hn : s.cd.pollCnt + 1 = limit) :
    pixelDiscard s = { s with cd :=
      { s.cd with pollCnt := s.cd.pollCnt + 1, pto := true, status := .idle, label := .p3 } } := by
  simp only [pixelDiscard, h, if_pos hn]

/-- A discarded pair writes CD registers only, and never clears `PTO`. -/
theorem pixelDiscard_cd (s : State) :
    ∃ d : Dispatcher, pixelDiscard s = { s with cd := d } ∧ (s.cd.pto = true → d.pto = true) := by
  cases limit : s.params.pixPollLimit with
  | none => exact ⟨_, pixelDiscard_unlimited limit, id⟩
  | some n =>
    by_cases h : s.cd.pollCnt + 1 = n
    · exact ⟨_, pixelDiscard_timesOut limit h, fun _ => rfl⟩
    · exact ⟨_, pixelDiscard_counts limit h, id⟩

end

/-! ### The operation of a BUSY dispatcher -/

section
variable {s : State} (busy : s.cd.status = .busy)
include busy

theorem exec_chipReset_busy (cmd : s.cd.cmd = 0xBA#8) : exec .cmdChipReset s = .next (chipResetLine s) :=
  congrArg Host.Outcome.next (runCommand_performs busy cmd)

theorem exec_navCtrl2_busy (cmd : s.cd.cmd = 0xA2#8) : exec .cmdNavCtrl2 s = .next (navCtrl2Line s) :=
  congrArg Host.Outcome.next (runCommand_performs busy cmd)

theorem exec_pixelGrab_busy (cmd : s.cd.cmd = 0x0B#8) : exec .cmdPixelGrab s = .next (pixelGrabLine s) :=
  congrArg Host.Outcome.next (runCommand_performs busy cmd)

theorem exec_motion_busy (cmd : s.cd.cmd = 0x02#8) : exec .cmdMotion s = .next (motionLine s) :=
  congrArg Host.Outcome.next (runCommand_performs busy cmd)

theorem exec_regRead_busy {c : Byte} (cmd : s.cd.cmd = c) : exec (.cmdRegRead c) s = .next (regReadLine c s) :=
  congrArg Host.Outcome.next (runCommand_performs busy cmd)

end

end Sys2Proof.Machine

open Sys2Proof.Machine in
/-- Settles O21: an unread packet is a wait; else the packet is placed, for either packet length. -/
theorem emitWaitsOrPlacesThePacket : Obligations.EmitWaitsOrPlacesThePacket := by
  unfold Obligations.EmitWaitsOrPlacesThePacket
  intro bs s
  rw [exec_emit]
  refine ⟨fun unread => by rw [emitLine_waits unread], fun free length => ?_⟩
  rw [emitLine_places free]
  exact ⟨placePacket bs s, rfl, rfl, packetBytes_placePacket length s, placePacket_drop length s⟩

open Sys2Proof.Machine in
/-- Settles O22: the SENDs of W0 and W1. -/
theorem chipResetPerformsItsLines : Obligations.ChipResetPerformsItsLines := by
  unfold Obligations.ChipResetPerformsItsLines
  intro s busy cmd
  rw [exec_chipReset_busy busy cmd]
  refine ⟨fun w0 => ?_, fun w1 => ?_⟩
  · rw [chipResetLine_w0 w0, sendLine_goto]
  · rw [chipResetLine_w1 w1, sendLine_endRoutine]

open Sys2Proof.Machine in
/-- Settles O23: the SENDs of N0 and N1. -/
theorem navCtrl2PerformsItsLines : Obligations.NavCtrl2PerformsItsLines := by
  unfold Obligations.NavCtrl2PerformsItsLines
  intro s busy cmd
  rw [exec_navCtrl2_busy busy cmd]
  refine ⟨fun n0 => ?_, fun n1 => ?_⟩
  · rw [navCtrl2Line_n0 n0, sendLine_goto]
  · rw [navCtrl2Line_n1 n1, sendLine_endRoutine]

open Sys2Proof.Machine in
/-- Settles O24: the lines P0 to P7, P2 being what follows P1 and P7. -/
theorem pixelGrabPerformsItsLines : Obligations.PixelGrabPerformsItsLines := by
  unfold Obligations.PixelGrabPerformsItsLines
  intro s busy cmd
  rw [exec_pixelGrab_busy busy cmd]
  refine ⟨fun p0 => ?p0, fun p1 => ?p1, fun p3 => ?p3, fun p4 => ?p4, fun p5 h0 h1 => ?keep,
    fun p5 h unlimited => ?again, fun p5 h limit hl below => ?count, fun p7 unread => ?wait,
    fun p7 free last => ?last, fun p7 free more => ?next⟩
  case p0 => rw [pixelGrabLine_p0 p0, sendLine_goto]
  case p1 =>
    rw [pixelGrabLine_p1 p1, sendLine_eq_ite]
    rw [pixelNext_more (by simp), setPixK, sendPhase_cd]
  case p3 => rw [pixelGrabLine_p3 p3, sendLine_goto]
  case p4 =>
    rw [pixelGrabLine_p4 p4]
    split
    · rename_i done
      rw [readLine_done done, goto, readPhase_cd]
    · rename_i unfinished
      rw [readLine_busy unfinished]
  case keep => rw [pixelGrabLine_p5 p5, pixelTest_keeps h0 h1]; rfl
  case again => rw [pixelGrabLine_p5 p5, pixelTest_discards h, pixelDiscard_unlimited unlimited]; rfl
  case count => rw [pixelGrabLine_p5 p5, pixelTest_discards h, pixelDiscard_counts hl below]
  case wait => rw [pixelGrabLine_p7 p7, emitLine_waits unread]
  case last => rw [pixelGrabLine_p7 p7, emitLine_places free, pixelNext_last last, ← last]; rfl
  case next => rw [pixelGrabLine_p7 p7, emitLine_places free, pixelNext_more more]; rfl

open Sys2Proof.Machine in
/-- Settles O26: the lines M0 to M9. -/
theorem motionPerformsItsLines : Obligations.MotionPerformsItsLines := by
  unfold Obligations.MotionPerformsItsLines
  intro s busy cmd
  rw [exec_motion_busy busy cmd]
  refine ⟨fun l v l' mem label => ?send, fun unfinished read => ?reading,
    fun done => ⟨fun m1 => ?m1, fun m3 => ?m3, fun m5 => ?m5, fun m7 => ?m7⟩,
    fun m8 => ?aux, fun m9 unread => ?wait, fun m9 free => ?place⟩
  case send => rw [motionLine_send label mem, sendLine_goto]
  case reading =>
    simp only [List.mem_cons, List.not_mem_nil, or_false] at read
    rcases read with m1 | m3 | m5 | m7
    · rw [motionLine_m1 m1, readLine_busy unfinished]
    · rw [motionLine_m3 m3, readLine_busy unfinished]
    · rw [motionLine_m5 m5, readLine_busy unfinished]
    · rw [motionLine_m7 m7, readLine_busy unfinished]
  case m1 => rw [motionLine_m1 m1, readLine_done done, goto, readPhase_cd]
  case m3 => rw [motionLine_m3 m3, readLine_done done, goto_keepPair_readPhase]
  case m5 => rw [motionLine_m5 m5, readLine_done done, goto_keepPair_readPhase]
  case m7 => rw [motionLine_m7 m7, readLine_done done, goto_keepPair_readPhase]
  case aux => rw [motionLine_m8 m8]; rfl
  case wait => rw [motionLine_m9 m9, emitLine_waits unread]
  case place => rw [motionLine_m9 m9, emitLine_places free]; rfl

open Sys2Proof.Machine in
/-- Settles O27: the lines G0 to G2. -/
theorem regReadPerformsItsLines : Obligations.RegReadPerformsItsLines := by
  unfold Obligations.RegReadPerformsItsLines
  intro c s busy cmd
  rw [exec_regRead_busy busy cmd]
  refine ⟨fun g0 => ?g0, fun g1 unfinished => ?reading, fun g1 done => ?g1, fun g2 unread => ?wait,
    fun g2 free => ?place⟩
  case g0 => rw [regReadLine_g0 g0, sendLine_goto]
  case reading => rw [regReadLine_g1 g1, readLine_busy unfinished]
  case g1 => rw [regReadLine_g1 g1, readLine_done done, goto_keepPair_readPhase]
  case wait => rw [regReadLine_g2 g2, emitLine_waits unread]
  case place => rw [regReadLine_g2 g2, emitLine_places free]; rfl
end

section
/-! SUPPORT. What every step keeps of the dispatcher and its mailboxes: a set `PTO` (O25), the hand-over of a pixel
grab (O32), what waits in the two mailboxes (O38). -/
namespace Sys2Proof.Machine

/-! ### A set `PTO` stays (41_dispatcher R90) -/

theorem pixelTest_keeps_pto {s : State} (set : s.cd.pto = true) : (pixelTest s).cd.pto = true := by
  rcases pixelTest_cases s with ⟨-, -, e⟩ | ⟨-, e⟩ <;> rw [e]
  · exact set
  · obtain ⟨d, discards, keeps⟩ := pixelDiscard_cd s
    rw [discards]
    exact keeps set

theorem pixelGrabLine_keeps_pto {s : State} (set : s.cd.pto = true) : (pixelGrabLine s).cd.pto = true := by
  unfold pixelGrabLine
  split
  · rw [sendLine_pto (goto_pto _), set]
  · rw [sendLine_pto fun t => pixelNext_pto (setPixK 0 t), set]
  · rw [sendLine_pto (goto_pto _), set]
  · rcases readLine_cases (goto .p5) s with ⟨-, e⟩ | ⟨-, e⟩ <;> simp [e, set]
  · exact pixelTest_keeps_pto set
  · rcases emitLine_cases (pairPacket s.cd.rb) (fun t => pixelNext (setPixK (t.cd.pixK + 1) t)) s with
      ⟨-, e⟩ | ⟨-, e⟩ <;> rw [e]
    · exact set
    · rw [pixelNext_pto]; exact set
  · exact set

/-- A line that has nothing to do with the pixel grab leaves `PTO` as it is. -/
theorem offPixels_keeps_pto {s t : State} (h : t = s ∨ OffPixels s.cd t.cd) (set : s.cd.pto = true) :
    t.cd.pto = true := by
  rcases h with rfl | ⟨-, -, same, -⟩
  · exact set
  · rw [same, set]

theorem lineOf_keeps_pto (c : Byte) {s : State} (set : s.cd.pto = true) : (lineOf c s).cd.pto = true := by
  rcases lineOf_cases c with e | e | e | e | e <;> rw [e]
  · exact offPixels_keeps_pto (chipResetLine_offPixels s) set
  · exact offPixels_keeps_pto (navCtrl2Line_offPixels s) set
  · exact pixelGrabLine_keeps_pto set
  · exact offPixels_keeps_pto (motionLine_offPixels s) set
  · exact offPixels_keeps_pto (regReadLine_offPixels c s) set

theorem decodeOa_noncommand (w : OaWord) : isCommand (decodeOa w) = false := by
  unfold decodeOa
  split <;> rfl

theorem motionOf_noncommand {q : Query} {i : Instr} (h : motionOf q = some i) : isCommand i = false := by
  unfold motionOf at h
  split at h <;> cases h
  rfl

theorem pairOf_noncommand {k : Nat} {q : Query} {i : Instr} (h : pairOf k q = some i) : isCommand i = false := by
  unfold pairOf at h
  split at h
  · split at h <;> cases h
    rfl
  · cases h

/-- On a turn that is not the CD/SE agent's, no command row is performed. -/
theorem fetch_run_noncommand {s u : State} {i : Instr} (other : cdMoves s = false) (h : fetch s = .run i u) :
    isCommand i = false := by
  unfold fetch at h
  unfold cdMoves at other
  cases agenda : s.env.agenda with
  | nil => rw [agenda] at other; cases other
  | cons t rest =>
    rw [agenda] at other h
    cases t with
    | cd => cases other
    | oa w => cases h; exact decodeOa_noncommand w
    | hostWrite _ | hostRead _ | hostStatus => cases h; rfl
    | snapshot | powerOn => cases h
    | awaitWrite _ => simp only at other; simp only [turnOf, other] at h; cases h; rfl
    | awaitRead _ =>
      simp only [Bool.not_eq_false'] at other
      simp only [turnOf, other, if_true] at h
      cases h; rfl
    | oaDecodeReply | oaStoreReply =>
      simp only [turnOf] at h
      split at h <;> cases h
      rfl
    | queryStart _ =>
      simp only [turnOf, queryStartTurn] at h
      split at h <;> cases h
      rfl
    | queryRead _ =>
      simp only [turnOf, queryReadTurn] at h
      split at h
      · rename_i running
        simp only [running, queryIsRunning, Bool.true_and, Bool.not_eq_false'] at other
        rw [if_pos other] at h
        cases h; rfl
      · cases h
    | queryTimeout =>
      simp only [turnOf, queryTimeoutTurn] at h
      split at h <;> cases h
    | oaDecodeQuery => exact motionOf_noncommand (issueFrom_run h)
    | oaStoreQuery _ => exact pairOf_noncommand (issueFrom_run h)

/-- A turn of another agent than the CD/SE one leaves the dispatcher alone, but for a power-on reset. -/
theorem step_other_cd {s t : State} (other : cdMoves s = false) (h : step s = .next t) :
    t.cd = s.cd ∨ ∃ rest, s.env.agenda = .powerOn :: rest := by
  rcases fetch_cases s with ⟨i, u, e, hi, turned⟩ | ⟨u, e, turned⟩ | ⟨e, -⟩ | ⟨-, reset⟩
  · obtain ⟨-, same, -⟩ := turned.block
    rw [step_of_run e] at h
    rw [← same]
    rcases exec_noncommand_cases hi (fetch_run_noncommand other e) h with ⟨o, -, rfl⟩ | ⟨tp, env, rfl, -, -⟩
    · exact .inl rfl
    · exact .inl rfl
  · obtain ⟨-, same, -⟩ := turned.block
    rw [step_of_quiet e] at h
    cases h
    exact .inl same
  · rw [step_of_quiet e] at h
    cases h
    exact .inl rfl
  · exact .inr reset

/-- The CD/SE agent clears a set `PTO` only by accepting a command. -/
theorem step_agent_pto {s t : State} (moves : cdMoves s = true) (set : s.cd.pto = true) (h : step s = .next t) :
    t.cd.pto = true ∨ (s.cd.status = .idle ∧ s.tp.cmdFull = true ∧ t.cd.status = .busy) := by
  rw [← cdState_cd] at set
  cases status : s.cd.status with
  | busy =>
    rw [step_of_cdMoves_busy moves status, ← cdState_cd, exec_of_busy (by rwa [cdState_cd])] at h
    cases h
    exact .inl (lineOf_keeps_pto _ set)
  | idle =>
    cases full : s.tp.cmdFull with
    | false =>
      rw [step_of_cdMoves_empty moves status full] at h
      cases h
      exact .inl set
    | true =>
      obtain ⟨first, hfirst⟩ := exists_firstLabel s.tp.cmdByte
      rw [← cdState_tp] at hfirst full
      rw [step_of_cdMoves_waiting moves status (by rwa [cdState_tp] at full), ← cdState_tp,
        exec_accepts (by rwa [cdState_cd]) full hfirst] at h
      cases h
      exact .inr ⟨rfl, rfl, rfl⟩

/-! ### The hand-over of a pixel grab (41_dispatcher R88) -/

theorem Turned.pixelOk {s u : State} (hu : Turned s u) (h : PixelOk s) : PixelOk u := by
  obtain ⟨hse, hcd, -, -, hps⟩ := hu.block
  exact pixelOk_of_cd h hcd hps (.inr hse)

theorem powerOnReset_pixelOk (s : State) : PixelOk (powerOnReset s) :=
  ⟨Nat.zero_le _, fun n _ => Nat.zero_le n, nofun, nofun⟩

theorem step_pixelOk {s t : State} (params : ParamsOk s) (h : PixelOk s) (hstep : step s = .next t) :
    PixelOk t := by
  obtain ⟨hwf, -⟩ := params
  rcases step_cases hstep with ⟨i, u, he, hi, turned⟩ | turned | rfl | ⟨rfl, -⟩
  · obtain ⟨-, -, -, -, hps⟩ := turned.block
    have hu := turned.pixelOk h
    cases hc : isCommand i with
    | true => exact (exec_command_pixelOk (by rwa [hps]) hc hu he).1
    | false =>
      rcases exec_noncommand_cases hi hc he with ⟨o, -, rfl⟩ | ⟨tp, env, rfl, -, -⟩
      · exact hu
      · exact hu
  · exact turned.pixelOk h
  · exact h
  · exact powerOnReset_pixelOk _

theorem pixelNext_tp (t : State) : (pixelNext t).tp = t.tp := by
  rcases pixelNext_cases t with ⟨-, e⟩ | ⟨-, e⟩ <;> rw [e]
  rfl

theorem sendLine_tp {v : Byte} {after : State → State} (ha : ∀ t, (after t).tp = t.tp) (s : State) :
    (sendLine v after s).tp = s.tp := by
  rcases sendLine_cases v after s with ⟨-, e⟩ | ⟨-, e⟩ <;> simp [e, ha]

theorem pixelTest_tp (s : State) : (pixelTest s).tp = s.tp := by
  rcases pixelTest_cases s with ⟨-, -, e⟩ | ⟨-, e⟩ <;> rw [e]
  · rfl
  · obtain ⟨d, discards, -⟩ := pixelDiscard_cd s
    rw [discards]

/-- Only P7 writes a mailbox. -/
theorem pixelGrabLine_tp {s : State} (h : s.cd.label ≠ .p7) : (pixelGrabLine s).tp = s.tp := by
  unfold pixelGrabLine
  split
  · exact sendLine_tp (goto_tp _) s
  · exact sendLine_tp (fun t => pixelNext_tp (setPixK 0 t)) s
  · exact sendLine_tp (goto_tp _) s
  · rcases readLine_cases (goto .p5) s with ⟨-, e⟩ | ⟨-, e⟩ <;> simp [e]
  · exact pixelTest_tp s
  · rename_i p7
    exact absurd p7 h
  · rfl

/-- P7 into a free mailbox places the pair of the assembly buffer. -/
theorem pixelGrabLine_p7_packet {s : State} (p7 : s.cd.label = .p7) (free : s.tp.rspValid = false) :
    packetBytes (pixelGrabLine s).tp = [s.cd.rb.b0, s.cd.rb.b1] := by
  rw [pixelGrabLine_p7 p7, emitLine_places free, pixelNext_tp, setPixK_tp]
  exact packetBytes_placePacket rfl s

/-! ### What waits in a mailbox (41_dispatcher R83, 42_transport R94, R95) -/

/-- What stays in a mailbox keeps its value. -/
def MailboxesKept (a b : Transport) : Prop :=
  (a.rspValid = true → b.rspValid = true → b.rspData = a.rspData ∧ b.rspLen = a.rspLen) ∧
  (a.cmdFull = true → b.cmdFull = true → b.cmdByte = a.cmdByte)

theorem MailboxesKept.refl (a : Transport) : MailboxesKept a a := ⟨fun _ _ => ⟨rfl, rfl⟩, fun _ _ => rfl⟩

theorem LineShape.mailboxesKept {s t : State} (h : LineShape s t) : MailboxesKept s.tp t.tp := by
  obtain ⟨-, -, byte, unread⟩ := h.mailboxes
  exact ⟨fun waits _ => by rw [unread waits]; exact ⟨rfl, rfl⟩, fun _ _ => byte⟩

theorem execHostWrite_mailboxesKept {bs : List Byte} {s t : State} (h : execHostWrite bs s = .next t) :
    MailboxesKept s.tp t.tp := by
  rcases execHostWrite_cases bs s with ⟨_, -, free, e⟩ | ⟨-, e⟩ <;> rw [e] at h <;> cases h
  · exact ⟨fun _ _ => ⟨rfl, rfl⟩, fun full => by rw [free] at full; cases full⟩
  · exact .refl _

theorem execHostRead_mailboxesKept {n : Nat} {s t : State} (h : execHostRead n s = .next t) :
    MailboxesKept s.tp t.tp := by
  rcases execHostRead_cases n s with ⟨-, e⟩ | ⟨-, -, e⟩ | ⟨-, -, e⟩ <;> rw [e] at h <;> cases h
  · exact .refl _
  · exact .refl _
  · exact ⟨fun _ => nofun, fun _ _ => rfl⟩

theorem exec_mailboxesKept {i : Instr} {s t : State} (hp : isPortOperation i) (h : exec i s = .next t) :
    MailboxesKept s.tp t.tp := by
  cases hc : isCommand i with
  | true =>
    rcases exec_command_shape hc h with shape | ⟨-, -, l, -, -, rfl⟩
    · exact shape.mailboxesKept
    · exact ⟨fun _ _ => ⟨rfl, rfl⟩, fun _ _ => rfl⟩
  | false =>
    obtain ⟨hsend, hread, hemit⟩ := hp
    cases i with
    | cmdChipReset | cmdNavCtrl2 | cmdPixelGrab | cmdMotion | cmdRegRead _ => cases hc
    | send v => exact absurd rfl (hsend v)
    | read => exact absurd rfl hread
    | emit bs => exact absurd rfl (hemit bs)
    | hostWrite bs => exact execHostWrite_mailboxesKept h
    | hostRead n => exact execHostRead_mailboxesKept h
    | tick =>
      rcases execTick_cases h with rfl | ⟨-, code, -, rfl⟩ | ⟨-, hx, hy, -, -, -, rfl⟩ <;> exact .refl _
    | hostStatus | decodeMotion | storePixelPair | setMode | setCal | sessionReset | setBtn | reservedOa7 |
      reservedOa8F => cases h; exact .refl _

theorem step_mailboxesKept {s t : State} (h : step s = .next t) : MailboxesKept s.tp t.tp := by
  rcases step_cases h with ⟨i, u, he, hi, turned⟩ | turned | rfl | ⟨rfl, -⟩
  · obtain ⟨-, -, same, -⟩ := turned.block
    rw [← same]
    exact exec_mailboxesKept hi he
  · obtain ⟨-, -, same, -⟩ := turned.block
    rw [same]
    exact .refl _
  · exact .refl _
  · exact ⟨fun _ => nofun, fun _ => nofun⟩

end Sys2Proof.Machine

open Sys2Proof Sys2Proof.Machine in
/-- Settles O25: the discard that reaches the limit; the acceptance clears `PTO`; no other move of the CD/SE agent, and
no other turn but a power-on reset, writes it. -/
theorem pixelTimeoutEndsTheGrab : Obligations.PixelTimeoutEndsTheGrab := by
  unfold Obligations.PixelTimeoutEndsTheGrab
  refine ⟨?timeout, ?acceptance, ?stays, ?reset⟩
  case timeout =>
    intro s limit busy cmd p5 invalid hl reached
    have silent : cdEvent s = none := by simp [cdEvent, p5, lineKind]
    rw [exec_pixelGrab_busy busy cmd, pixelGrabLine_p5 p5, pixelTest_discards invalid,
      pixelDiscard_timesOut hl reached]
    exact ⟨_, rfl, rfl, rfl, rfl, reached, rfl, rfl, rfl, rfl, silent⟩
  case acceptance =>
    intro s idle full
    obtain ⟨first, h⟩ := exists_firstLabel s.tp.cmdByte
    exact ⟨_, exec_accepts idle full h, rfl⟩
  case stays =>
    intro s t set h
    cases moves : cdMoves s with
    | true => exact (step_agent_pto moves set h).imp_right fun accepted => .inr ⟨rfl, accepted⟩
    | false => exact (step_other_cd moves h).imp (fun same => by rw [same, set]) .inl
  case reset =>
    intro s rest h
    exact ⟨_, step_of_quiet (fetch_of_agenda_cons h), rfl⟩

open Sys2Proof.Machine in
/-- Settles O32: `PixelOk` is kept by every step, and at P7, the only line that places a packet, it says where the pair
comes from. -/
theorem pixelPacketsComeFromOneFullyValidRead : Obligations.PixelPacketsComeFromOneFullyValidRead := by
  unfold Obligations.PixelPacketsComeFromOneFullyValidRead
  refine ⟨fun _ _ => step_pixelOk, fun s t ok busy cmd free h placed => ?_⟩
  rw [exec_pixelGrab_busy busy cmd] at h
  cases h
  by_cases p7 : s.cd.label = .p7
  · obtain ⟨-, -, -, handOver⟩ := ok
    obtain ⟨valid0, valid1, b0, b1⟩ := handOver busy p7
    refine ⟨valid0, valid1, ?_⟩
    rw [pixelGrabLine_p7_packet p7 free, b0, b1]
    rfl
  · rw [pixelGrabLine_tp p7, free] at placed
    cases placed

open Sys2Proof.Machine in
/-- Settles O38: an emission and a `HOST_WRITE` write a free mailbox only, and a mailbox that is emptied holds nothing
that stays. -/
theorem mailboxesAreNeverOverwritten : Obligations.MailboxesAreNeverOverwritten := by
  unfold Obligations.MailboxesAreNeverOverwritten
  exact fun _ _ => step_mailboxesKept
end

section
/-! SUPPORT. The runs of the CD/SE agent (70_reset_and_hazards R152): a line with its SEND or READ from start to end,
and the routines that emit at most one packet from their acceptance to their end (O28 to O30). -/
namespace Sys2Proof.Machine

/-! ### Runs with their bus trace (40_shift_engine R80) -/

/-- n steps lead from s to t, and es is what they put on the bus. -/
def RunsTo (n : Nat) (s : State) (es : List BusEvent) (t : State) : Prop :=
  runSteps n s = .next t ∧ busTrace n s = es

theorem RunsTo.nil (s : State) : RunsTo 0 s [] s := ⟨rfl, rfl⟩

theorem RunsTo.cons {n : Nat} {s u t : State} {es : List BusEvent} (h : step s = .next u) (run : RunsTo n u es t) :
    RunsTo (n + 1) s ((busEvent s).toList ++ es) t := by
  obtain ⟨steps, trace⟩ := run
  exact ⟨(runSteps_succ h).trans steps, by simp only [busTrace, h, trace]⟩

theorem busTrace_add {n : Nat} (m : Nat) {s t : State} (h : runSteps n s = .next t) :
    busTrace (n + m) s = busTrace n s ++ busTrace m t := by
  induction n generalizing s with
  | zero => cases h; rw [Nat.zero_add]; rfl
  | succ n ih =>
    rw [Nat.add_right_comm]
    simp only [runSteps, busTrace] at h ⊢
    revert h
    cases step s with
    | next u => exact fun h => by simp only [ih h, List.append_assoc]
    | fault r => exact nofun
    | refused r => exact nofun

theorem RunsTo.trans {n m : Nat} {s u t : State} {es fs : List BusEvent} (first : RunsTo n s es u)
    (second : RunsTo m u fs t) : RunsTo (n + m) s (es ++ fs) t := by
  obtain ⟨steps, rfl⟩ := first
  obtain ⟨steps', rfl⟩ := second
  exact ⟨(runSteps_add m steps).trans steps', busTrace_add m steps⟩

/-- One step with nothing on the bus. -/
theorem RunsTo.silent {s t : State} (h : step s = .next t) (quiet : busEvent s = none) : RunsTo 1 s [] t := by
  simpa [quiet] using (RunsTo.nil t).cons h

/-! ### The agent undisturbed -/

/-- The next turn is the CD/SE agent's and uses up no turn of the agenda. -/
def CdNext (s : State) : Prop := cdMoves s = true ∧ ∀ rest, s.env.agenda ≠ .cd :: rest

theorem CdNext.fetch {s : State} (h : CdNext s) : fetch s = cdTurn s := by
  obtain ⟨moves, stays⟩ := h
  rw [fetch_of_cdMoves moves]
  unfold cdState
  split
  · rename_i rest agenda
    exact absurd agenda (stays rest)
  · rfl

/-- Whose turn it is depends on the agenda, the mailboxes and the query alone. -/
theorem CdNext.of_same {s t : State} (h : CdNext s) (agenda : t.env.agenda = s.env.agenda) (tp : t.tp = s.tp)
    (query : t.env.query = s.env.query) : CdNext t := by
  obtain ⟨moves, stays⟩ := h
  exact ⟨by simpa only [cdMoves, agenda, tp, query] using moves, by rwa [agenda]⟩

theorem cdNext_of_agenda_nil {s : State} (h : s.env.agenda = []) : CdNext s :=
  ⟨(cdMoves_of_agenda_nil h).1, by simp [h]⟩

/-! ### A line that calls the Shift Engine -/

/-- One step of a line that performs the primitive begun by `start`, and then `after`. -/
def primitiveLine (start : ShiftEngine → ShiftEngine) (after : State → State) (s : State) : State :=
  if primitiveDone (microPhase start s) then after (microPhase start s) else microPhase start s

theorem sendLine_eq_primitiveLine (v : Byte) (after : State → State) :
    sendLine v after = primitiveLine (startSend v) after := rfl

theorem readLine_eq_primitiveLine (after : State → State) : readLine after = primitiveLine startRead after := rfl

/-- The dispatcher stands, undisturbed, in a line of kind k that performs the primitive begun by `start`, and then
`after`. -/
structure AtLine (k : LineKind) (start : ShiftEngine → ShiftEngine) (after : State → State) (s : State) : Prop where
  next : CdNext s
  busy : s.cd.status = .busy
  mem : s.cd.label ∈ labelsOf s.cd.cmd
  kind : lineKind s.cd.label = k
  calls : k ≠ .other
  line : ∀ u : State, u.cd = s.cd → u.params = s.params → lineOf s.cd.cmd u = primitiveLine start after u

section
variable {k : LineKind} {start : ShiftEngine → ShiftEngine} {after : State → State} {s t : State}

/-- The step of a BUSY dispatcher undisturbed is a line of its routine. -/
theorem step_line (next : CdNext s) (busy : s.cd.status = .busy) : step s = .next (lineOf s.cd.cmd s) := by
  rw [step_of_run (next.fetch.trans (cdTurn_busy busy)), exec_of_busy busy]

/-- In a line that calls the Shift Engine the bus carries the event of the micro-phase, in another line none. -/
theorem busEvent_line (next : CdNext s) (busy : s.cd.status = .busy) (mem : s.cd.label ∈ labelsOf s.cd.cmd) :
    busEvent s = if lineKind s.cd.label = .other then none else phaseEvent (lineKind s.cd.label) s := by
  simp [busEvent, next.fetch, cdTurn_busy busy, decodeCommand_isCommand, cdEvent, busy, mem]

theorem AtLine.step_eq (h : AtLine k start after s) : step s = .next (primitiveLine start after s) := by
  rw [step_line h.next h.busy, h.line s rfl rfl]

theorem AtLine.busEvent_eq (h : AtLine k start after s) : busEvent s = phaseEvent k s := by
  rw [busEvent_line h.next h.busy h.mem, h.kind, if_neg h.calls]

/-- A micro-phase leaves the dispatcher where it stands. -/
theorem AtLine.microPhase (h : AtLine k start after s) : AtLine k start after (microPhase start s) where
  next := h.next.of_same (by simp) (by simp) (by simp)
  busy := by rw [microPhase_cd]; exact h.busy
  mem := by rw [microPhase_cd]; exact h.mem
  kind := by rw [microPhase_cd]; exact h.kind
  calls := h.calls
  line := by rw [microPhase_cd, microPhase_params]; exact h.line

/-- A line runs as its primitive does, one step for each micro-phase, and `after` comes with the last one. -/
theorem RunsToEnd.line {es : List BusEvent} (run : RunsToEnd k (Machine.microPhase start) s es t)
    (h : AtLine k start after s) : RunsTo es.length s es (after t) := by
  induction run with
  | last event done idle =>
    have move := h.step_eq
    rw [primitiveLine, done, primitiveDone, if_pos (decide_eq_true idle)] at move
    simpa [h.busEvent_eq, event] using (RunsTo.nil _).cons move
  | more event moved unfinished _ ih =>
    have move := h.step_eq
    have rest := ih (moved ▸ h.microPhase)
    rw [primitiveLine, moved, if_neg (by simpa [primitiveDone] using unfinished)] at move
    simpa [h.busEvent_eq, event] using rest.cons move

end

/-- The state after a whole SEND of v (R75). -/
def sent (v : Byte) (s : State) : State :=
  { s with se := { s.se with sclk := true, mosi := v.getLsbD 0, txSr := v, bitCnt := 0, setCnt := 0 } }

/-- The state after a whole READ (R78). -/
def received (s : State) : State :=
  { s with
    se := { s.se with sclk := true, bitCnt := 0, rx0 := (upcomingPair s.env).1, rx1 := (upcomingPair s.env).2 }
    env := afterMiso 8 s.env }

theorem AtLine.send_runs {v : Byte} {after : State → State} {s : State} (h : AtLine .send (startSend v) after s)
    (settle : 1 ≤ s.params.tSettle) (idle : s.se.phase = .idle) :
    RunsTo (24 + s.params.tSettle) s (sendEvents v s.params.tSettle) (after (sent v s)) := by
  rw [← sendEvents_length v]
  exact RunsToEnd.line (send_runsToEnd v settle idle) h

theorem AtLine.read_runs {after : State → State} {s : State} (h : AtLine .read startRead after s)
    (idle : s.se.phase = .idle) : RunsTo 24 s (readEvents (upcomingMiso 8 s.env)) (after (received s)) := by
  have count : (readEvents (upcomingMiso 8 s.env)).length = 24 := by rw [readEvents_length, upcomingMiso_length]
  have run := RunsToEnd.line (read_runsToEnd idle) h
  rwa [count] at run

theorem afterMiso_agenda (n : Nat) (e : Env) : (afterMiso n e).agenda = e.agenda := by
  induction n generalizing e with
  | zero => rfl
  | succ n ih => rw [afterMiso, ih]; rfl

theorem afterMiso_query (n : Nat) (e : Env) : (afterMiso n e).query = e.query := by
  induction n generalizing e with
  | zero => rfl
  | succ n ih => rw [afterMiso, ih]; rfl

theorem CdNext.received {s : State} (h : CdNext s) : CdNext (received s) :=
  h.of_same (afterMiso_agenda 8 s.env) rfl (afterMiso_query 8 s.env)

/-! ### The labelled lines of a routine -/

/-- The dispatcher stands, undisturbed, at the start of line l of the routine of c, the engine idle. -/
structure AtLabel (c : Byte) (l : Label) (s : State) : Prop where
  next : CdNext s
  busy : s.cd.status = .busy
  cmd : s.cd.cmd = c
  label : s.cd.label = l
  mem : l ∈ labelsOf c
  idle : s.se.phase = .idle

section
variable {c v : Byte} {l l' : Label} {after : State → State} {s : State} (h : AtLabel c l s)
include h

/-- A line that calls the Shift Engine, given by what it does wherever the dispatcher stands at its label. -/
theorem AtLabel.atLine {k : LineKind} {start : ShiftEngine → ShiftEngine} (kind : lineKind l = k) (calls : k ≠ .other)
    (line : ∀ u : State, u.cd.label = l → u.params = s.params → lineOf c u = primitiveLine start after u) :
    AtLine k start after s where
  next := h.next
  busy := h.busy
  mem := by rw [h.label, h.cmd]; exact h.mem
  kind := by rw [h.label, kind]
  calls := calls
  line := fun u same params => by rw [h.cmd]; exact line u (by rw [same, h.label]) params

/-- A line that does not call the Shift Engine is one step with nothing on the bus. -/
theorem AtLabel.other_runs (kind : lineKind l = .other) : RunsTo 1 s [] (lineOf c s) := by
  have silent := busEvent_line h.next h.busy (by rw [h.label, h.cmd]; exact h.mem)
  rw [h.label, kind, if_pos rfl] at silent
  have move := step_line h.next h.busy
  rw [h.cmd] at move
  exact .silent move silent

/-- An emission into the free response mailbox places its packet in one step (R83). -/
theorem AtLabel.emission_runs {bs : List Byte} (kind : lineKind l = .other) (line : lineOf c s = emitLine bs after s)
    (free : s.tp.rspValid = false) : RunsTo 1 s [] (after (placePacket bs s)) := by
  have run := h.other_runs kind
  rwa [line, emitLine_places free] at run

theorem AtLabel.goto_sent (mem : l' ∈ labelsOf c) (v : Byte) : AtLabel c l' (goto l' (sent v s)) where
  next := h.next.of_same rfl rfl rfl
  busy := h.busy
  cmd := h.cmd
  label := rfl
  mem := mem
  idle := h.idle

theorem AtLabel.goto_received (mem : l' ∈ labelsOf c) (f : Bytes7 → Byte → Byte → Bytes7) :
    AtLabel c l' (goto l' (keepPair f (received s))) where
  next := h.next.received.of_same rfl rfl rfl
  busy := h.busy
  cmd := h.cmd
  label := rfl
  mem := mem
  idle := h.idle

theorem AtLabel.goto_sampleAux (mem : l' ∈ labelsOf c) : AtLabel c l' (goto l' (sampleAux s)) where
  next := h.next.of_same rfl rfl rfl
  busy := h.busy
  cmd := h.cmd
  label := rfl
  mem := mem
  idle := h.idle

/-- A register read: v is sent at l and a pair read at l'. -/
theorem AtLabel.query_runs (mem : l' ∈ labelsOf c) (kind : lineKind l = .send) (kind' : lineKind l' = .read)
    (send : ∀ u : State, u.cd.label = l → lineOf c u = sendLine v (goto l') u)
    (read : ∀ u : State, u.cd.label = l' → lineOf c u = readLine after u) (settle : 1 ≤ s.params.tSettle) :
    RunsTo (48 + s.params.tSettle) s
      (sendEvents v s.params.tSettle ++ readEvents (upcomingMiso 8 s.env)) (after (received (goto l' (sent v s)))) := by
  have first := (h.atLine kind nofun fun u label _ => send u label).send_runs settle h.idle
  have sentByte := h.goto_sent mem v
  have second := (sentByte.atLine kind' nofun fun u label _ => read u label).read_runs sentByte.idle
  have count : 48 + s.params.tSettle = 24 + s.params.tSettle + 24 := by omega
  rw [count]
  exact first.trans second

end

/-! ### Acceptance (41_dispatcher R82) -/

theorem firstLabel_mem_labelsOf {c : Byte} {l : Label} (h : firstLabel (decodeCommand c) = some l) :
    l ∈ labelsOf c := by
  rcases decodeCommand_cases c with ⟨rfl, -⟩ | ⟨rfl, -⟩ | ⟨rfl, -⟩ | ⟨rfl, -⟩ | ⟨-, e⟩
  · cases h; decide
  · cases h; decide
  · cases h; decide
  · cases h; decide
  · rw [e] at h; cases h; simp [labelsOf, e, firstLabel]

theorem acceptance_runs {s : State} {l : Label} (agenda : s.env.agenda = []) (idle : s.cd.status = .idle)
    (full : s.tp.cmdFull = true) (first : firstLabel (decodeCommand s.tp.cmdByte) = some l) :
    RunsTo 1 s [] (acceptCommand l s) := by
  have turn := (fetch_of_agenda_nil agenda).trans (cdTurn_waiting idle full)
  have silent : busEvent s = none := by simp [busEvent, turn, cdEvent, idle]
  exact .silent ((step_of_run turn).trans (exec_accepts idle full first)) silent

theorem acceptCommand_atLabel {s : State} {l : Label} (agenda : s.env.agenda = []) (engine : s.se.phase = .idle)
    (first : firstLabel (decodeCommand s.tp.cmdByte) = some l) : AtLabel s.tp.cmdByte l (acceptCommand l s) where
  next := cdNext_of_agenda_nil agenda
  busy := rfl
  cmd := rfl
  label := rfl
  mem := firstLabel_mem_labelsOf first
  idle := engine

/-! ### The write commands and the generic read (41_dispatcher R85, R86, R92) -/

/-- A write command: its byte is sent at l and its payload v at l', which ends the routine. -/
theorem writeCommand_runs {s : State} {c v : Byte} {l l' : Label} (agenda : s.env.agenda = [])
    (idle : s.cd.status = .idle) (full : s.tp.cmdFull = true) (byte : s.tp.cmdByte = c) (engine : s.se.phase = .idle)
    (settle : 1 ≤ s.params.tSettle) (first : firstLabel (decodeCommand c) = some l) (mem : l' ∈ labelsOf c)
    (kind : lineKind l = .send) (kind' : lineKind l' = .send)
    (sendByte : ∀ u : State, u.cd.label = l → lineOf c u = sendLine c (goto l') u)
    (sendPayload : ∀ u : State, u.cd.label = l' → u.params = s.params → lineOf c u = sendLine v endRoutine u) :
    RunsTo (49 + 2 * s.params.tSettle) s (sendEvents c s.params.tSettle ++ sendEvents v s.params.tSettle) { s with
      se := { s.se with sclk := true, mosi := v.getLsbD 0, txSr := v, bitCnt := 0, setCnt := 0 }
      cd := { s.cd with cmd := c, pto := false, label := l' }
      tp := { s.tp with cmdFull := false } } := by
  subst byte
  have accepted := acceptCommand_atLabel agenda engine first
  have sentByte := accepted.goto_sent mem s.tp.cmdByte
  have run := ((acceptance_runs agenda idle full first).trans
    ((accepted.atLine kind nofun fun u label _ => sendByte u label).send_runs settle engine)).trans
    ((sentByte.atLine kind' nofun sendPayload).send_runs settle engine)
  have count : 49 + 2 * s.params.tSettle = 1 + (24 + s.params.tSettle) + (24 + s.params.tSettle) := by omega
  rw [count]
  simpa [endRoutine, sent, goto, acceptCommand, idle] using run

/-- A generic read: its byte is sent, a pair read, and the pair emitted into the free mailbox. -/
theorem regRead_runs {s : State} (unnamed : namedCommandByte s.tp.cmdByte = false) (agenda : s.env.agenda = [])
    (idle : s.cd.status = .idle) (full : s.tp.cmdFull = true) (free : s.tp.rspValid = false)
    (engine : s.se.phase = .idle) (settle : 1 ≤ s.params.tSettle) :
    ∃ d : Dispatcher, d.status = .idle ∧ RunsTo (50 + s.params.tSettle) s
      (sendEvents s.tp.cmdByte s.params.tSettle ++ readEvents (upcomingMiso 8 s.env))
      { placePacket [(upcomingPair s.env).1, (upcomingPair s.env).2]
          (received (sent s.tp.cmdByte (acceptCommand .g0 s))) with cd := d } := by
  have first : firstLabel (decodeCommand s.tp.cmdByte) = some .g0 := by rw [decodeCommand_of_unnamed unnamed]; rfl
  have wf : (Instr.cmdRegRead s.tp.cmdByte).wf = true := by simp [Instr.wf, unnamed]
  have g1 : Label.g1 ∈ labelsOf s.tp.cmdByte := by simp [labelsOf_regRead wf]
  have g2 : Label.g2 ∈ labelsOf s.tp.cmdByte := by simp [labelsOf_regRead wf]
  have accepted := acceptCommand_atLabel agenda engine first
  have query := accepted.query_runs g1 rfl rfl
    (fun u label => by rw [lineOf_unnamed unnamed, regReadLine_g0 label])
    (fun u label => by rw [lineOf_unnamed unnamed, regReadLine_g1 label]) settle
  have emission := ((accepted.goto_sent g1 s.tp.cmdByte).goto_received g2
    fun d r0 r1 => { d with b0 := r0, b1 := r1 }).emission_runs rfl
    (by rw [lineOf_unnamed unnamed, regReadLine_g2 rfl]) free
  have run := ((acceptance_runs agenda idle full first).trans query).trans emission
  have count : 50 + s.params.tSettle = 1 + (48 + s.params.tSettle) + 1 := by omega
  rw [count]
  rw [List.append_nil] at run
  exact ⟨_, rfl, run⟩

/-! ### The motion query (41_dispatcher R91) -/

/-- A register read of a motion query, with what it keeps of the pair. -/
theorem motionQuery_runs {s : State} {l l' l'' : Label} {v : Byte} {f : Bytes7 → Byte → Byte → Bytes7}
    (h : AtLabel 0x02#8 l s) (settle : 1 ≤ s.params.tSettle)
    (hv : (l, v, l') ∈ [(Label.m0, 0x02#8, Label.m1), (.m2, 0x03#8, .m3), (.m4, 0x04#8, .m5), (.m6, 0x05#8, .m7)])
    (mem : l' ∈ labelsOf 0x02#8) (mem' : l'' ∈ labelsOf 0x02#8) (kind : lineKind l = .send)
    (kind' : lineKind l' = .read)
    (read : ∀ u : State, u.cd.label = l' → motionLine u = readLine (fun t => goto l'' (keepPair f t)) u) :
    RunsTo (48 + s.params.tSettle) s (sendEvents v s.params.tSettle ++ readEvents (upcomingMiso 8 s.env))
        (goto l'' (keepPair f (received (goto l' (sent v s))))) ∧
      AtLabel 0x02#8 l'' (goto l'' (keepPair f (received (goto l' (sent v s))))) :=
  ⟨h.query_runs mem kind kind' (fun _ label => motionLine_send label hv) read settle,
    (h.goto_sent mem v).goto_received mem' f⟩

end Sys2Proof.Machine

open Sys2Proof.Machine in
/-- Settles O28: the acceptance and the two SENDs of either write command. -/
theorem writeCommandsRunToTheirEnd : Obligations.WriteCommandsRunToTheirEnd := by
  unfold Obligations.WriteCommandsRunToTheirEnd
  rintro s c v (⟨rfl, rfl⟩ | ⟨rfl, rfl⟩) agenda idle full byte engine settle
  · exact writeCommand_runs agenda idle full byte engine settle (l := .w0) rfl (by decide) rfl rfl
      (fun _ => chipResetLine_w0) fun _ label params => by rw [← params]; exact chipResetLine_w1 label
  · exact writeCommand_runs agenda idle full byte engine settle (l := .n0) rfl (by decide) rfl rfl
      (fun _ => navCtrl2Line_n0) fun _ label params => by rw [← params]; exact navCtrl2Line_n1 label

open Sys2Proof Sys2Proof.Machine in
/-- Settles O29: the acceptance, one register read and the emission of its pair. -/
theorem regReadRunsToItsPacket : Obligations.RegReadRunsToItsPacket := by
  unfold Obligations.RegReadRunsToItsPacket
  intro s unnamed agenda idle full free engine settle
  obtain ⟨d, ended, steps, trace⟩ := regRead_runs unnamed agenda idle full free engine settle
  exact ⟨_, steps, ended, engine, rfl, rfl, packetBytes_placePacket rfl _, rfl, rfl, rfl, trace⟩

open Sys2Proof Sys2Proof.Machine in
/-- Settles O30: the acceptance, four register reads, the sample of AUX_IN and the emission. -/
theorem motionRunsToItsPacket : Obligations.MotionRunsToItsPacket := by
  unfold Obligations.MotionRunsToItsPacket
  rintro s _ _ _ _ byte agenda idle full free engine settle rfl rfl rfl rfl
  have first : firstLabel (decodeCommand s.tp.cmdByte) = some .m0 := by rw [byte]; rfl
  have m0 := acceptCommand_atLabel agenda engine first
  rw [byte] at m0
  obtain ⟨status, m2⟩ := motionQuery_runs (v := 0x02#8) (f := fun d _ _ => d) m0 settle (by decide) (by decide)
    (l'' := .m2) (by decide) rfl rfl fun u => motionLine_m1
  obtain ⟨deltaX, m4⟩ := motionQuery_runs (v := 0x03#8) m2 settle (by decide) (by decide)
    (l'' := .m4) (by decide) rfl rfl fun u => motionLine_m3
  obtain ⟨deltaY, m6⟩ := motionQuery_runs (v := 0x04#8) m4 settle (by decide) (by decide)
    (l'' := .m6) (by decide) rfl rfl fun u => motionLine_m5
  obtain ⟨quality, m8⟩ := motionQuery_runs (v := 0x05#8) m6 settle (by decide) (by decide)
    (l'' := .m8) (by decide) rfl rfl fun u => motionLine_m7
  have aux := m8.other_runs rfl
  have emission := (m8.goto_sampleAux (l' := .m9) (by decide)).emission_runs rfl
    (by rw [lineOf_motion, motionLine_m9 rfl]) free
  have run := ((((((acceptance_runs agenda idle full first).trans status).trans deltaX).trans deltaY).trans
    quality).trans aux).trans emission
  have count : 195 + 4 * s.params.tSettle = 1 + (48 + s.params.tSettle) + (48 + s.params.tSettle) +
    (48 + s.params.tSettle) + (48 + s.params.tSettle) + 1 + 1 := by omega
  rw [count]
  obtain ⟨steps, trace⟩ := run
  rw [List.append_nil, List.append_nil] at trace
  exact ⟨_, steps, rfl, engine, rfl, rfl, packetBytes_placePacket rfl _, rfl, rfl, trace⟩
end

section
/-! SUPPORT. The polls of a pixel grab (41_dispatcher R87 to R90) from P3 to what becomes of the pair (O31, O33), and a
grabbed pixel on its way through the host into the frames (O34). -/
namespace Sys2Proof.Machine

/-! ### One poll -/

/-- The state at P5 of a poll begun in s. -/
def polled (s : State) : State := goto .p5 (received (goto .p4 (sent 0x0B#8 s)))

/-- Both bytes that the next READ returns have their valid bit set (30_encoding R61). -/
def NextPairValid (e : Env) : Prop := (upcomingPair e).1.getLsbD 7 = true ∧ (upcomingPair e).2.getLsbD 7 = true

/-- From P3 a poll runs to its test, which is its last step. -/
theorem poll_runs {s : State} (h : AtLabel 0x0B#8 .p3 s) (settle : 1 ≤ s.params.tSettle) :
    RunsTo (49 + s.params.tSettle) s (sendEvents 0x0B#8 s.params.tSettle ++ readEvents (upcomingMiso 8 s.env))
      (pixelTest (polled s)) := by
  have query := h.query_runs (l' := .p4) (by decide) rfl rfl (fun _ => pixelGrabLine_p3) (fun _ => pixelGrabLine_p4)
    settle
  have p5 : AtLabel 0x0B#8 .p5 (polled s) :=
    (h.goto_sent (by decide) 0x0B#8).goto_received (by decide) fun d _ _ => d
  have test := p5.other_runs rfl
  rw [lineOf_pixelGrab, pixelGrabLine_p5 rfl] at test
  have run := query.trans test
  rw [List.append_nil] at run
  have count : 49 + s.params.tSettle = 48 + s.params.tSettle + 1 := by omega
  rwa [count]

theorem pixelTest_polled_keeps {s : State} (valid : NextPairValid s.env) :
    pixelTest (polled s) = pixelKeep (polled s) :=
  pixelTest_keeps valid.1 valid.2

theorem pixelTest_polled_discards {s : State} (invalid : ¬NextPairValid s.env) :
    pixelTest (polled s) = pixelDiscard (polled s) := by
  refine pixelTest_discards ?_
  rw [NextPairValid, not_and_or, Bool.not_eq_true, Bool.not_eq_true] at invalid
  exact invalid

/-- A poll that does not time out writes `STEP`, the poll count and the assembly buffer of the dispatcher. -/
theorem pixelTest_polled {s : State}
    (below : ¬NextPairValid s.env → ∀ limit, s.params.pixPollLimit = some limit → s.cd.pollCnt + 1 ≠ limit) :
    ∃ l n rb, pixelTest (polled s) =
        { polled s with cd := { s.cd with label := l, pollCnt := n, rb := rb } } ∧
      (NextPairValid s.env → l = .p7 ∧ n = s.cd.pollCnt ∧ rb = { s.cd.rb with
        b0 := (upcomingPair s.env).1 &&& 0x7F#8, b1 := (upcomingPair s.env).2 &&& 0x7F#8 }) ∧
      (¬NextPairValid s.env → l = .p3 ∧ rb = s.cd.rb ∧ (s.params.pixPollLimit = none → n = s.cd.pollCnt) ∧
        (s.params.pixPollLimit ≠ none → n = s.cd.pollCnt + 1)) := by
  by_cases valid : NextPairValid s.env
  · exact ⟨_, _, _, pixelTest_polled_keeps valid, fun _ => ⟨rfl, rfl, rfl⟩, fun invalid => absurd valid invalid⟩
  · rw [pixelTest_polled_discards valid]
    cases limit : s.params.pixPollLimit with
    | none =>
      exact ⟨_, _, _, pixelDiscard_unlimited limit, fun h => absurd h valid,
        fun _ => ⟨rfl, rfl, fun _ => rfl, fun h => absurd rfl h⟩⟩
    | some n =>
      exact ⟨_, _, _, pixelDiscard_counts limit (below valid n limit), fun h => absurd h valid,
        fun _ => ⟨rfl, rfl, nofun, fun _ => rfl⟩⟩

/-! ### Any number of polls that find no valid pair (41_dispatcher R89) -/

/-- The samples that are supplied are the ones that come, and they are used up. -/
theorem upcomingMiso_supplied {bits more : List (Bool × Bool)} {e : Env} (h : e.sensorBits = bits ++ more) :
    upcomingMiso bits.length e = bits ∧ (afterMiso bits.length e).sensorBits = more := by
  induction bits generalizing e with
  | nil => exact ⟨rfl, h⟩
  | cons b bits ih =>
    have now : misoNow e = b := by simp [misoNow, h]
    obtain ⟨next, left⟩ := ih (e := misoTaken e) (by simp [misoTaken, h])
    exact ⟨by rw [List.length_cons, upcomingMiso, now, next], left⟩

/-- The first sample gives the valid bits, MSB first (30_encoding R61). -/
theorem nextPairValid_iff (e : Env) : NextPairValid e ↔ (upcomingMiso 8 e).head? = some (true, true) := by
  have first : wireBits (upcomingPair e).1 = (upcomingMiso 8 e).map Prod.fst :=
    wireBits_byteOfWire (by simp [upcomingMiso_length])
  have second : wireBits (upcomingPair e).2 = (upcomingMiso 8 e).map Prod.snd :=
    wireBits_byteOfWire (by simp [upcomingMiso_length])
  have bit0 : (upcomingPair e).1.getLsbD 7 = (misoNow e).1 := List.head_eq_of_cons_eq first
  have bit1 : (upcomingPair e).2.getLsbD 7 = (misoNow e).2 := List.head_eq_of_cons_eq second
  rw [NextPairValid, bit0, bit1, upcomingMiso, List.head?_cons, Option.some_inj, Prod.ext_iff]

theorem goto_of_label {s : State} {l : Label} (h : s.cd.label = l) : goto l s = s := by
  subst h
  rfl

theorem polls_run {rs : List (List (Bool × Bool))} {s : State} {more : List (Bool × Bool)}
    (invalid : ∀ r ∈ rs, r.length = 8 ∧ r.head? ≠ some (true, true)) (supply : s.env.sensorBits = rs.flatten ++ more)
    (unlimited : s.params.pixPollLimit = none) (h : AtLabel 0x0B#8 .p3 s) (settle : 1 ≤ s.params.tSettle) :
    ∃ t, runSteps (rs.length * (49 + s.params.tSettle)) s = .next t ∧ t.cd = s.cd ∧ t.tp = s.tp ∧ t.oa = s.oa ∧
      t.env.sensorBits = more := by
  induction rs generalizing s with
  | nil => exact ⟨s, by rw [List.length_nil, Nat.zero_mul]; rfl, rfl, rfl, rfl, supply⟩
  | cons r rs ih =>
    obtain ⟨length, head⟩ := invalid r List.mem_cons_self
    rw [List.flatten_cons, List.append_assoc] at supply
    obtain ⟨samples, left⟩ := upcomingMiso_supplied supply
    rw [length] at samples left
    have discards : pixelTest (polled s) = goto .p3 (polled s) := by
      rw [pixelTest_polled_discards (by rwa [nextPairValid_iff, samples])]
      exact pixelDiscard_unlimited unlimited
    obtain ⟨steps, -⟩ := poll_runs h settle
    rw [discards] at steps
    have cd : (goto .p3 s).cd = s.cd := congrArg (fun u => u.cd) (goto_of_label h.label)
    have again : AtLabel 0x0B#8 .p3 (goto .p3 (polled s)) :=
      ((h.goto_sent (l' := .p4) (by decide) 0x0B#8).goto_received (by decide) fun d _ _ => d)
    obtain ⟨t, rest, same, tp, oa, used⟩ :=
      ih (s := goto .p3 (polled s)) (fun r mem => invalid r (List.mem_cons_of_mem _ mem)) left unlimited again settle
    refine ⟨t, ?_, same.trans cd, tp, oa, used⟩
    rw [List.length_cons, Nat.succ_mul, Nat.add_comm, runSteps_add _ steps]
    exact rest

/-! ### A grabbed pixel on its way into the frames (42_transport R95, 43_decoder R106) -/

/-- P2 writes `PIX_K`, and the dispatcher goes on to the next pixel or ends. -/
theorem pixelNext_setPixK (k : Nat) {t : State} (busy : t.cd.status = .busy) :
    ∃ d : Dispatcher, pixelNext (setPixK k t) = { t with cd := d } ∧ d.pixK = k ∧
      (if k = 361 then d.status = .idle else d.status = .busy ∧ d.label = .p3) := by
  by_cases last : k = 361
  · exact ⟨_, pixelNext_last last, rfl, by rw [if_pos last]⟩
  · exact ⟨_, pixelNext_more last, rfl, by rw [if_neg last]; exact ⟨busy, rfl⟩⟩

/-- From P3 a valid pair goes, its valid bits cleared, into the free response mailbox. -/
theorem grabbedPixel_run {s : State} (h : AtLabel 0x0B#8 .p3 s) (settle : 1 ≤ s.params.tSettle)
    (free : s.tp.rspValid = false) (valid : NextPairValid s.env) :
    ∃ d : Dispatcher, runSteps (50 + s.params.tSettle) s = .next
        { placePacket [(upcomingPair s.env).1 &&& 0x7F#8, (upcomingPair s.env).2 &&& 0x7F#8]
            (received (sent 0x0B#8 s)) with cd := d } ∧
      d.pixK = s.cd.pixK + 1 ∧
      (if s.cd.pixK + 1 = 361 then d.status = .idle else d.status = .busy ∧ d.label = .p3) := by
  obtain ⟨poll, -⟩ := poll_runs h settle
  rw [pixelTest_polled_keeps valid] at poll
  have p7 : AtLabel 0x0B#8 .p7 (pixelKeep (polled s)) :=
    ((h.goto_sent (l' := .p4) (by decide) 0x0B#8).goto_received (by decide)
      fun d r0 r1 => { d with b0 := clearValid r0, b1 := clearValid r1 })
  obtain ⟨emission, -⟩ := p7.emission_runs rfl (by rw [lineOf_pixelGrab, pixelGrabLine_p7 rfl]) free
  obtain ⟨d, next, goesOn⟩ := pixelNext_setPixK (s.cd.pixK + 1)
    (t := placePacket (pairPacket (pixelKeep (polled s)).cd.rb) (pixelKeep (polled s))) h.busy
  have count : 50 + s.params.tSettle = 49 + s.params.tSettle + 1 := by omega
  rw [count, runSteps_add 1 poll]
  exact ⟨d, emission.trans (congrArg _ next), goesOn⟩

/-- The host's wait ends in the read of the packet, and the pair read is stored. -/
theorem hostStores_run {s : State} {rest : List Turn} {p0 p1 : Byte} {n : Nat}
    (agenda : s.env.agenda = .awaitRead n :: .oaStoreReply :: rest) (waits : s.tp.rspValid = true)
    (fits : s.tp.rspLen ≤ n) (packet : packetBytes s.tp = [p0, p1]) :
    runSteps 2 s = .next { s with
      tp := { s.tp with rspValid := false }
      oa := storePairInto p0 p1 s.oa
      env := { s.env with agenda := rest, reply := .bytes [p0, p1] } } := by
  have read : turnOf (.awaitRead n) s = .run (.hostRead n) (dropTurn s) := by simp [turnOf, waits]
  have taken : step s = .next { s with
      tp := { s.tp with rspValid := false }
      env := { s.env with agenda := .oaStoreReply :: rest, reply := .bytes [p0, p1] } } := by
    rw [step_of_issued agenda read]
    simp [exec, execHostRead, waits, Nat.not_lt.mpr fits, packet, answerHost, takePacket]
  rw [runSteps_succ taken, runSteps_succ (step_of_issued (i := .storePixelPair p0 p1) rfl rfl)]
  rfl

theorem frame0At_storePairInto_same {s t : State} {p0 p1 : Byte} (h : t.oa = storePairInto p0 p1 s.oa) :
    frame0At t s.oa.pixIdx.val = some p0 := by
  rw [frame0At, h]
  exact memRead_memWrite_same ..

theorem frame1At_storePairInto_same {s t : State} {p0 p1 : Byte} (h : t.oa = storePairInto p0 p1 s.oa) :
    frame1At t s.oa.pixIdx.val = some p1 := by
  rw [frame1At, h]
  exact memRead_memWrite_same ..

theorem framesAt_storePairInto_other {s t : State} {p0 p1 : Byte} (h : t.oa = storePairInto p0 p1 s.oa) {j : Nat}
    (other : j ≠ s.oa.pixIdx.val) : frame0At t j = frame0At s j ∧ frame1At t j = frame1At s j := by
  rw [frame0At, frame1At, h]
  exact ⟨memRead_memWrite_other _ _ _ _ other, memRead_memWrite_other _ _ _ _ other⟩

theorem nextPixIdx_val (i : Fin 361) : (nextPixIdx i).val = (i.val + 1) % 361 := Fin.val_add i 1

end Sys2Proof.Machine

open Sys2Proof.Machine in
/-- Settles O31: the poll runs to its test, and the test keeps or discards the pair. -/
theorem pixelPollKeepsOrDiscardsThePair : Obligations.PixelPollKeepsOrDiscardsThePair := by
  unfold Obligations.PixelPollKeepsOrDiscardsThePair
  intro s valid agenda busy cmd p3 engine settle isValid below
  obtain rfl : valid = NextPairValid s.env := propext isValid
  obtain ⟨steps, trace⟩ := poll_runs ⟨cdNext_of_agenda_nil agenda, busy, cmd, p3, by decide, engine⟩ settle
  obtain ⟨l, n, rb, test, keeps, discards⟩ := pixelTest_polled below
  rw [test] at steps
  exact ⟨_, steps, busy, rfl, engine, rfl, rfl, rfl, rfl, rfl, trace, keeps, discards⟩

open Sys2Proof.Machine in
/-- Settles O33: by induction on the polls, each of which leads back to the same P3. -/
theorem unboundedPollGoesOnForEver : Obligations.UnboundedPollGoesOnForEver := by
  unfold Obligations.UnboundedPollGoesOnForEver
  intro rs s more invalid supply agenda unlimited busy cmd p3 engine settle
  have start : AtLabel 0x0B#8 .p3 s := ⟨cdNext_of_agenda_nil agenda, busy, cmd, p3, by decide, engine⟩
  obtain ⟨t, steps, same, tp, oa, left⟩ := polls_run invalid supply unlimited start settle
  exact ⟨t, steps, same, by rw [cdBusy_iff, same, busy], tp, oa, left⟩

open Sys2Proof.Machine in
/-- Settles O34: the poll, the emission at P7, and the host's read and store. -/
theorem grabbedPixelReachesTheFrames : Obligations.GrabbedPixelReachesTheFrames := by
  unfold Obligations.GrabbedPixelReachesTheFrames
  intro s rest agenda busy cmd p3 engine settle free valid0 valid1
  have next : CdNext s := ⟨(cdMoves_of_awaitRead agenda free).1, by simp [agenda]⟩
  obtain ⟨d, grabbed, pixK, goesOn⟩ :=
    grabbedPixel_run ⟨next, busy, cmd, p3, by decide, engine⟩ settle free ⟨valid0, valid1⟩
  have stored := hostStores_run (n := 2) (s := { placePacket
    [(upcomingPair s.env).1 &&& 0x7F#8, (upcomingPair s.env).2 &&& 0x7F#8] (received (sent 0x0B#8 s)) with cd := d })
    ((afterMiso_agenda 8 s.env).trans agenda) rfl le_rfl (packetBytes_placePacket rfl _)
  have count : 52 + s.params.tSettle = 50 + s.params.tSettle + 2 := by omega
  rw [count, runSteps_add 2 grabbed]
  exact ⟨_, stored, frame0At_storePairInto_same rfl, frame1At_storePairInto_same rfl,
    fun j => framesAt_storePairInto_other rfl, nextPixIdx_val _, pixK, goesOn, engine, rfl, rfl, rfl⟩
end

section
/-! SUPPORT. The two host operations of the transport (42_transport R94, R95), from what a host write and a host
read can do (`execHostWrite_cases`, `execHostRead_cases`): each clause leaves one of those cases. -/
namespace Sys2Proof.Machine

/-- One byte into a free command mailbox is posted. -/
theorem execHostWrite_free (c : Byte) {s : State} (free : s.tp.cmdFull = false) :
    execHostWrite [c] s = .next (answerHost .ok (postCommand c s)) := by
  rcases execHostWrite_cases [c] s with ⟨_, same, -, posted⟩ | ⟨length | full, -⟩
  · cases same; exact posted
  · exact absurd rfl length
  · simp [free] at full

/-- A write of another length, or into a full mailbox, fails. -/
theorem execHostWrite_refused {bytes : List Byte} {s : State}
    (refused : bytes.length ≠ 1 ∨ s.tp.cmdFull = true) :
    execHostWrite bytes s = .next (answerHost .fail s) := by
  rcases execHostWrite_cases bytes s with ⟨_, rfl, free, -⟩ | ⟨-, failed⟩
  · simp [free] at refused
  · exact failed

/-- With no packet waiting the host reads `[]`. -/
theorem execHostRead_empty (n : Nat) {s : State} (empty : s.tp.rspValid = false) :
    execHostRead n s = .next (answerHost (.bytes []) s) := by
  rcases execHostRead_cases n s with ⟨-, read⟩ | ⟨waits, -⟩ | ⟨waits, -⟩
  · exact read
  · simp [empty] at waits
  · simp [empty] at waits

/-- A waiting packet longer than the host allows stays where it is. -/
theorem execHostRead_tooLong {n : Nat} {s : State} (waits : s.tp.rspValid = true) (long : n < s.tp.rspLen) :
    execHostRead n s = .next (answerHost .fail s) := by
  rcases execHostRead_cases n s with ⟨empty, -⟩ | ⟨-, -, failed⟩ | ⟨-, fits, -⟩
  · simp [waits] at empty
  · exact failed
  · omega

/-- A waiting packet that fits is taken whole. -/
theorem execHostRead_fits {n : Nat} {s : State} (waits : s.tp.rspValid = true) (fits : s.tp.rspLen ≤ n) :
    execHostRead n s = .next (answerHost (.bytes (packetBytes s.tp)) (takePacket s)) := by
  rcases execHostRead_cases n s with ⟨empty, -⟩ | ⟨-, long, -⟩ | ⟨-, -, taken⟩
  · simp [waits] at empty
  · omega
  · exact taken

end Sys2Proof.Machine

open Sys2Proof.Machine in
/-- Settles O35: a byte meets a free mailbox, or the write is refused. -/
theorem hostWriteAcceptsOneByteWhenFree : Obligations.HostWriteAcceptsOneByteWhenFree := by
  unfold Obligations.HostWriteAcceptsOneByteWhenFree
  intro bytes s
  refine ⟨?accepted, ?refused⟩
  case accepted => rintro c rfl free; exact execHostWrite_free c free
  case refused => exact execHostWrite_refused

open Sys2Proof.Machine in
/-- Settles O36: nothing waits, the packet is too long, or it fits. -/
theorem hostReadTakesAWholePacketOrNothing : Obligations.HostReadTakesAWholePacketOrNothing := by
  unfold Obligations.HostReadTakesAWholePacketOrNothing
  intro maxLen s
  exact ⟨execHostRead_empty maxLen, execHostRead_tooLong, execHostRead_fits⟩
end

section
/-! SUPPORT. The decoder and the buffer (43_decoder R104 to R110): the accumulator words as integers, sequences of
OA operations as one update of the OA, and what a list of motion packets and a list of pixel pairs leave behind. -/
namespace Sys2Proof.Machine

/-! ### Accumulator words as integers (00_scope R12, D22) -/

theorem toInt_wrapAcc (z : Int) : (wrapAcc z).toInt = z.bmod (2 ^ 32) := BitVec.toInt_ofInt ..

theorem toInt_wrapAcc_of_fits {z : Int} (low : -(2 ^ 31) ≤ z) (high : z < 2 ^ 31) : (wrapAcc z).toInt = z := by
  rw [toInt_wrapAcc, Int.bmod_eq_of_le (by omega) (by omega)]

theorem toInt_wrapAcc_s8 (b : Byte) : (wrapAcc (s8 b)).toInt = b.toInt := by
  have low := b.le_toInt
  have high := b.toInt_lt
  exact toInt_wrapAcc_of_fits (by unfold s8; omega) (by unfold s8; omega)

theorem toInt_wrapAcc_u8 (b : Byte) : (wrapAcc (u8 b)).toInt = b.toNat := by
  have high := b.isLt
  exact toInt_wrapAcc_of_fits (by simp [u8]) (by simp [u8]; omega)

theorem toInt_accAdd (a : Acc) (z : Int) : (accAdd a z).toInt = (a.toInt + z).bmod (2 ^ 32) := toInt_wrapAcc _

@[simp] theorem accAdd_zero (a : Acc) : accAdd a 0 = a := by simp [accAdd, wrapAcc]

/-- Wrapping once at the end of a sum is wrapping at each step. -/
@[simp] theorem accAdd_accAdd (a : Acc) (x y : Int) : accAdd (accAdd a x) y = accAdd a (x + y) := by
  apply BitVec.eq_of_toInt_eq
  simp only [toInt_accAdd, Int.bmod_add_bmod, Int.add_assoc]

@[simp] theorem zero_accAdd (z : Int) : accAdd 0 z = wrapAcc z := by simp [accAdd]

/-! ### Sequences of operations on the OA alone -/

/-- Operations that each update the OA alone update it one after the other. -/
theorem execAll_oaUpdates {α : Type} {op : α → Instr} {update : α → Odometry → Odometry}
    (each : ∀ a s, exec (op a) s = .next { s with oa := update a s.oa }) (as : List α) (s : State) :
    execAll (as.map op) s = .next { s with oa := as.foldl (fun o a => update a o) s.oa } := by
  induction as generalizing s with
  | nil => rfl
  | cons a as ih => simp only [List.map_cons, execAll, each, ih, List.foldl_cons]

/-! ### Motion packets (R104, R105) -/

/-- The OA after a list of motion packets. -/
def decodePackets (ds : List Bytes7) (o : Odometry) : Odometry :=
  ds.foldl (fun o d => decodeMotionInto d.b0 d.b1 d.b2 d.b3 d.b4 d.b5 o) o

theorem execAll_decodeOp (ds : List Bytes7) (s : State) :
    execAll (ds.map decodeOp) s = .next { s with oa := decodePackets ds s.oa } :=
  execAll_oaUpdates (fun _ _ => rfl) ds s

@[simp] theorem decodePackets_cons (d : Bytes7) (ds : List Bytes7) (o : Odometry) :
    decodePackets (d :: ds) o = decodePackets ds (decodeMotionInto d.b0 d.b1 d.b2 d.b3 d.b4 d.b5 o) := rfl

@[simp] theorem deltaSum_nil (f : Bytes7 → Byte) : deltaSum f [] = 0 := rfl

@[simp] theorem deltaSum_cons (f : Bytes7 → Byte) (d : Bytes7) (ds : List Bytes7) :
    deltaSum f (d :: ds) = s8 (f d) + deltaSum f ds := rfl

theorem decodePackets_sums (ds : List Bytes7) (o : Odometry) :
    (decodePackets ds o).absX =
        ⟨accAdd o.absX.s0 (deltaSum Bytes7.b0 ds), accAdd o.absX.s1 (deltaSum Bytes7.b1 ds)⟩ ∧
      (decodePackets ds o).absY =
        ⟨accAdd o.absY.s0 (deltaSum Bytes7.b2 ds), accAdd o.absY.s1 (deltaSum Bytes7.b3 ds)⟩ := by
  induction ds generalizing o with
  | nil => simp [decodePackets]
  | cons d ds ih => simpa using ih (decodeMotionInto d.b0 d.b1 d.b2 d.b3 d.b4 d.b5 o)

/-- From zero sums each sum is the wrapped sum of its deltas. -/
theorem decodePackets_sums_of_zero (ds : List Bytes7) {o : Odometry} (x : o.absX = ⟨0, 0⟩) (y : o.absY = ⟨0, 0⟩) :
    (decodePackets ds o).absX = ⟨wrapAcc (deltaSum Bytes7.b0 ds), wrapAcc (deltaSum Bytes7.b1 ds)⟩ ∧
      (decodePackets ds o).absY = ⟨wrapAcc (deltaSum Bytes7.b2 ds), wrapAcc (deltaSum Bytes7.b3 ds)⟩ := by
  obtain ⟨sumX, sumY⟩ := decodePackets_sums ds o
  simp only [x, y, zero_accAdd] at sumX sumY
  exact ⟨sumX, sumY⟩

theorem sessionReset_sums_zero {s t : State} (h : exec .sessionReset s = .next t) :
    t.oa.absX = ⟨0, 0⟩ ∧ t.oa.absY = ⟨0, 0⟩ := by
  cases h
  exact ⟨rfl, rfl⟩

theorem PowerOnValues.sums_zero {s : State} (h : PowerOnValues s) : s.oa.absX = ⟨0, 0⟩ ∧ s.oa.absY = ⟨0, 0⟩ := by
  obtain ⟨-, -, -, -, -, -, -, -, x, y, -⟩ := h
  exact ⟨x, y⟩

/-! ### Pixel pairs (R106, R107) -/

/-- The OA after a list of pixel pairs. -/
def storePairs (ps : List (Byte × Byte)) (o : Odometry) : Odometry :=
  ps.foldl (fun o p => storePairInto p.1 p.2 o) o

theorem execAll_storePixelPair (ps : List (Byte × Byte)) (s : State) :
    execAll (ps.map fun p => .storePixelPair p.1 p.2) s = .next { s with oa := storePairs ps s.oa } :=
  execAll_oaUpdates (fun _ _ => rfl) ps s

@[simp] theorem storePairs_cons (p : Byte × Byte) (ps : List (Byte × Byte)) (o : Odometry) :
    storePairs (p :: ps) o = storePairs ps (storePairInto p.1 p.2 o) := rfl

theorem storePairs_pixIdx (ps : List (Byte × Byte)) (o : Odometry) :
    (storePairs ps o).pixIdx.val = (o.pixIdx.val + ps.length) % 361 := by
  induction ps generalizing o with
  | nil => exact (Nat.mod_eq_of_lt o.pixIdx.isLt).symm
  | cons p ps ih =>
    rw [storePairs_cons, ih, storePairInto_pixIdx, nextPixIdx_val, List.length_cons]
    omega

/-- An element at none of the indices that the pairs go to reads as before. -/
theorem storePairs_other (ps : List (Byte × Byte)) (o : Odometry) {a : Nat}
    (other : ∀ j < ps.length, a ≠ (o.pixIdx.val + j) % 361) :
    memRead (storePairs ps o).frame0 a = memRead o.frame0 a ∧
      memRead (storePairs ps o).frame1 a = memRead o.frame1 a := by
  induction ps generalizing o with
  | nil => exact ⟨rfl, rfl⟩
  | cons p ps ih =>
    have first : a ≠ o.pixIdx.val := by
      simpa [Nat.mod_eq_of_lt o.pixIdx.isLt] using other 0 (by simp)
    have later : ∀ j < ps.length, a ≠ ((storePairInto p.1 p.2 o).pixIdx.val + j) % 361 := fun j lt => by
      have next := other (j + 1) (by simpa using lt)
      rw [storePairInto_pixIdx, nextPixIdx_val]
      omega
    simpa [memRead_memWrite_other _ _ _ _ first] using ih (storePairInto p.1 p.2 o) later

/-- No more pairs than elements: pair j stays at the j-th index after `PIX_IDX`, since no later pair comes round
to it. -/
theorem storePairs_element {ps : List (Byte × Byte)} (o : Odometry) (short : ps.length ≤ 361) {j : Nat}
    {p : Byte × Byte} (pair : ps[j]? = some p) :
    memRead (storePairs ps o).frame0 ((o.pixIdx.val + j) % 361) = some p.1 ∧
      memRead (storePairs ps o).frame1 ((o.pixIdx.val + j) % 361) = some p.2 := by
  induction ps generalizing o j with
  | nil => simp at pair
  | cons q ps ih =>
    rw [List.length_cons] at short
    cases j with
    | zero =>
      obtain rfl : q = p := by simpa using pair
      have index := o.pixIdx.isLt
      have kept := storePairs_other ps (storePairInto q.1 q.2 o) (a := o.pixIdx.val) fun j lt => by
        rw [storePairInto_pixIdx, nextPixIdx_val]
        omega
      simpa [Nat.mod_eq_of_lt index] using kept
    | succ j =>
      have rest := ih (storePairInto q.1 q.2 o) (by omega) (by simpa using pair)
      have index : ((storePairInto q.1 q.2 o).pixIdx.val + j) % 361 = (o.pixIdx.val + (j + 1)) % 361 := by
        rw [storePairInto_pixIdx, nextPixIdx_val]
        omega
      rwa [index] at rest

/-! ### Who writes the sums and the button flag (R105, R110) -/

theorem emitLine_id_oa (bs : List Byte) (s : State) : (emitLine bs id s).oa = s.oa := by
  rcases emitLine_cases bs id s with ⟨-, waits⟩ | ⟨-, places⟩
  · rw [waits]
  · rw [places]; rfl

/-- Only `DECODE_MOTION`, `SESSION_RESET` and `SET_BTN` write the sums or the button flag: the operations of the
CD/SE agent and of the host keep the whole OA, the other OA operations write other parts of it. -/
theorem exec_keeps_or_writes_sums_button {i : Instr} {s t : State} (h : exec i s = .next t) :
    (t.oa.absX = s.oa.absX ∧ t.oa.absY = s.oa.absY ∧ t.oa.btnRel = s.oa.btnRel) ∨
      (∃ b0 b1 b2 b3 b4 b5 b6, i = .decodeMotion b0 b1 b2 b3 b4 b5 b6) ∨ i = .sessionReset ∨ ∃ b, i = .setBtn b := by
  have untouched (same : t.oa = s.oa) :
      t.oa.absX = s.oa.absX ∧ t.oa.absY = s.oa.absY ∧ t.oa.btnRel = s.oa.btnRel := by simp [same]
  cases i with
  | decodeMotion b0 b1 b2 b3 b4 b5 b6 => exact .inr (.inl ⟨b0, b1, b2, b3, b4, b5, b6, rfl⟩)
  | sessionReset => exact .inr (.inr (.inl rfl))
  | setBtn b => exact .inr (.inr (.inr ⟨b, rfl⟩))
  | cmdChipReset | cmdNavCtrl2 | cmdPixelGrab | cmdMotion | cmdRegRead _ =>
    obtain ⟨same, -⟩ := exec_command_keeps rfl h
    exact .inl (untouched same)
  | send v => cases h; exact .inl (untouched (sendPhase_oa v s))
  | read => cases h; exact .inl (untouched (readPhase_oa s))
  | emit bs => cases h; exact .inl (untouched (emitLine_id_oa bs s))
  | hostWrite bs =>
    rcases execHostWrite_cases bs s with ⟨_, -, -, e⟩ | ⟨-, e⟩ <;> cases e.symm.trans h <;>
      exact .inl (untouched rfl)
  | hostRead n =>
    rcases execHostRead_cases n s with ⟨-, e⟩ | ⟨-, -, e⟩ | ⟨-, -, e⟩ <;> cases e.symm.trans h <;>
      exact .inl (untouched rfl)
  | tick =>
    rcases execTick_cases h with rfl | ⟨-, code, -, rfl⟩ | ⟨-, hx, hy, -, -, -, rfl⟩ <;>
      exact .inl ⟨rfl, rfl, rfl⟩
  | hostStatus | storePixelPair | setMode | setCal | reservedOa7 | reservedOa8F =>
    cases h; exact .inl ⟨rfl, rfl, rfl⟩

end Sys2Proof.Machine

open Sys2Proof Sys2Proof.Machine in
/-- Settles O40: from zero sums a list of packets leaves the wrapped sums, and of the writers of the sums and the
button flag `SET_BTN` leaves the sums. -/
theorem absoluteSumsAreTheWrappedDeltaSums : Obligations.AbsoluteSumsAreTheWrappedDeltaSums := by
  unfold Obligations.AbsoluteSumsAreTheWrappedDeltaSums
  refine ⟨fun s ds start => ?sums, fun i s t h changed => ?writers⟩
  case sums =>
    have zero : s.oa.absX = ⟨0, 0⟩ ∧ s.oa.absY = ⟨0, 0⟩ := by
      rcases start with ⟨u, reset⟩ | values
      · exact sessionReset_sums_zero reset
      · exact values.sums_zero
    obtain ⟨x, y⟩ := zero
    obtain ⟨sumX, sumY⟩ := decodePackets_sums_of_zero ds x y
    refine ⟨_, execAll_decodeOp ds s, ?_⟩
    rw [sumX, sumY]
    exact ⟨toInt_wrapAcc _, toInt_wrapAcc _, toInt_wrapAcc _, toInt_wrapAcc _,
      toInt_wrapAcc_of_fits, toInt_wrapAcc_of_fits, toInt_wrapAcc_of_fits, toInt_wrapAcc_of_fits⟩
  case writers =>
    rcases exec_keeps_or_writes_sums_button h with ⟨x, y, -⟩ | decoded | reset | ⟨b, rfl⟩
    · simp [x, y] at changed
    · exact .inr decoded
    · exact .inl reset
    · cases h; simp at changed

open Sys2Proof Sys2Proof.Machine in
/-- Settles O42: pair j stays at index j, and 361 steps of the index come round to 0. -/
theorem fullGrabFillsBothFramesInOrder : Obligations.FullGrabFillsBothFramesInOrder := by
  unfold Obligations.FullGrabFillsBothFramesInOrder
  intro ps s full start
  refine ⟨_, execAll_storePixelPair ps s, ?index, fun j p pair => ?element⟩
  case index => exact Fin.ext (by simp [storePairs_pixIdx, start, full])
  case element =>
    obtain ⟨within, -⟩ := List.getElem?_eq_some_iff.mp pair
    have place : (s.oa.pixIdx.val + j) % 361 = j := by
      rw [start, Fin.val_zero, Nat.zero_add, Nat.mod_eq_of_lt (full ▸ within)]
    have stored := storePairs_element s.oa full.le pair
    rwa [place] at stored

open Sys2Proof Sys2Proof.Machine in
/-- Settles O39: the updated buffer is `decodeMotionInto`, its words read as integers. -/
theorem decodeMotionUpdatesTheBuffer : Obligations.DecodeMotionUpdatesTheBuffer := by
  unfold Obligations.DecodeMotionUpdatesTheBuffer
  intro b0 b1 b2 b3 b4 b5 b6 s
  exact ⟨decodeMotionInto b0 b1 b2 b3 b4 b5 s.oa, rfl, rfl,
    toInt_accAdd .., toInt_accAdd .., toInt_accAdd .., toInt_accAdd ..,
    toInt_wrapAcc_s8 b0, toInt_wrapAcc_s8 b1, toInt_wrapAcc_s8 b2, toInt_wrapAcc_s8 b3,
    toInt_wrapAcc_u8 b4, toInt_wrapAcc_u8 b5⟩

open Sys2Proof Sys2Proof.Machine in
/-- Settles O41: a write at `PIX_IDX` is read back there and leaves the other elements. -/
theorem storePixelPairWritesOneElementOfEachFrame : Obligations.StorePixelPairWritesOneElementOfEachFrame := by
  unfold Obligations.StorePixelPairWritesOneElementOfEachFrame
  intro p0 p1 s
  exact ⟨storePairInto p0 p1 s.oa, rfl, rfl, memRead_memWrite_same .., memRead_memWrite_same ..,
    fun j other => ⟨memRead_memWrite_other _ _ _ _ other, memRead_memWrite_other _ _ _ _ other⟩, nextPixIdx_val _⟩

open Sys2Proof Sys2Proof.Machine in
/-- Settles O45: of the writers of the sums and the button flag `DECODE_MOTION` and `SESSION_RESET` leave the
flag. -/
theorem onlySetBtnWritesTheButtonFlag : Obligations.OnlySetBtnWritesTheButtonFlag := by
  unfold Obligations.OnlySetBtnWritesTheButtonFlag
  refine ⟨fun b s => rfl, fun i s t h other => ?_⟩
  rcases exec_keeps_or_writes_sums_button h with ⟨-, -, same⟩ | ⟨b0, b1, b2, b3, b4, b5, b6, rfl⟩ | rfl | ⟨b, rfl⟩
  · exact same
  · cases h; rfl
  · cases h; rfl
  · exact absurd rfl (other b)

open Sys2Proof Sys2Proof.Machine in
/-- Settles O43. -/
theorem setModeWritesOnlyMode : Obligations.SetModeWritesOnlyMode := by
  unfold Obligations.SetModeWritesOnlyMode
  exact fun _ _ => rfl

open Sys2Proof Sys2Proof.Machine in
/-- Settles O44. -/
theorem sessionResetZeroesTheBuffer : Obligations.SessionResetZeroesTheBuffer := by
  unfold Obligations.SessionResetZeroesTheBuffer
  exact fun _ => rfl
end

section
/-! SUPPORT. The odometry (44_odometry R111 to R117): the single-step wrap, what each check of `TICK` answers, the
agreement of two states on the inputs of a tick, and the finiteness every step keeps. -/
namespace Sys2Proof.Machine

/-! ### The heading wrap (R113) -/

theorem wrapHeading_above {h : F64} (above : fGe h fTwoPi = true) : wrapHeading h = fSub h fTwoPi := if_pos above

theorem wrapHeading_below {h : F64} (under : fGe h fTwoPi = false) (below : fLt h (fZero false) = true) :
    wrapHeading h = fAdd h fTwoPi := by
  simp [wrapHeading, under, below]

theorem wrapHeading_within {h : F64} (under : fGe h fTwoPi = false) (notBelow : fLt h (fZero false) = false) :
    wrapHeading h = h := by
  simp [wrapHeading, under, notBelow]

/-- What is at or above `TWO_PI` stands above zero in the order of the values. -/
theorem fLt_zero_of_fGe_fTwoPi {h : F64} (above : fGe h fTwoPi = true) : fLt h (fZero false) = false := by
  have zero_lt_twoPi : fOrder (fZero false) < fOrder fTwoPi := by decide
  simp only [fGe, fLt, Bool.and_eq_true, Bool.and_eq_false_iff, decide_eq_true_eq, decide_eq_false_iff_not] at above ⊢
  obtain ⟨-, order⟩ := above
  exact .inr (by omega)

theorem fGe_of_isNaN {h : F64} (nan : fIsNaN h = true) (b : F64) : fGe h b = false := by simp [fGe, nan]

theorem fLt_of_isNaN {h : F64} (nan : fIsNaN h = true) (b : F64) : fLt h b = false := by simp [fLt, nan]

/-! ### The checks of a tick (R112) -/

theorem exec_tick_perSensor {s : State} (mode : s.oa.mode = .perSensor) : exec .tick s = .next s := by
  simp [exec, execTick, mode]

theorem exec_tick_freeBall {s : State} (mode : s.oa.mode = .freeBall) : exec .tick s = .next (freeBallTick s) := by
  simp [exec, execTick, mode]

theorem calUsable_iff (o : Odometry) : calUsable o = true ↔
    fIsFinite o.cal0 = true ∧ fIsZero o.cal0 = false ∧ fIsFinite o.cal1 = true ∧ fIsZero o.cal1 = false ∧
      fIsFinite o.circ = true := by
  simp [calUsable, and_assoc]

/-- The second check: the new position and heading are finite. -/
def TickFinite (p : Params) (o : Odometry) : Prop :=
  fIsFinite (tickX p o) = true ∧ fIsFinite (tickY p o) = true ∧ fIsFinite (tickHeading o) = true

/-- The half-unit coordinate of x fits a word of the history. -/
def HistFits (x : F64) : Prop :=
  fIsFinite (fMul x fTwo) = true ∧ -(2 ^ 31) ≤ fRoundHalfAway (fMul x fTwo) ∧ fRoundHalfAway (fMul x fTwo) < 2 ^ 31

theorem histCoord_of_fits {x : F64} (fits : HistFits x) :
    histCoord x = some (BitVec.ofInt 32 (fRoundHalfAway (fMul x fTwo))) := by
  obtain ⟨finite, range⟩ := fits
  exact (if_pos finite).trans (if_pos range)

theorem histCoord_of_not_fits {x : F64} (beyond : ¬HistFits x) : histCoord x = none := by
  by_cases finite : fIsFinite (fMul x fTwo) = true
  · exact (if_pos finite).trans (if_neg fun range => beyond ⟨finite, range⟩)
  · exact if_neg finite

section
variable {s : State}

theorem freeBallTick_badCal (unusable : ¬calUsable s.oa = true) : freeBallTick s = raiseOaError .badCal s :=
  if_neg unusable

variable (usable : calUsable s.oa = true)
include usable

theorem freeBallTick_nonfinite (infinite : ¬TickFinite s.params s.oa) :
    freeBallTick s = raiseOaError .nonfinite s := by
  have failed : ¬(fIsFinite (tickX s.params s.oa) && fIsFinite (tickY s.params s.oa) &&
      fIsFinite (tickHeading s.oa)) = true := by
    simpa [TickFinite, and_assoc] using infinite
  exact (if_pos usable).trans (if_neg failed)

variable (finite : TickFinite s.params s.oa)
include finite

theorem freeBallTick_range (beyond : ¬(HistFits (tickX s.params s.oa) ∧ HistFits (tickY s.params s.oa))) :
    freeBallTick s = raiseOaError .range s := by
  obtain ⟨finX, finY, finH⟩ := finite
  by_cases fitsX : HistFits (tickX s.params s.oa)
  · have noY := histCoord_of_not_fits fun fitsY => beyond ⟨fitsX, fitsY⟩
    simp [freeBallTick, usable, finX, finY, finH, noY]
  · simp [freeBallTick, usable, finX, finY, finH, histCoord_of_not_fits fitsX]

theorem freeBallTick_commits {hx hy : Coord} (fitsX : histCoord (tickX s.params s.oa) = some hx)
    (fitsY : histCoord (tickY s.params s.oa) = some hy) :
    freeBallTick s = { s with
      oa := commitTick (tickX s.params s.oa) (tickY s.params s.oa) (tickHeading s.oa) (hx, hy) s.oa } := by
  obtain ⟨finX, finY, finH⟩ := finite
  simp [freeBallTick, usable, finX, finY, finH, fitsX, fitsY]

end

/-! ### The inputs of a tick (R115) -/

/-- s and t agree on the inputs that R115 lists. -/
structure TickInputsAgree (s t : State) : Prop where
  mode : s.oa.mode = t.oa.mode
  lastDx : s.oa.lastDx = t.oa.lastDx
  lastDy : s.oa.lastDy = t.oa.lastDy
  cal0 : s.oa.cal0 = t.oa.cal0
  cal1 : s.oa.cal1 = t.oa.cal1
  circ : s.oa.circ = t.oa.circ
  heading : s.oa.heading = t.oa.heading
  posX : s.oa.posX = t.oa.posX
  posY : s.oa.posY = t.oa.posY
  hist : s.oa.hist = t.oa.hist
  trig : s.params.trig = t.params.trig

namespace TickInputsAgree

variable {s t : State} (h : TickInputsAgree s t)
include h

theorem calUsable_eq : calUsable s.oa = calUsable t.oa := by
  simp only [calUsable, h.cal0, h.cal1, h.circ]

theorem tickDistance_eq : tickDistance s.oa = tickDistance t.oa := by
  simp only [tickDistance, h.lastDy, h.cal0, h.cal1, h.circ]

theorem tickX_eq : tickX s.params s.oa = tickX t.params t.oa := by
  simp only [tickX, fcosOf, h.posX, h.tickDistance_eq, h.trig, h.heading]

theorem tickY_eq : tickY s.params s.oa = tickY t.params t.oa := by
  simp only [tickY, fsinOf, h.posY, h.tickDistance_eq, h.trig, h.heading]

theorem tickHeading_eq : tickHeading s.oa = tickHeading t.oa := by
  simp only [tickHeading, tickTurn, h.heading, h.lastDx, h.cal0, h.cal1]

theorem tickFinite_iff : TickFinite s.params s.oa ↔ TickFinite t.params t.oa := by
  simp only [TickFinite, h.tickX_eq, h.tickY_eq, h.tickHeading_eq]

/-- The two states fail the same check, or they commit the same values. -/
theorem freeBallTick_same :
    (∃ code, freeBallTick s = raiseOaError code s ∧ freeBallTick t = raiseOaError code t) ∨
    (∃ x y hd e, freeBallTick s = { s with oa := commitTick x y hd e s.oa } ∧
      freeBallTick t = { t with oa := commitTick x y hd e t.oa }) := by
  by_cases usable : calUsable t.oa = true
  case neg =>
    exact .inl ⟨.badCal, freeBallTick_badCal (by rwa [h.calUsable_eq]), freeBallTick_badCal usable⟩
  by_cases finite : TickFinite t.params t.oa
  case neg =>
    exact .inl ⟨.nonfinite, freeBallTick_nonfinite (h.calUsable_eq.trans usable) (by rwa [h.tickFinite_iff]),
      freeBallTick_nonfinite usable finite⟩
  have usable' := h.calUsable_eq.trans usable
  have finite' := h.tickFinite_iff.mpr finite
  by_cases fit : HistFits (tickX t.params t.oa) ∧ HistFits (tickY t.params t.oa)
  case neg =>
    exact .inl ⟨.range, freeBallTick_range usable' finite' (by rwa [h.tickX_eq, h.tickY_eq]),
      freeBallTick_range usable finite fit⟩
  obtain ⟨fitsX, fitsY⟩ := fit
  refine .inr ⟨_, _, _, _, ?_, freeBallTick_commits usable finite (histCoord_of_fits fitsX) (histCoord_of_fits fitsY)⟩
  rw [← h.tickX_eq, ← h.tickY_eq, ← h.tickHeading_eq]
  exact freeBallTick_commits usable' finite' (histCoord_of_fits (h.tickX_eq ▸ fitsX))
    (histCoord_of_fits (h.tickY_eq ▸ fitsY))

/-- The two states do nothing, raise the same error, or commit the same values. -/
theorem tick_same :
    (exec .tick s = .next s ∧ exec .tick t = .next t) ∨
    (∃ code, exec .tick s = .next (raiseOaError code s) ∧ exec .tick t = .next (raiseOaError code t)) ∨
    (∃ x y hd e, exec .tick s = .next { s with oa := commitTick x y hd e s.oa } ∧
      exec .tick t = .next { t with oa := commitTick x y hd e t.oa }) := by
  cases mode : t.oa.mode with
  | perSensor => exact .inl ⟨exec_tick_perSensor (h.mode.trans mode), exec_tick_perSensor mode⟩
  | freeBall =>
    rw [exec_tick_freeBall (h.mode.trans mode), exec_tick_freeBall mode]
    rcases h.freeBallTick_same with ⟨code, es, et⟩ | ⟨x, y, hd, e, es, et⟩
    · exact .inr (.inl ⟨code, by rw [es], by rw [et]⟩)
    · exact .inr (.inr ⟨x, y, hd, e, by rw [es], by rw [et]⟩)

end TickInputsAgree

/-! ### Finiteness over every step (R116) -/

theorem OdometryOk.of_block {s t : State} (h : OdometryOk s) (oa : t.oa = s.oa) (params : t.params = s.params) :
    OdometryOk t := by
  unfold OdometryOk
  rwa [oa, params]

theorem powerOn_odometryOk (p : Params) : OdometryOk (State.powerOn p) := by
  have zero_finite : fIsFinite 0 = true := by decide
  exact ⟨zero_finite, zero_finite, zero_finite, List.length_replicate⟩

theorem step_odometryOk {s t : State} (h : OdometryOk s) (hstep : step s = .next t) : OdometryOk t := by
  rcases step_cases hstep with ⟨i, u, run, port, turned⟩ | turned | rfl | ⟨rfl, -⟩
  · obtain ⟨-, -, -, oa, params⟩ := turned.block
    obtain ⟨move, kept⟩ := exec_oaMove port run
    exact move.odometryOk kept (h.of_block oa params)
  · obtain ⟨-, -, -, oa, params⟩ := turned.block
    exact h.of_block oa params
  · exact h.of_block rfl rfl
  · exact (powerOn_odometryOk s.params).of_block rfl rfl

end Sys2Proof.Machine

open Sys2Proof.Machine in
/-- Settles O48: the checks of the rule are those of `freeBallTick`, one after the other. -/
theorem tickFollowsItsRule : Obligations.TickFollowsItsRule := by
  unfold Obligations.TickFollowsItsRule
  refine ⟨fun s => exec_tick_perSensor, ?freeBall⟩
  rintro s rot0 rot1 roll0 roll1 dist dH x y h0 h mode rfl rfl rfl rfl rfl rfl hx hy rfl hh
  replace hx : x = tickX s.params s.oa := hx
  replace hy : y = tickY s.params s.oa := hy
  replace hh : h = tickHeading s.oa := hh
  subst hx hy hh
  rw [exec_tick_freeBall mode]
  congr 1
  by_cases usable : calUsable s.oa = true
  · rw [if_neg (not_not.mpr ((calUsable_iff s.oa).mp usable))]
    split_ifs with finite fits
    · obtain ⟨finX, finY, lowX, highX, lowY, highY⟩ := fits
      exact freeBallTick_commits usable finite (histCoord_of_fits ⟨finX, lowX, highX⟩)
        (histCoord_of_fits ⟨finY, lowY, highY⟩)
    · refine freeBallTick_range usable finite ?_
      rintro ⟨⟨finX, lowX, highX⟩, finY, lowY, highY⟩
      exact fits ⟨finX, finY, lowX, highX, lowY, highY⟩
    · exact freeBallTick_nonfinite usable finite
  · rw [if_pos (mt (calUsable_iff s.oa).mpr usable)]
    exact freeBallTick_badCal usable

open Sys2Proof.Machine in
/-- Settles O49: with all checks passed the tick is `commitTick`, which pushes on the history. -/
theorem freeBallTickCommits : Obligations.FreeBallTickCommits := by
  unfold Obligations.FreeBallTickCommits
  intro s hx hy mode usable finX finY finH fitsX fitsY
  refine ⟨commitTick (tickX s.params s.oa) (tickY s.params s.oa) (tickHeading s.oa) (hx, hy) s.oa, ?_,
    rfl, rfl, rfl, rfl, histPush_length .., histPush_newest _ _, histPush_older _ _⟩
  rw [exec_tick_freeBall mode, freeBallTick_commits usable ⟨finX, finY, finH⟩ fitsX fitsY]

open Sys2Proof.Machine in
/-- Settles O51: states that agree on the inputs take the same case of the tick with the same values. -/
theorem tickDependsOnlyOnItsInputs : Obligations.TickDependsOnlyOnItsInputs := by
  unfold Obligations.TickDependsOnlyOnItsInputs
  intro s t s' t' mode lastDx lastDy cal0 cal1 circ heading posX posY hist trig runS runT
  have agree : TickInputsAgree s t :=
    ⟨mode, lastDx, lastDy, cal0, cal1, circ, heading, posX, posY, hist, trig⟩
  rcases agree.tick_same with ⟨es, et⟩ | ⟨code, es, et⟩ | ⟨x, y, hd, e, es, et⟩ <;>
    cases es.symm.trans runS <;> cases et.symm.trans runT
  · exact ⟨heading, posX, posY, hist, ⟨0, by simp⟩, id, rfl, rfl, rfl, rfl, rfl⟩
  · exact ⟨heading, posX, posY, hist, ⟨BitVec.twoPow 8 (oaErrorBit code), rfl, rfl⟩,
      congrArg (setOaError · code), rfl, rfl, rfl, rfl, rfl⟩
  · exact ⟨rfl, rfl, rfl, congrArg (histPush · e) hist, ⟨0, by simp⟩, id, rfl, rfl, rfl, rfl, rfl⟩

open Sys2Proof.Machine in
/-- Settles O52: every move of the OA keeps it, and power-on values are finite. -/
theorem odometryStaysFinite : Obligations.OdometryStaysFinite := by
  unfold Obligations.OdometryStaysFinite
  exact fun _ _ => step_odometryOk

open Sys2Proof.Machine in
/-- Settles O46. -/
theorem setCalStoresThePatterns : Obligations.SetCalStoresThePatterns := by
  unfold Obligations.SetCalStoresThePatterns
  exact fun _ _ _ _ => rfl

open Sys2Proof.Machine in
/-- Settles O50: zero is below `TWO_PI`, so at most one case applies; -0.0 and a NaN meet neither. -/
theorem headingWrapsAtMostOnce : Obligations.HeadingWrapsAtMostOnce := by
  unfold Obligations.HeadingWrapsAtMostOnce
  intro h
  refine ⟨wrapHeading_above, wrapHeading_below, wrapHeading_within, ?exclusive, ?negativeZero, ?nan⟩
  case exclusive =>
    rintro ⟨above, below⟩
    simp [fLt_zero_of_fGe_fTwoPi above] at below
  case negativeZero => exact wrapHeading_within (by decide) (by decide)
  case nan => exact fun nan => wrapHeading_within (fGe_of_isNaN nan _) (fLt_of_isNaN nan _)
end

section
/-! SUPPORT. Errors and who shares what (60_exceptions R123 to R132): that every step answers, which bits of `OA_ERR` a
step can set, and the frames of the three agents, each from what its operations can do. -/
namespace Sys2Proof.Machine

/-! ### No error is fatal (R126, R128) -/

theorem step_next (s : State) : ∃ t, step s = .next t := by
  cases turn : fetch s with
  | quiet t => exact ⟨t, step_of_quiet turn⟩
  | run i u => rw [step_of_run turn]; exact exec_next i u

/-! ### The bits of `OA_ERR` (R120, R123, R124) -/

/-- A raised error sets its own bit and keeps the others. -/
theorem setOaError_getLsbD (v : BitVec 8) (code : OaErrorCode) (k : Nat) :
    (setOaError v code).getLsbD k = (v.getLsbD k || decide (oaErrorBit code = k)) := by
  have inside : oaErrorBit code < 8 := by cases code <;> decide
  simp [setOaError, inside]

/-- No operation clears a bit of `OA_ERR`. -/
theorem OaMove.oaErr_sticky {ps : Params} {o p : Odometry} (h : OaMove ps o p) {k : Nat}
    (set : o.oaErr.getLsbD k = true) : p.oaErr.getLsbD k = true := by
  cases h with
  | raised code => simp [setOaError_getLsbD, set]
  | _ => exact set

theorem step_oaErr_sticky {s t : State} (running : ∀ rest, s.env.agenda ≠ .powerOn :: rest) (h : step s = .next t)
    {k : Nat} (set : s.oa.oaErr.getLsbD k = true) : t.oa.oaErr.getLsbD k = true := by
  rcases step_cases h with ⟨i, u, run, port, turned⟩ | turned | rfl | ⟨-, rest, reset⟩
  · obtain ⟨-, -, -, oa, -⟩ := turned.block
    obtain ⟨move, -⟩ := exec_oaMove port run
    exact move.oaErr_sticky (by rwa [oa])
  · obtain ⟨-, -, -, oa, -⟩ := turned.block
    rwa [oa]
  · exact set
  · exact absurd reset (running rest)

/-- The codes 0x7 to 0xF are reserved. -/
theorem decodeOa_reserved {w : OaWord} (h : 0x7 ≤ w.op.toNat) :
    decodeOa w = .reservedOa7 ∨ ∃ low, decodeOa w = .reservedOa8F low := by
  rcases Nat.eq_or_lt_of_le h with seven | above
  · exact .inl (by simp [decodeOa, ← seven])
  · exact .inr ⟨_, decodeOa_reserved8F above w.opnd⟩

/-! ### The CD/SE agent (R82, R83, R132) -/

/-- All that a step of the CD/SE agent leaves alone; the response mailbox stays unless a free one is filled. -/
structure AgentFrame (s t : State) : Prop where
  oa : t.oa = s.oa
  params : t.params = s.params
  agenda : t.env.agenda = s.env.agenda
  reply : t.env.reply = s.env.reply
  query : t.env.query = s.env.query
  view : t.env.view = s.env.view
  chsel : t.se.chsel = s.se.chsel
  cmdByte : t.tp.cmdByte = s.tp.cmdByte
  response : (t.tp.rspValid = s.tp.rspValid ∧ t.tp.rspData = s.tp.rspData ∧ t.tp.rspLen = s.tp.rspLen) ∨
    (s.tp.rspValid = false ∧ t.tp.rspValid = true)

theorem AgentFrame.refl (s : State) : AgentFrame s s :=
  ⟨rfl, rfl, rfl, rfl, rfl, rfl, rfl, rfl, .inl ⟨rfl, rfl, rfl⟩⟩

theorem acceptCommand_frame (first : Label) (s : State) : AgentFrame s (acceptCommand first s) :=
  ⟨rfl, rfl, rfl, rfl, rfl, rfl, rfl, rfl, .inl ⟨rfl, rfl, rfl⟩⟩

theorem placePacket_frame (bs : List Byte) {s : State} (free : s.tp.rspValid = false) :
    AgentFrame s (placePacket bs s) :=
  ⟨rfl, rfl, rfl, rfl, rfl, rfl, rfl, rfl, .inr ⟨free, rfl⟩⟩

/-- A line writes the transport only by placing a packet in a free response mailbox. -/
theorem LineShape.transport {s t : State} (h : LineShape s t) :
    t.tp = s.tp ∨ (s.tp.rspValid = false ∧ t.tp.rspValid = true) := by
  obtain ⟨d, -, rfl | ⟨v, rfl⟩ | rfl | ⟨bs, free, -, rfl⟩ | rfl⟩ := h
  · exact .inl rfl
  · exact .inl (sendPhase_tp v s)
  · exact .inl (readPhase_tp s)
  · exact .inr ⟨free, rfl⟩
  · exact .inl rfl

theorem LineShape.frame {s t : State} (h : LineShape s t) : AgentFrame s t := by
  obtain ⟨oa, params, agenda, reply, view, query⟩ := h.keeps
  obtain ⟨-, -, cmdByte, -⟩ := h.mailboxes
  exact ⟨oa, params, agenda, reply, query, view, h.engine.chsel, cmdByte,
    h.transport.imp_left fun same => by simp [same]⟩

theorem sendPhase_shape (v : Byte) (s : State) : LineShape s (sendPhase v s) :=
  ⟨(sendPhase v s).cd, by rw [sendPhase_cd], .inr (.inl ⟨v, rfl⟩)⟩

theorem readPhase_shape (s : State) : LineShape s (readPhase s) :=
  ⟨(readPhase s).cd, by rw [readPhase_cd], .inr (.inr (.inl rfl))⟩

theorem exec_agent_frame {i : Instr} {s t : State}
    (agent : isCommand i = true ∨ (∃ v, i = .send v) ∨ i = .read ∨ ∃ bs, i = .emit bs) (h : exec i s = .next t) :
    AgentFrame s t := by
  rcases agent with command | ⟨v, rfl⟩ | rfl | ⟨bs, rfl⟩
  · rcases exec_command_shape command h with shape | ⟨-, -, first, -, -, rfl⟩
    · exact shape.frame
    · exact acceptCommand_frame first s
  · cases h; exact (sendPhase_shape v s).frame
  · cases h; exact (readPhase_shape s).frame
  · cases h
    rcases emitLine_cases bs id s with ⟨-, waits⟩ | ⟨free, places⟩
    · rw [waits]; exact .refl s
    · rw [places]; exact placePacket_frame bs free

/-! ### The OA (R84, R132) -/

/-- An OA operation writes the OA alone, and of the OA the frames only as `STORE_PIXEL_PAIR`. -/
theorem exec_decodeOa_frame {w : OaWord} {i : Instr} {s t : State} (decoded : decodeOa w = i)
    (h : exec i s = .next t) :
    t = { s with oa := t.oa } ∧
      ((t.oa.frame0 = s.oa.frame0 ∧ t.oa.frame1 = s.oa.frame1) ∨ ∃ p0 p1, i = .storePixelPair p0 p1) := by
  unfold decodeOa at decoded
  split at decoded <;> subst decoded
  case h_2 => cases h; exact ⟨rfl, .inr ⟨_, _, rfl⟩⟩ -- `STORE_PIXEL_PAIR`
  case h_3 => -- `TICK`
    rcases execTick_cases h with rfl | ⟨-, code, -, rfl⟩ | ⟨-, hx, hy, -, -, -, rfl⟩ <;>
      exact ⟨rfl, .inl ⟨rfl, rfl⟩⟩
  all_goals cases h; exact ⟨rfl, .inl ⟨rfl, rfl⟩⟩

/-! ### The host (R94 to R96, R132) -/

/-- What a host operation can do, said once: it only replies, or it also posts its byte or takes the packet. -/
theorem exec_host_cases {i : Instr} {s t : State}
    (host : (∃ bs, i = .hostWrite bs) ∨ (∃ n, i = .hostRead n) ∨ i = .hostStatus) (h : exec i s = .next t) :
    ∃ v, t = answerHost v s ∨ (∃ c, i = .hostWrite [c] ∧ t = answerHost v (postCommand c s)) ∨
      (∃ n, i = .hostRead n) ∧ t = answerHost v (takePacket s) := by
  rcases host with ⟨bs, rfl⟩ | ⟨n, rfl⟩ | rfl
  · rcases execHostWrite_cases bs s with ⟨c, rfl, -, e⟩ | ⟨-, e⟩ <;> cases e.symm.trans h
    · exact ⟨_, .inr (.inl ⟨c, rfl, rfl⟩)⟩
    · exact ⟨_, .inl rfl⟩
  · rcases execHostRead_cases n s with ⟨-, e⟩ | ⟨-, -, e⟩ | ⟨-, -, e⟩ <;> cases e.symm.trans h
    · exact ⟨_, .inl rfl⟩
    · exact ⟨_, .inl rfl⟩
    · exact ⟨_, .inr (.inr ⟨⟨n, rfl⟩, rfl⟩)⟩
  · cases h; exact ⟨_, .inl rfl⟩

end Sys2Proof.Machine

open Sys2Proof.Machine in
/-- Settles O53: every move of the OA keeps a set bit, and no turn but a power-on reset writes the OA otherwise. -/
theorem errorBitsAreSticky : Obligations.ErrorBitsAreSticky := by
  unfold Obligations.ErrorBitsAreSticky
  exact fun _ _ _ running h set => step_oaErr_sticky running h set

open Sys2Proof.Machine in
/-- Settles O58: the response mailbox stays, or a free one is filled; the frames stand in the OA. -/
theorem commandsLeaveTheOaAlone : Obligations.CommandsLeaveTheOaAlone := by
  unfold Obligations.CommandsLeaveTheOaAlone
  intro i s t agent h
  obtain ⟨oa, params, agenda, reply, query, view, chsel, cmdByte, response⟩ := exec_agent_frame agent h
  refine ⟨oa, params, fun j => by simp [frame0At, frame1At, oa], agenda, reply, query, view, chsel, cmdByte,
    fun unread => ?unread, fun empty => ?empty⟩
  case unread =>
    obtain ⟨valid, kept⟩ : t.tp.rspValid = s.tp.rspValid ∧ _ := response.resolve_right (by simp [unread])
    exact ⟨valid.trans unread, kept⟩
  case empty =>
    obtain ⟨-, kept⟩ := response.resolve_right (by simp [empty])
    exact kept

open Sys2Proof Sys2Proof.Machine in
/-- Settles O59: the state after is the state before with another OA, whose frames one row alone writes. -/
theorem oaOperationsLeaveTheBusAlone : Obligations.OaOperationsLeaveTheBusAlone := by
  unfold Obligations.OaOperationsLeaveTheBusAlone
  intro w i s t decoded h
  obtain ⟨oaAlone, frames⟩ := exec_decodeOa_frame (Except.ok.inj decoded) h
  rw [oaAlone]
  refine ⟨rfl, rfl, rfl, rfl, rfl, fun other j => ?_⟩
  obtain ⟨frame0, frame1⟩ := frames.resolve_right fun ⟨p0, p1, stores⟩ => other p0 p1 stores
  exact ⟨congrArg (memRead · j) frame0, congrArg (memRead · j) frame1⟩

open Sys2Proof.Machine in
/-- Settles O60: a post writes `CMD_FULL` and its byte, a take `RSP_VALID`, and a bare reply neither. -/
theorem hostOperationsTouchOnlyTheMailboxes : Obligations.HostOperationsTouchOnlyTheMailboxes := by
  unfold Obligations.HostOperationsTouchOnlyTheMailboxes
  intro i s t host h
  obtain ⟨v, rfl | ⟨c, posts, rfl⟩ | ⟨reads, rfl⟩⟩ := exec_host_cases host h
  · exact ⟨rfl, rfl, rfl, rfl, rfl, rfl, rfl, absurd rfl, absurd rfl⟩
  · exact ⟨rfl, rfl, rfl, rfl, rfl, rfl, rfl, fun _ => ⟨c, posts⟩, absurd rfl⟩
  · exact ⟨rfl, rfl, rfl, rfl, rfl, rfl, rfl, absurd rfl, fun _ => reads⟩

open Sys2Proof.Machine in
/-- Settles O5: a turn ends quietly or performs an operation, and every operation answers. -/
theorem noStepStopsTheBlock : Obligations.NoStepStopsTheBlock := by
  unfold Obligations.NoStepStopsTheBlock
  exact step_next

open Sys2Proof Sys2Proof.Machine in
/-- Settles O47: both reserved rows raise `ILLEGAL_OP`, whose bit is bit 0. -/
theorem reservedCodesRaiseIllegalOp : Obligations.ReservedCodesRaiseIllegalOp := by
  unfold Obligations.ReservedCodesRaiseIllegalOp
  refine ⟨fun i s reserved => ⟨setOaError s.oa.oaErr .illegalOp, ?raises, ?own, fun k other => ?others⟩,
    fun w code => ⟨decodeOa w, rfl, decodeOa_reserved code⟩⟩
  case raises => rcases reserved with rfl | ⟨low, rfl⟩ <;> rfl
  case own => simp [setOaError_getLsbD, oaErrorBit]
  case others => simp [setOaError_getLsbD, oaErrorBit, other.symm]
end

section
/-! SUPPORT. The power-on reset as a turn (70_reset_and_hazards R136): what it leaves and that the bus is silent (O2). -/
namespace Sys2Proof.Machine

/-- Only an operation drives the bus. -/
theorem busEvent_of_quiet {s t : State} (h : fetch s = .quiet t) : busEvent s = none := by
  simp [busEvent, h]

/-- A power-on reset differs from the power-on state of its block in the surroundings alone, which hold no element of
10_state (log 23). -/
theorem powerOnReset_powerOnValues (s : State) : PowerOnValues (powerOnReset s) :=
  powerOn_powerOnValues s.params

theorem fetch_of_agenda_powerOn {s : State} {rest : List Turn} (h : s.env.agenda = .powerOn :: rest) :
    fetch s = .quiet (powerOnReset { s with env := { s.env with agenda := rest } }) := by
  rw [fetch_of_agenda_cons h, turnOf, dropTurn_of_agenda h]

end Sys2Proof.Machine

open Sys2Proof.Machine in
/-- Settles O2: the turn is quiet, so no operation drives the bus, and it answers the power-on state of the block's own
parameters in the surroundings with the turn used up. -/
theorem powerOnResetAtAnyTime : Obligations.PowerOnResetAtAnyTime := by
  unfold Obligations.PowerOnResetAtAnyTime
  intro s rest h
  have turn := fetch_of_agenda_powerOn h
  exact ⟨_, step_of_quiet turn, powerOnReset_powerOnValues _, powerOnReset_params _, powerOnReset_env _,
    busEvent_of_quiet turn⟩
end
